-- ==== Sys2Proof/Word.lean ====
section
/-! DEFINITION. The word types of the block: the field widths of spec/00_scope.md R7, R8 and spec/10_state.md. -/

namespace Sys2Proof

/-- A wire or record byte (R7: a byte is 8 bits). -/
abbrev Byte := BitVec 8

/-- A `u16` field (R7). -/
abbrev U16 := BitVec 16

/-- A `u24` field: the frame metadata (R80). -/
abbrev U24 := BitVec 24

/-- A `u32` field, counter or time (R7, R8). -/
abbrev U32 := BitVec 32

/-- A frame id: `u11`, so that its addition is addition mod 2048 (R8, R34, R35). -/
abbrev Fid := BitVec 11

/-- A port id: `u6`, 0..63 (R41, R89). -/
abbrev PortId := BitVec 6

end Sys2Proof
end

