-- ==== Sys2Proof/Machine/Bytes.lean ====
section
/-! DEFINITION. Byte order and byte sequences: LE16, LE24, LE32, le32 and buf[a..b] of spec/00_scope.md R7, R8; byte order
little-endian in every field (spec/20_memory.md R60, spec/30_encoding.md R90). -/

namespace Sys2Proof.Machine

/-- LE16(x, y) = x + 256·y (R8). -/
def fromLe16 (b0 b1 : Byte) : U16 := b1 ++ b0

/-- LE24(x, y, z) = x + 256·y + 65536·z (R8). -/
def fromLe24 (b0 b1 b2 : Byte) : U24 := b2 ++ b1 ++ b0

/-- LE32(b0, b1, b2, b3) (R8). -/
def fromLe32 (b0 b1 b2 b3 : Byte) : U32 := b3 ++ b2 ++ b1 ++ b0

/-- The two bytes of a u16, least significant first (R90). -/
def toLe16 (v : U16) : List Byte := [v.extractLsb' 0 8, v.extractLsb' 8 8]

/-- The three bytes of a u24, least significant first (R60 (b), R90). -/
def toLe24 (v : U24) : List Byte := [v.extractLsb' 0 8, v.extractLsb' 8 8, v.extractLsb' 16 8]

/-- le32(v) (R8). -/
def toLe32 (v : U32) : List Byte :=
  [v.extractLsb' 0 8, v.extractLsb' 8 8, v.extractLsb' 16 8, v.extractLsb' 24 8]

/-- `buf[i]` (R7). The rules read it only for i below the length; past the end it is 0 and read by no rule (R23). -/
def byteAt (buf : List Byte) (i : Nat) : Byte := buf.getD i 0

/-- `buf[a..b]`, both ends inclusive, empty when b < a (R7). -/
def slice (buf : List Byte) (a b : Nat) : List Byte := (buf.drop a).take (b + 1 - a)

/-- The first n bytes and the rest, where the list has n bytes. -/
def splitBytes : Nat → List Byte → Option (List Byte × List Byte)
  | 0, rest => some ([], rest)
  | _ + 1, [] => none
  | n + 1, b :: rest =>
    match splitBytes n rest with
    | some (front, back) => some (b :: front, back)
    | none => none

end Sys2Proof.Machine
end

