-- ==== Sys2Proof/Machine/Crc.lean ====
section
/-! DEFINITION. The CRC32 parameter at its default, CRC-32/ISO-HDLC (spec/00_scope.md R5; the bit-serial form of
spec/93_implementation_defined.md G1). DESIGN CHOICE (log 6): the parameter is fixed at the default. -/

namespace Sys2Proof.Machine

/-- One bit of the bit-serial form: shift right, and xor with the reflected polynomial when the bit shifted out is 1. -/
def crcBit (c : U32) : U32 :=
  if c.getLsbD 0 then (c >>> 1) ^^^ 0xEDB88320#32 else c >>> 1

/-- One byte: xor it into the low bits, then eight bits. -/
def crcByte (c : U32) (b : Byte) : U32 :=
  crcBit (crcBit (crcBit (crcBit (crcBit (crcBit (crcBit (crcBit (c ^^^ b.setWidth 32))))))))

/-- crc32(bytes) (R5, R9). -/
def crc32 (bytes : List Byte) : U32 :=
  bytes.foldl crcByte 0xFFFFFFFF#32 ^^^ 0xFFFFFFFF#32

end Sys2Proof.Machine
end

