-- ==== Sys2Proof/Config.lean ====
section
/-! DEFINITION. The parameters and the configuration of an instance (spec/00_scope.md R5, R6). -/

namespace Sys2Proof

/-- MAX_PAYLOAD (R5). -/
abbrev maxPayload : Nat := 256

/-- HEADER_LEN, which is also LINK_FRAME_LEN (R5). -/
abbrev headerLen : Nat := 8

/-- FRAME_OVERHEAD: 8 header bytes and 4 CRC bytes (R5). -/
abbrev frameOverhead : Nat := 12

/-- FRAME_ID_MAX (R5). -/
abbrev frameIdMax : Nat := 2047

/-- FRAME_ID_SPACE (R5). -/
abbrev frameIdSpace : Nat := 2048

/-- INFLIGHT_MAX (R5; conflict C5). -/
abbrev inflightMax : Nat := 1023

/-- PORT_MAX (R5). -/
abbrev portMax : Nat := 63

/-- PORT_COUNT (R5). -/
abbrev portCount : Nat := 64

/-- RX_BUF_LEN, which is also MAX_FRAME_LEN (R5). -/
abbrev rxBufLen : Nat := 268

/-- The default of the parameter SOF (R5, decision D1). -/
abbrev sofDefault : Byte := 0x55

/-- The configuration and the open parameters of one instance: the six values of R6, and SOF, MAX_RETRIES,
REASM_ENABLE[p] and REASM_MAX[p] of R5. They are fixed at instantiation (R32) and stand in the state as data,
so that a statement about every state is about every configuration. -/
structure Config where
  /-- Register 0x10, CFG_TX_WINDOW_SIZE: bounds the number of in-flight frames (R33). -/
  txWindowSize : U32
  /-- Register 0x11, CFG_TX_BUFFER_SIZE: bounds the encoded bytes of the in-flight frames (R33). -/
  txBufferSize : U32
  /-- Register 0x12: accepted, read by no rule (R33). -/
  rxWindowSize : U32
  /-- Register 0x13: accepted, read by no rule (R33). -/
  rxBufferSize : U32
  /-- Register 0x14: accepted, read by no rule (R33). -/
  txLinkBufferSize : U32
  /-- Register 0x15, CFG_TX_TIMEOUT_MS: the retransmission timeout (R33). -/
  txTimeoutMs : U32
  /-- MAX_RETRIES (R5, R193). -/
  maxRetries : Nat
  /-- SOF (R5). -/
  sof : Byte
  /-- REASM_ENABLE[p] (R5). -/
  reasmEnable : Vector Bool 64
  /-- REASM_MAX[p] (R5). -/
  reasmMax : Vector U16 64
deriving DecidableEq, Repr

/-- The configurations for which an instance exists: R6 for the six values, R5 for the parameters (SOF[7:5] an
invalid type code, REASM_ENABLE[0] false, REASM_MAX[p] at least 1). -/
def Config.wf (c : Config) : Bool :=
  decide (1 ≤ c.txWindowSize.toNat) && decide (c.txWindowSize.toNat ≤ inflightMax) &&
  decide (1 ≤ c.txBufferSize.toNat) && decide (1 ≤ c.rxWindowSize.toNat) &&
  decide (1 ≤ c.rxBufferSize.toNat) && decide (1 ≤ c.txLinkBufferSize.toNat) &&
  decide (1 ≤ c.txTimeoutMs.toNat) &&
  (c.sof.extractLsb' 5 3 == 0b010#3 || c.sof.extractLsb' 5 3 == 0b111#3) &&
  c.reasmEnable[0] == false &&
  c.reasmMax.toList.all (fun m => decide (1 ≤ m.toNat))

/-- The configuration spec/95_test_vectors.md uses wherever an instance is needed (its Conventions), with no port's
sequencer enabled. DESIGN CHOICE (log 5): `State.reset` takes it, since the spec gives the configuration no
reset value. -/
def Config.conventions : Config where
  txWindowSize := 8
  txBufferSize := 300
  rxWindowSize := 1
  rxBufferSize := 1
  txLinkBufferSize := 1
  txTimeoutMs := 100
  maxRetries := 2
  sof := sofDefault
  reasmEnable := Vector.replicate 64 false
  reasmMax := Vector.replicate 64 1

end Sys2Proof
end

