-- ==== Sys2Proof/Syntax.lean ====
section
/-! DEFINITION. The abstract syntax: the named operand values of spec/30_encoding.md R83, R89, R91 and one constructor of
`Instr` for every row of spec/opcode_table.json. -/

namespace Sys2Proof

/-- The five link frame types (R81, R83). -/
inductive LinkType where
  | ackAll
  | ackOne
  | nackFrameId
  | nackFramingError
  | reset
deriving DecidableEq, Repr

/-- What the type field of byte 2 selects (R82, R120). -/
inductive FrameKind where
  | data
  | link (t : LinkType)
  | invalid
deriving DecidableEq, Repr

/-- The segment tags of the transport metadata (R89). -/
inductive SeqTag where
  | middle
  | stop
  | start
  | single
deriving DecidableEq, Repr

/-- The link events a port can see (R91, R275). -/
inductive LinkEvent where
  | reset
  | connected
  | disconnected
deriving DecidableEq, Repr

/-- One constructor per row of spec/opcode_table.json: the 21 command records of R91 with their operand fields, then
the 6 wire frames of R80 and R81 with theirs. A `bytes[n]` field carries its count as the length of its list. -/
inductive Instr where
  | frxByte (b : Byte)
  | frxReset
  | ftxData (frameId : U16) (metadata : U24) (payload : List Byte)
  | ftxLink (type : Byte) (frameId : U16)
  | fidSub (a b : U16)
  | fidInc (a : U16)
  | dlSend (now : U32) (metadata : U24) (payload : List Byte)
  | dlLlRecv (now : U32) (bytes : List Byte)
  | dlProcess (now : U32)
  | dlServiceInterval (now : U32)
  | dlReset (now : U32)
  | dlStatus
  | dlOnFrame (now : U32) (frameId : U16) (metadata : U24) (payload : List Byte)
  | dlOnLink (now : U32) (type : Byte) (frameId : U16)
  | dlOnFramingError (now : U32)
  | tpSend (now : U32) (portId : Byte) (seq : Byte) (portData : U16) (payload : List Byte)
  | tpPortRegister (portId : Byte) (handle : U32)
  | tpOnRecv (metadata : U24) (payload : List Byte)
  | tpOnEvent (event : Byte)
  | seqPush (portId : Byte) (seq : Byte) (portData : U16) (payload : List Byte)
  | seqReset (portId : Byte)
  | wireData (rsv : BitVec 2) (frameId : Fid) (metadata : U24) (payload : List Byte)
  | wireAckAll (rsv : BitVec 2) (frameId : Fid)
  | wireAckOne (rsv : BitVec 2) (frameId : Fid)
  | wireNackFrameId (rsv : BitVec 2) (frameId : Fid)
  | wireNackFramingError (rsv : BitVec 2) (frameId : Fid)
  | wireReset (rsv : BitVec 2) (frameId : Fid)
deriving DecidableEq, Repr

end Sys2Proof
end

