-- ==== Sys2Proof/Machine/Operands.lean ====
section
/-! DEFINITION. The operand forms: type, segment and event codes, the fields of byte 2, the transport metadata, the frame
layouts of spec/30_encoding.md and the frame-id arithmetic of spec/42_frame_id.md. -/

namespace Sys2Proof.Machine

/-! ## Codes -/

/-- The 3-bit type code of a link frame (R83). -/
def linkTypeCode : LinkType → BitVec 3
  | .ackAll => 0b001
  | .ackOne => 0b011
  | .nackFrameId => 0b100
  | .nackFramingError => 0b101
  | .reset => 0b110

/-- The frame kind a 3-bit type code selects (R83). -/
def frameKindOfCode (c : BitVec 3) : FrameKind :=
  if c = 0b000 then .data
  else if c = 0b001 then .link .ackAll
  else if c = 0b011 then .link .ackOne
  else if c = 0b100 then .link .nackFrameId
  else if c = 0b101 then .link .nackFramingError
  else if c = 0b110 then .link .reset
  else .invalid

/-- The link type a `type:u8` operand names: bits [2:0] a link code and bits [7:3] zero (R91). -/
def linkTypeOfByte (b : Byte) : Option LinkType :=
  if b.toNat < 8 then
    match frameKindOfCode (b.setWidth 3) with
    | .link t => some t
    | .data => none
    | .invalid => none
  else none

/-- The 2-bit code of a segment tag (R89). -/
def seqTagCode : SeqTag → BitVec 2
  | .middle => 0
  | .stop => 1
  | .start => 2
  | .single => 3

/-- The segment tag of a 2-bit code (R89). -/
def seqTagOfCode (c : BitVec 2) : SeqTag :=
  if c = 0 then .middle else if c = 1 then .stop else if c = 2 then .start else .single

/-- The segment tag a `seq:u8` operand names, where it fits 2 bits (R91, R93). -/
def seqTagOfByte (b : Byte) : Option SeqTag :=
  if b.toNat ≤ 3 then some (seqTagOfCode (b.setWidth 2)) else none

/-- The code of a link event (R91). -/
def linkEventCode : LinkEvent → Byte
  | .reset => 0
  | .connected => 1
  | .disconnected => 2

/-- The link event an `event:u8` operand names (R91). -/
def linkEventOfByte (b : Byte) : Option LinkEvent :=
  if b = 0 then some .reset
  else if b = 1 then some .connected
  else if b = 2 then some .disconnected
  else none

/-- The port a `port_id:u8` operand names, where it is at most PORT_MAX (R5, R93). -/
def portOfByte (b : Byte) : Option PortId :=
  if b.toNat ≤ portMax then some (b.setWidth 6) else none

/-- The frame id a `frame_id:u16` operand names, where it is at most FRAME_ID_MAX (R93). -/
def fidOfU16 (v : U16) : Option Fid :=
  if v.toNat ≤ frameIdMax then some (v.setWidth 11) else none

/-! ## Byte 2 and the frame id fields -/

/-- Byte 2: type at [7:5], rsv at [4:3], frame_id[10:8] at [2:0] (R82). -/
def packByte2 (code : BitVec 3) (rsv : BitVec 2) (fid : Fid) : Byte :=
  code ++ rsv ++ fid.extractLsb' 8 3

/-- frame_id[7:0] (R60 (c)). -/
def fidLow (fid : Fid) : Byte := fid.extractLsb' 0 8

/-- frame_id = byte2[2:0]·256 + low (R85). -/
def unpackFid (b2 low : Byte) : Fid := b2.extractLsb' 0 3 ++ low

/-- byte2[4:3] (R82). -/
def rsvOf (b2 : Byte) : BitVec 2 := b2.extractLsb' 3 2

/-- `kind(b)` (R120): the frame kind of a byte in the type position, from bits [7:5] alone. -/
def kind (b : Byte) : FrameKind := frameKindOfCode (b.extractLsb' 5 3)

/-! ## Transport metadata -/

/-- metadata = port_id + 64·seq + 256·port_data (R89). -/
def packMetadata (p : PortId) (tag : SeqTag) (portData : U16) : U24 :=
  portData ++ seqTagCode tag ++ p

/-- metadata[5:0] (R89). -/
def metadataPort (m : U24) : PortId := m.extractLsb' 0 6

/-- metadata[7:6] (R89). -/
def metadataSeq (m : U24) : SeqTag := seqTagOfCode (m.extractLsb' 6 2)

/-- metadata[23:8] (R89). -/
def metadataPortData (m : U24) : U16 := m.extractLsb' 8 16

/-! ## Frame layouts -/

/-- The covered bytes of a DATA frame, offset 2 to the end of the payload (R80, R86). -/
def dataBody (rsv : BitVec 2) (fid : Fid) (metadata : U24) (payload : List Byte) : List Byte :=
  packByte2 0b000 rsv fid :: BitVec.ofNat 8 (payload.length - 1) :: fidLow fid :: (toLe24 metadata ++ payload)

/-- A whole DATA frame (R80). -/
def dataFrame (sof : Byte) (rsv : BitVec 2) (fid : Fid) (metadata : U24) (payload : List Byte) : List Byte :=
  sof :: sof :: (dataBody rsv fid metadata payload ++ toLe32 (crc32 (dataBody rsv fid metadata payload)))

/-- The covered bytes of a link frame, offsets 2 and 3 (R81, R86). -/
def linkBody (rsv : BitVec 2) (t : LinkType) (fid : Fid) : List Byte :=
  [packByte2 (linkTypeCode t) rsv fid, fidLow fid]

/-- A whole link frame (R81). -/
def linkFrame (sof : Byte) (rsv : BitVec 2) (t : LinkType) (fid : Fid) : List Byte :=
  sof :: sof :: (linkBody rsv t fid ++ toLe32 (crc32 (linkBody rsv t fid)))

/-! ## Frame-id arithmetic -/

/-- FID_SUB (R170): the signed modular distance a − b; operands are reduced mod 2048 first. At the midpoint the result
is the one R170 pins (decision D9; log 17). -/
def fidSub (a b : Nat) : Int :=
  let c : Int := (a % frameIdSpace : Nat) - (b % frameIdSpace : Nat)
  if c > 1023 then c - 2048 else if c < -1023 then c + 2048 else c

/-- FID_INC (R171): (a + 1) mod 2048. -/
def fidInc (a : Nat) : Fid := BitVec.ofNat 11 (a + 1)

/-- Elapsed time (now − t) mod 2^32 (R180). -/
def elapsed (now t : U32) : U32 := now - t

end Sys2Proof.Machine
end

