-- ==== Sys2Proof/WellFormed.lean ====
section
/-! DEFINITION. Well-formed instructions: those an encoding exists for. A record's byte list has a u16 count
(spec/30_encoding.md R90), a DATA frame's payload has 1 to 256 bytes (R80, R84 (d)). Every other field has the width of
its type, and a value that fits the field but not the operation is the operation's business (R93). -/

namespace Sys2Proof

/-- A byte list whose count fits the u16 count field (R90). -/
def countFits (bytes : List Byte) : Bool :=
  decide (bytes.length < 2 ^ 16)

/-- A payload a DATA frame can carry (R80). -/
def framePayloadFits (payload : List Byte) : Bool :=
  decide (1 ≤ payload.length) && decide (payload.length ≤ maxPayload)

/-- The instruction has an encoding. -/
def Instr.wf : Instr → Bool
  | .frxByte _ => true
  | .frxReset => true
  | .ftxData _ _ payload => countFits payload
  | .ftxLink _ _ => true
  | .fidSub _ _ => true
  | .fidInc _ => true
  | .dlSend _ _ payload => countFits payload
  | .dlLlRecv _ bytes => countFits bytes
  | .dlProcess _ => true
  | .dlServiceInterval _ => true
  | .dlReset _ => true
  | .dlStatus => true
  | .dlOnFrame _ _ _ payload => countFits payload
  | .dlOnLink _ _ _ => true
  | .dlOnFramingError _ => true
  | .tpSend _ _ _ _ payload => countFits payload
  | .tpPortRegister _ _ => true
  | .tpOnRecv _ payload => countFits payload
  | .tpOnEvent _ => true
  | .seqPush _ _ _ payload => countFits payload
  | .seqReset _ => true
  | .wireData _ _ _ payload => framePayloadFits payload
  | .wireAckAll _ _ => true
  | .wireAckOne _ _ => true
  | .wireNackFrameId _ _ => true
  | .wireNackFramingError _ _ => true
  | .wireReset _ _ => true

end Sys2Proof
end

