-- ==== Sys2Proof/Decode.lean ====
section
/-! DEFINITION. The decoder of command records and wire frames, total on any bytes and rejecting by name, and after it the
encoder (spec/30_encoding.md R80 to R93). The two encoding spaces are separate: a wire frame begins with SOF, whose value is
a parameter, a record with an opcode. -/

namespace Sys2Proof

open Machine

/-- Why a byte sequence is no command record (R90, R92) or no valid frame (R84, R127, R128). -/
inductive DecodeError where
  /-- A record or frame that ends before its last field (R90). -/
  | truncated
  /-- An opcode outside the table of R91 (R92). -/
  | unassignedOpcode (opcode : Byte)
  /-- Bytes after the record's or frame's last field: its length is fixed by its opcode and counts (R90; log 14). -/
  | trailingBytes
  /-- A frame whose first two bytes are not SOF SOF (R80, R81). -/
  | badSof
  /-- A frame whose type code is 0b010 or 0b111 (R84 (a)). -/
  | badFrameType
  /-- A frame whose CRC field is not the CRC of the bytes it covers (R86). -/
  | badCrc
deriving DecidableEq, Repr

/-- The 21 command opcodes of R91, by mnemonic. -/
inductive Opcode where
  | frxByte | frxReset
  | ftxData | ftxLink
  | fidSub | fidInc
  | dlSend | dlLlRecv | dlProcess | dlServiceInterval | dlReset | dlStatus | dlOnFrame | dlOnLink | dlOnFramingError
  | tpSend | tpPortRegister | tpOnRecv | tpOnEvent
  | seqPush | seqReset
deriving DecidableEq, Repr

/-- The opcode byte (R91): [7:4] the sub-block, [3:0] the operation (R90). -/
def opcodeByte : Opcode → Byte
  | .frxByte => 0x00
  | .frxReset => 0x01
  | .ftxData => 0x10
  | .ftxLink => 0x11
  | .fidSub => 0x20
  | .fidInc => 0x21
  | .dlSend => 0x30
  | .dlLlRecv => 0x31
  | .dlProcess => 0x32
  | .dlServiceInterval => 0x33
  | .dlReset => 0x34
  | .dlStatus => 0x35
  | .dlOnFrame => 0x36
  | .dlOnLink => 0x37
  | .dlOnFramingError => 0x38
  | .tpSend => 0x40
  | .tpPortRegister => 0x41
  | .tpOnRecv => 0x42
  | .tpOnEvent => 0x43
  | .seqPush => 0x50
  | .seqReset => 0x51

/-- The opcode table's rows, in its order. -/
def opcodeTable : List Opcode :=
  [.frxByte, .frxReset, .ftxData, .ftxLink, .fidSub, .fidInc, .dlSend, .dlLlRecv, .dlProcess, .dlServiceInterval,
   .dlReset, .dlStatus, .dlOnFrame, .dlOnLink, .dlOnFramingError, .tpSend, .tpPortRegister, .tpOnRecv, .tpOnEvent,
   .seqPush, .seqReset]

/-- The opcode a byte stands for; none for the unassigned bytes (R92). -/
def opcodeOfByte (b : Byte) : Option Opcode :=
  opcodeTable.find? (fun o => opcodeByte o == b)

/-! ## Field readers: one value from the front of the bytes, and the rest -/

def readByte : List Byte → Except DecodeError (Byte × List Byte)
  | b :: rest => .ok (b, rest)
  | [] => .error .truncated

def readU16 : List Byte → Except DecodeError (U16 × List Byte)
  | b0 :: b1 :: rest => .ok (fromLe16 b0 b1, rest)
  | _ => .error .truncated

def readU24 : List Byte → Except DecodeError (U24 × List Byte)
  | b0 :: b1 :: b2 :: rest => .ok (fromLe24 b0 b1 b2, rest)
  | _ => .error .truncated

def readU32 : List Byte → Except DecodeError (U32 × List Byte)
  | b0 :: b1 :: b2 :: b3 :: rest => .ok (fromLe32 b0 b1 b2 b3, rest)
  | _ => .error .truncated

/-- A `bytes[n]` field: its u16 count n, then n raw bytes (R90). -/
def readCounted (bytes : List Byte) : Except DecodeError (List Byte × List Byte) :=
  match readU16 bytes with
  | .error e => .error e
  | .ok (n, rest) =>
    match splitBytes n.toNat rest with
    | some r => .ok r
    | none => .error .truncated

/-- The operand fields of each opcode, in the order of R91. -/
def decodeFields (o : Opcode) (bytes : List Byte) : Except DecodeError (Instr × List Byte) :=
  match o with
  | .frxByte => do
    let (b, r) ← readByte bytes
    .ok (.frxByte b, r)
  | .frxReset => .ok (.frxReset, bytes)
  | .ftxData => do
    let (fid, r) ← readU16 bytes
    let (m, r) ← readU24 r
    let (pl, r) ← readCounted r
    .ok (.ftxData fid m pl, r)
  | .ftxLink => do
    let (t, r) ← readByte bytes
    let (fid, r) ← readU16 r
    .ok (.ftxLink t fid, r)
  | .fidSub => do
    let (a, r) ← readU16 bytes
    let (b, r) ← readU16 r
    .ok (.fidSub a b, r)
  | .fidInc => do
    let (a, r) ← readU16 bytes
    .ok (.fidInc a, r)
  | .dlSend => do
    let (now, r) ← readU32 bytes
    let (m, r) ← readU24 r
    let (pl, r) ← readCounted r
    .ok (.dlSend now m pl, r)
  | .dlLlRecv => do
    let (now, r) ← readU32 bytes
    let (bs, r) ← readCounted r
    .ok (.dlLlRecv now bs, r)
  | .dlProcess => do
    let (now, r) ← readU32 bytes
    .ok (.dlProcess now, r)
  | .dlServiceInterval => do
    let (now, r) ← readU32 bytes
    .ok (.dlServiceInterval now, r)
  | .dlReset => do
    let (now, r) ← readU32 bytes
    .ok (.dlReset now, r)
  | .dlStatus => .ok (.dlStatus, bytes)
  | .dlOnFrame => do
    let (now, r) ← readU32 bytes
    let (fid, r) ← readU16 r
    let (m, r) ← readU24 r
    let (pl, r) ← readCounted r
    .ok (.dlOnFrame now fid m pl, r)
  | .dlOnLink => do
    let (now, r) ← readU32 bytes
    let (t, r) ← readByte r
    let (fid, r) ← readU16 r
    .ok (.dlOnLink now t fid, r)
  | .dlOnFramingError => do
    let (now, r) ← readU32 bytes
    .ok (.dlOnFramingError now, r)
  | .tpSend => do
    let (now, r) ← readU32 bytes
    let (p, r) ← readByte r
    let (sq, r) ← readByte r
    let (pd, r) ← readU16 r
    let (pl, r) ← readCounted r
    .ok (.tpSend now p sq pd pl, r)
  | .tpPortRegister => do
    let (p, r) ← readByte bytes
    let (h, r) ← readU32 r
    .ok (.tpPortRegister p h, r)
  | .tpOnRecv => do
    let (m, r) ← readU24 bytes
    let (pl, r) ← readCounted r
    .ok (.tpOnRecv m pl, r)
  | .tpOnEvent => do
    let (ev, r) ← readByte bytes
    .ok (.tpOnEvent ev, r)
  | .seqPush => do
    let (p, r) ← readByte bytes
    let (sq, r) ← readByte r
    let (pd, r) ← readU16 r
    let (pl, r) ← readCounted r
    .ok (.seqPush p sq pd pl, r)
  | .seqReset => do
    let (p, r) ← readByte bytes
    .ok (.seqReset p, r)

/-- A command record at the front of the bytes, and the bytes after it (R90, R91). -/
def decodeCommand : List Byte → Except DecodeError (Instr × List Byte)
  | [] => .error .truncated
  | b :: rest =>
    match opcodeOfByte b with
    | some o => decodeFields o rest
    | none => .error (.unassignedOpcode b)

/-- The wire instruction of a link type. -/
def wireLink : LinkType → BitVec 2 → Fid → Instr
  | .ackAll => .wireAckAll
  | .ackOne => .wireAckOne
  | .nackFrameId => .wireNackFrameId
  | .nackFramingError => .wireNackFramingError
  | .reset => .wireReset

/-- The rest of a DATA frame, from byte 2 on, whose payload has `b3 + 1` bytes (R80, R85, R86). -/
def decodeDataFrame (b2 b3 b4 b5 b6 b7 : Byte) (rest : List Byte) : Except DecodeError (Instr × List Byte) :=
  match splitBytes (b3.toNat + 1) rest with
  | none => .error .truncated
  | some (payload, tail) =>
    match readU32 tail with
    | .error e => .error e
    | .ok (crc, after) =>
      if crc32 (b2 :: b3 :: b4 :: b5 :: b6 :: b7 :: payload) = crc then
        .ok (.wireData (rsvOf b2) (unpackFid b2 b4) (fromLe24 b5 b6 b7) payload, after)
      else .error .badCrc

/-- A whole wire frame at the front of the bytes, and the bytes after it (R80 to R88). -/
def decodeFrame (sof : Byte) : List Byte → Except DecodeError (Instr × List Byte)
  | s1 :: s2 :: b2 :: b3 :: b4 :: b5 :: b6 :: b7 :: rest =>
    if s1 = sof ∧ s2 = sof then
      match kind b2 with
      | .invalid => .error .badFrameType
      | .link t =>
        if crc32 [b2, b3] = fromLe32 b4 b5 b6 b7 then .ok (wireLink t (rsvOf b2) (unpackFid b2 b3), rest)
        else .error .badCrc
      | .data => decodeDataFrame b2 b3 b4 b5 b6 b7 rest
    else .error .badSof
  | _ => .error .truncated

/-- Nothing may stand after the last field (R90; log 14). -/
def exactly : Except DecodeError (Instr × List Byte) → Except DecodeError Instr
  | .ok (i, []) => .ok i
  | .ok (_, _ :: _) => .error .trailingBytes
  | .error e => .error e

/-- One command record (R90). -/
def decodeRecord (bytes : List Byte) : Except DecodeError Instr := exactly (decodeCommand bytes)

/-- One wire frame (R80, R81). -/
def decodeWire (sof : Byte) (bytes : List Byte) : Except DecodeError Instr := exactly (decodeFrame sof bytes)

/-! ## The encoder -/

/-- A `bytes[n]` field (R90). -/
def encodeCounted (bytes : List Byte) : List Byte := toLe16 (BitVec.ofNat 16 bytes.length) ++ bytes

/-- The words of an instruction: a record by R90 and R91, a frame by R80 and R81 with the SOF given. -/
def encodeWith (sof : Byte) : Instr → List Byte
  | .frxByte b => opcodeByte .frxByte :: [b]
  | .frxReset => [opcodeByte .frxReset]
  | .ftxData fid m pl => opcodeByte .ftxData :: (toLe16 fid ++ (toLe24 m ++ encodeCounted pl))
  | .ftxLink t fid => opcodeByte .ftxLink :: t :: toLe16 fid
  | .fidSub a b => opcodeByte .fidSub :: (toLe16 a ++ toLe16 b)
  | .fidInc a => opcodeByte .fidInc :: toLe16 a
  | .dlSend now m pl => opcodeByte .dlSend :: (toLe32 now ++ (toLe24 m ++ encodeCounted pl))
  | .dlLlRecv now bs => opcodeByte .dlLlRecv :: (toLe32 now ++ encodeCounted bs)
  | .dlProcess now => opcodeByte .dlProcess :: toLe32 now
  | .dlServiceInterval now => opcodeByte .dlServiceInterval :: toLe32 now
  | .dlReset now => opcodeByte .dlReset :: toLe32 now
  | .dlStatus => [opcodeByte .dlStatus]
  | .dlOnFrame now fid m pl =>
    opcodeByte .dlOnFrame :: (toLe32 now ++ (toLe16 fid ++ (toLe24 m ++ encodeCounted pl)))
  | .dlOnLink now t fid => opcodeByte .dlOnLink :: (toLe32 now ++ (t :: toLe16 fid))
  | .dlOnFramingError now => opcodeByte .dlOnFramingError :: toLe32 now
  | .tpSend now p sq pd pl => opcodeByte .tpSend :: (toLe32 now ++ (p :: sq :: (toLe16 pd ++ encodeCounted pl)))
  | .tpPortRegister p h => opcodeByte .tpPortRegister :: p :: toLe32 h
  | .tpOnRecv m pl => opcodeByte .tpOnRecv :: (toLe24 m ++ encodeCounted pl)
  | .tpOnEvent ev => opcodeByte .tpOnEvent :: [ev]
  | .seqPush p sq pd pl => opcodeByte .seqPush :: p :: sq :: (toLe16 pd ++ encodeCounted pl)
  | .seqReset p => opcodeByte .seqReset :: [p]
  | .wireData rsv fid m pl => dataFrame sof rsv fid m pl
  | .wireAckAll rsv fid => linkFrame sof rsv .ackAll fid
  | .wireAckOne rsv fid => linkFrame sof rsv .ackOne fid
  | .wireNackFrameId rsv fid => linkFrame sof rsv .nackFrameId fid
  | .wireNackFramingError rsv fid => linkFrame sof rsv .nackFramingError fid
  | .wireReset rsv fid => linkFrame sof rsv .reset fid

/-- The words of an instruction, with SOF at its default (R5). -/
def encode (i : Instr) : List Byte := encodeWith sofDefault i

/-- The instruction is a wire frame, not a command record. -/
def Instr.isWire : Instr → Bool
  | .wireData _ _ _ _ | .wireAckAll _ _ | .wireAckOne _ _ | .wireNackFrameId _ _ | .wireNackFramingError _ _
  | .wireReset _ _ => true
  | .frxByte _ | .frxReset | .ftxData _ _ _ | .ftxLink _ _ | .fidSub _ _ | .fidInc _ | .dlSend _ _ _ | .dlLlRecv _ _
  | .dlProcess _ | .dlServiceInterval _ | .dlReset _ | .dlStatus | .dlOnFrame _ _ _ _ | .dlOnLink _ _ _
  | .dlOnFramingError _ | .tpSend _ _ _ _ _ | .tpPortRegister _ _ | .tpOnRecv _ _ | .tpOnEvent _ | .seqPush _ _ _ _
  | .seqReset _ => false

/-! ## Words of the opcode table -/

/-- The bytes of a table word: bit 0 of `w` is the least significant bit of the first byte. -/
def tableBytes : Nat → Nat → List Byte
  | 0, _ => []
  | n + 1, w => BitVec.ofNat 8 w :: tableBytes n (w / 256)

/-- The longest record: DL_ON_FRAME's 12 bytes and a payload of 65535 (R91). -/
abbrev longestRecord : Nat := 65547

/-- The bytes of a table word of `nbits` bits, the bits above them zero, up to the longest instruction. -/
def tableWord (nbits w : Nat) : List Byte :=
  tableBytes ((nbits + 7) / 8) w ++ List.replicate longestRecord 0

/-- The instruction the decoder reads from a table word: a command record, or, where the first byte is no opcode, a wire
frame with SOF at its default (log 26). -/
def decodeTableWord (nbits w : Nat) : Option Instr :=
  match decodeCommand (tableWord nbits w) with
  | .ok (i, _) => some i
  | .error _ =>
    match decodeFrame sofDefault (tableWord nbits w) with
    | .ok (i, _) => some i
    | .error _ => none

end Sys2Proof
end

