-- ==== Sys2Proof/Machine/State.lean ====
section
/-! DEFINITION. The state of one block (spec/10_state.md, spec/60_exceptions.md R272), the power-on reset
(spec/70_reset_and_hazards.md R300), and the reasons a step can stop. -/

namespace Sys2Proof.Machine

/-! ## FRX (10_state.md section 2) -/

/-- `rx_state` (R22). -/
inductive RxState where
  | searchSof
  | searchSof2
  | searchFrameType
  | storeHeader
  | storeRemainder
deriving DecidableEq, Repr

/-- `sync` (R26). -/
inductive SyncState where
  | init
  | sync
  | lost
deriving DecidableEq, Repr

/-- An event FRX emits (R121, R127, R128, R272). -/
inductive FrxEvent where
  | framingError
  | link (type : LinkType) (fid : Fid)
  | frame (fid : Fid) (metadata : U24) (payload : List Byte)
deriving DecidableEq, Repr

/-- The receive framer's state (R22 to R28). `buf` is held as the list of its first `len` bytes, as R23 allows (log 10). -/
structure Frx where
  rxState : RxState
  buf : List Byte
  expected : Nat
  sync : SyncState
  crcErrors : U32
  resync : U32
deriving DecidableEq, Repr

/-- `len` (R24). -/
abbrev Frx.len (f : Frx) : Nat := f.buf.length

/-- FRX after power-on (R300). -/
def Frx.reset : Frx where
  rxState := .searchSof
  buf := []
  expected := 0
  sync := .init
  crcErrors := 0
  resync := 0

/-! ## DL (10_state.md section 4) -/

/-- One in-flight DATA frame (R36). -/
structure InFlight where
  fid : Fid
  frame : List Byte
  tSent : U32
  attempts : U32
deriving DecidableEq, Repr

/-- The ARQ engine's state (R34 to R38). The counters hardwired to 0 have no storage. -/
structure Dl where
  txFrameId : Fid
  rxFrameId : Fid
  inflight : List InFlight
  discReported : Bool
  txBytes : U32
  txDataFrames : U32
  txRetransmissions : U32
  rxBytes : U32
  rxDataFrames : U32
deriving DecidableEq, Repr

/-- DL after power-on (R300). -/
def Dl.reset : Dl where
  txFrameId := 0
  rxFrameId := 0
  inflight := []
  discReported := false
  txBytes := 0
  txDataFrames := 0
  txRetransmissions := 0
  rxBytes := 0
  rxDataFrames := 0

/-- An item DL passes upward in unit mode (R272). -/
inductive DlUpItem where
  | recv (metadata : U24) (payload : List Byte)
  | event (ev : LinkEvent)
deriving DecidableEq, Repr

/-! ## TP (10_state.md section 5) -/

/-- An entry of the port table (R41). -/
inductive PortEntry where
  | empty
  | reg (handle : U32)
deriving DecidableEq, Repr

/-- An item on PORT_OUT (R234). -/
inductive PortItem where
  | recv (port : PortId) (handle : U32) (seq : SeqTag) (portData : U16) (payload : List Byte)
  | event (port : PortId) (handle : U32) (ev : LinkEvent)
  | msg (port : PortId) (handle : U32) (portData : U16) (message : List Byte)
deriving DecidableEq, Repr

/-! ## SEQ (10_state.md section 6) -/

/-- The sequencer of one port (R43). -/
structure Sequencer where
  active : Bool
  abuf : List Byte
  apd : U16
  seqErrors : U32
deriving DecidableEq, Repr

/-- A sequencer after power-on (R300). -/
def Sequencer.reset : Sequencer where
  active := false
  abuf := []
  apd := 0
  seqErrors := 0

/-! ## How the block is used -/

/-- The six sub-blocks (R1). -/
inductive SubBlock where
  | frx | ftx | fid | dl | tp | seq
deriving DecidableEq, Repr

/-- A composed block, or unit mode of one sub-block (R92, R272). The mode is fixed at instantiation (log 7). -/
inductive Mode where
  | composed
  | unit (b : SubBlock)
deriving DecidableEq, Repr

/-- Result codes (R270). -/
inductive Result where
  | ok
  | invalidParameter
  | tooBig
  | notEnoughMemory
deriving DecidableEq, Repr

/-- What a command returned (the "returns" column of R91); not block state (R44), see log 3. -/
inductive Ret where
  /-- The command returns nothing. -/
  | none
  /-- A result code alone. -/
  | result (r : Result)
  /-- OK and the bytes of a constructed frame (R160, R161). -/
  | frame (bytes : List Byte)
  /-- FID_SUB's integer (R170). -/
  | distance (d : Int)
  /-- FID_INC's frame id (R171). -/
  | frameId (f : Fid)
  /-- DL_SERVICE_INTERVAL's milliseconds (R194). -/
  | millis (t : U32)
  /-- DL_STATUS's ten counters (R197). -/
  | status (counters : List U32)
deriving DecidableEq, Repr

/-- What the host presents to the block (log 1, log 9): a command record (R90), or bytes the wire delivers (R62, R287). -/
inductive Input where
  | command (record : List Byte)
  | wire (bytes : List Byte)
deriving DecidableEq, Repr

/-! ## The state -/

/-- One block: the spec's state, its output channels, and the model's own fields `inbox`, `now` and `ret`. -/
structure State where
  /-- Composed, or unit mode (R92). -/
  mode : Mode
  /-- The configuration and parameters, constant (R32). -/
  cfg : Config
  frx : Frx
  dl : Dl
  /-- The port table (R41). -/
  ports : Vector PortEntry 64
  /-- The sequencers (R43); one whose port is not enabled is never written. -/
  seqs : Vector Sequencer 64
  /-- The transmit byte sink (R61). -/
  txOut : List Byte
  /-- The channel of a stand-alone FRX (R272). -/
  frxOut : List FrxEvent
  /-- The channel of a DL in unit mode (R272). -/
  dlUp : List DlUpItem
  /-- The channel of TP and SEQ (R272). -/
  portOut : List PortItem
  /-- The model's own: inputs issued and not yet run, oldest first (log 1). -/
  inbox : List Input
  /-- The model's own: the `now` of the last command that carried one, the default of R94 (log 4). -/
  now : U32
  /-- The model's own: the return value of the last command (log 3). -/
  ret : Ret
deriving DecidableEq, Repr

/-- Power-on reset with a legal configuration (R300). -/
def State.initial (mode : Mode) (cfg : Config) : State where
  mode := mode
  cfg := cfg
  frx := Frx.reset
  dl := Dl.reset
  ports := Vector.replicate 64 .empty
  seqs := Vector.replicate 64 Sequencer.reset
  txOut := []
  frxOut := []
  dlUp := []
  portOut := []
  inbox := []
  now := 0
  ret := .none

/-- Creating an instance (R6, R300): an illegal configuration is refused, and no instance exists. -/
def State.powerOn (mode : Mode) (cfg : Config) : Option State :=
  if cfg.wf then some (State.initial mode cfg) else none

/-- The machine right after reset: a composed block with the Conventions configuration (log 5, log 7). -/
def State.reset : State := State.initial .composed Config.conventions

/-! ## Why a step can stop -/

/-- No step faults: the block has no fatal state and takes no trap (R274, R277), so this type has no value (log 19). Safe. -/
inductive Fault where
deriving DecidableEq, Repr

/-- Why an input is refused: the model gives it no successor (R273). Each of these is safe: a run that would go on past
it is not claimed about (log 18). -/
inductive Refusal where
  /-- Raised by an arm of `exec` that has no meaning yet. No arm is left so. Safe. -/
  | notModelled (mnemonic : String)
  /-- Raised by `runInput`: the record is malformed or its opcode is unassigned (R90, R92). Safe. -/
  | malformedRecord (e : DecodeError)
  /-- Raised by `runInput`: an internal command the host may issue only in unit mode of its sub-block (R92), or
  FRX_BYTE outside a stand-alone FRX (R91; log 8). Safe. -/
  | notIssuableByHost (unit : SubBlock)
  /-- Raised by DL_ON_LINK: `type` is none of the five link codes (R185). Safe. -/
  | badLinkType (type : Byte)
  /-- Raised by TP_ON_EVENT: `event` > 2 (R232). Safe. -/
  | badEvent (event : Byte)
  /-- Raised by SEQ_PUSH: port_id > 63, or REASM_ENABLE[port_id] is false, so no sequencer exists (R250). Safe. -/
  | noSequencer (portId : Byte)
  /-- Raised by SEQ_PUSH: the port table's entry is EMPTY, so no handle exists (R250). Safe. -/
  | noHandle (portId : Byte)
  /-- Raised by SEQ_PUSH: `seq` does not fit the u2 operand, so no case of R250 applies (log 13). Safe. -/
  | badSeqTag (seq : Byte)
deriving DecidableEq, Repr

end Sys2Proof.Machine
end

