-- ==== Sys2Proof/Machine/Flags.lean ====
section
/-! DEFINITION. The flags of spec/10_state.md R44: FRX `sync`, DL `disc_reported`, SEQ `active`, and how the rules write
them. No command writes a flag beyond these (R44). -/

namespace Sys2Proof.Machine

/-- `desync()` (R121): counts and signals unless sync is already LOST, then sync is LOST. -/
def desync (f : Frx) : Frx × Option FrxEvent :=
  if f.sync = .lost then (f, none)
  else ({ f with resync := f.resync + 1, sync := .lost }, some .framingError)

/-- What a validated frame does to FRX: sync is SYNC, the buffer is empty, the search begins again (R127, R128). -/
def frameValidated (f : Frx) : Frx :=
  { f with sync := .sync, buf := [], rxState := .searchSof }

/-- What a failed CRC check does to FRX: the count, an empty buffer, a new search; sync is untouched (R127 to R129). -/
def crcFailed (f : Frx) : Frx :=
  { f with crcErrors := f.crcErrors + 1, buf := [], rxState := .searchSof }

/-- The flag after an acknowledgement that removed k entries (R198, R37). -/
def discAfterAck (k : Nat) (d : Bool) : Bool := if k > 0 then false else d

/-- Some frame was retransmitted more than MAX_RETRIES times: attempts − 1 > MAX_RETRIES (R193; log 16). -/
def retriesExceeded (maxRetries : Nat) (inflight : List InFlight) : Bool :=
  inflight.any (fun f => decide (f.attempts.toNat > maxRetries + 1))

/-- Abandoning or completing a message: not active, no bytes, no port data; the errors are kept (R250, R255, R256). -/
def Sequencer.clear (q : Sequencer) : Sequencer :=
  { q with active := false, abuf := [], apd := 0 }

/-- One sequence error (R250). -/
def Sequencer.countError (q : Sequencer) : Sequencer :=
  { q with seqErrors := q.seqErrors + 1 }

end Sys2Proof.Machine
end

