-- ==== Sys2Proof/Machine/Ops.lean ====
section
/-! DEFINITION. The named operations over the state: the beginning and the answer of a command, `raise Result`, TxPut and the
output channels, and the accessors of the port table, the sequencers and the registers. The block takes no exception (R277):
`raiseResult` is the one way a command ends early (spec/00_scope.md R9, spec/60_exceptions.md R270), and nothing is returned
from (R278). -/

namespace Sys2Proof.Machine

/-! ## Commands -/

/-- A command without a `now` operand begins: no value is returned yet. -/
def State.begin (s : State) : State := { s with ret := .none }

/-- A command with a `now` operand begins (R180); the operand becomes the default of R94 (log 4). -/
def State.beginAt (now : U32) (s : State) : State := { s with ret := .none, now := now }

/-- `return v` (R9). -/
def State.answer (v : Ret) (s : State) : State := { s with ret := v }

/-- `raise Result(code)`: the command returns the code at once, with no state change and no output (R9, R270). -/
def raiseResult (r : Result) (s : State) : State := s.answer (.result r)

/-- The numeric code of a result (R270). -/
def resultCode : Result → Nat
  | .ok => 0
  | .invalidParameter => 1
  | .tooBig => 2
  | .notEnoughMemory => 3

/-! ## Output channels -/

/-- `TxPut(bytes)` (R61): append to tx_out, and count the bytes. -/
def txPut (bytes : List Byte) (s : State) : State :=
  { s with
    txOut := s.txOut ++ bytes
    dl := { s.dl with txBytes := s.dl.txBytes + BitVec.ofNat 32 bytes.length } }

/-- `emit(FRX_OUT, e)` (R272). -/
def emitFrx (e : FrxEvent) (s : State) : State := { s with frxOut := s.frxOut ++ [e] }

/-- `emit(DL_UP, i)` (R272). -/
def emitUp (i : DlUpItem) (s : State) : State := { s with dlUp := s.dlUp ++ [i] }

/-- `emit(PORT_OUT, items)`, in order (R234, R272). -/
def emitPort (items : List PortItem) (s : State) : State := { s with portOut := s.portOut ++ items }

/-! ## The port table and the sequencers -/

/-- ports[p] (R41). -/
def State.port (s : State) (p : PortId) : PortEntry := s.ports[p.toNat]'p.isLt

/-- ports[p] ← e (R233). -/
def State.setPort (p : PortId) (e : PortEntry) (s : State) : State :=
  { s with ports := s.ports.set p.toNat e p.isLt }

/-- The sequencer of port p (R43). -/
def State.sequencer (s : State) (p : PortId) : Sequencer := s.seqs[p.toNat]'p.isLt

/-- Write the sequencer of port p. -/
def State.setSequencer (p : PortId) (q : Sequencer) (s : State) : State :=
  { s with seqs := s.seqs.set p.toNat q p.isLt }

/-- REASM_ENABLE[p] (R5). -/
def State.reasmEnabled (s : State) (p : PortId) : Bool := s.cfg.reasmEnable[p.toNat]'p.isLt

/-- REASM_MAX[p] (R5). -/
def State.reasmMax (s : State) (p : PortId) : Nat := (s.cfg.reasmMax[p.toNat]'p.isLt).toNat

/-- The ports 0..63, ascending (R10, R232). -/
def allPorts : List PortId := (List.range 64).map (BitVec.ofNat 6)

/-! ## Registers -/

/-- The ten status counters, in the order of registers 0x00 to 0x04 and 0x08 to 0x0C; three are hardwired to 0 (R38, R197). -/
def State.status (s : State) : List U32 :=
  [s.dl.txBytes, s.dl.txDataFrames, s.dl.txRetransmissions, 0, 0,
   s.dl.rxBytes, s.dl.rxDataFrames, 0, s.frx.crcErrors, s.frx.resync]

/-- The host's register view (R39): every register reads, none is written; an unassigned number is no register. -/
def State.readRegister (s : State) (number : Nat) : Option U32 :=
  match number with
  | 0x00 => some s.dl.txBytes
  | 0x01 => some s.dl.txDataFrames
  | 0x02 => some s.dl.txRetransmissions
  | 0x03 => some 0
  | 0x04 => some 0
  | 0x08 => some s.dl.rxBytes
  | 0x09 => some s.dl.rxDataFrames
  | 0x0A => some 0
  | 0x0B => some s.frx.crcErrors
  | 0x0C => some s.frx.resync
  | 0x10 => some s.cfg.txWindowSize
  | 0x11 => some s.cfg.txBufferSize
  | 0x12 => some s.cfg.rxWindowSize
  | 0x13 => some s.cfg.rxBufferSize
  | 0x14 => some s.cfg.txLinkBufferSize
  | 0x15 => some s.cfg.txTimeoutMs
  | _ => none

end Sys2Proof.Machine
end

