-- ==== Sys2Proof/Machine/SeqOps.lean ====
section
/-! DEFINITION. The segment reassembly sequencer's procedures (spec/45_reassembly.md R250, R255). -/

namespace Sys2Proof.Machine

/-- A MIDDLE or STOP segment's bytes joined to the message: an orphan and an overflow count an error (R250). The second
component is the message's bytes where the segment was joined. -/
def seqAppend (max : Nat) (payload : List Byte) (q : Sequencer) : Sequencer × Option (List Byte) :=
  if q.active then
    if q.abuf.length + payload.length > max then (q.clear.countError, none)
    else ({ q with abuf := q.abuf ++ payload }, some (q.abuf ++ payload))
  else (q.countError, none)

/-- One segment pushed to a sequencer whose REASM_MAX is `max` (R250): its new state, and the port data and bytes of the
message this completes. -/
def seqSegment (max : Nat) (tag : SeqTag) (portData : U16) (payload : List Byte) (q : Sequencer) :
    Sequencer × Option (U16 × List Byte) :=
  match tag with
  | .single => (if q.active then q.clear.countError else q, some (portData, payload))
  | .start =>
    let q := if q.active then q.clear.countError else q.clear
    if payload.length > max then (q.countError, none)
    else ({ q with active := true, abuf := payload, apd := portData }, none)
  | .middle => ((seqAppend max payload q).1, none)
  | .stop =>
    match seqAppend max payload q with
    | (q', none) => (q', none)
    | (q', some message) => (q'.clear, some (q.apd, message))

/-- SEQ_PUSH(p, seq, pd, payload) for a port registered with handle h (R250): PORT_MSG when a message is complete. -/
def seqPush (p : PortId) (h : U32) (tag : SeqTag) (portData : U16) (payload : List Byte) (s : State) : State :=
  let r := seqSegment (s.reasmMax p) tag portData payload (s.sequencer p)
  let s := s.setSequencer p r.1
  match r.2 with
  | none => s
  | some (pd, message) => emitPort [.msg p h pd message] s

/-- SEQ_RESET(p) (R255): nothing where the port has no sequencer; seq_errors is kept. -/
def seqReset (p : PortId) (s : State) : State :=
  if s.reasmEnabled p then s.setSequencer p (s.sequencer p).clear else s

/-- `for p in 0..63 with REASM_ENABLE[p]: SEQ_RESET(p)` (R232). -/
def seqResetAll (s : State) : State :=
  allPorts.foldl (fun s p => seqReset p s) s

end Sys2Proof.Machine
end

