-- ==== Sys2Proof/Machine/TpOps.lean ====
section
/-! DEFINITION. The transport demultiplexer's handlers (spec/44_transport.md R231, R232, R233). -/

namespace Sys2Proof.Machine

/-- TP_ON_RECV (R231): a delivery to an EMPTY port is dropped; PORT_RECV comes before any PORT_MSG (R276 (g)). -/
def tpOnRecv (metadata : U24) (payload : List Byte) (s : State) : State :=
  let p := metadataPort metadata
  match s.port p with
  | .empty => s
  | .reg h =>
    let s := emitPort [.recv p h (metadataSeq metadata) (metadataPortData metadata) payload] s
    if s.reasmEnabled p then seqPush p h (metadataSeq metadata) (metadataPortData metadata) payload s else s

/-- The PORT_EVENT a port gets: none while it is EMPTY (R232, R275). -/
def portEvent (ev : LinkEvent) (s : State) (p : PortId) : Option PortItem :=
  match s.port p with
  | .empty => none
  | .reg h => some (.event p h ev)

/-- TP_ON_EVENT (R232): on RESET the sequencers first, then PORT_EVENT to each registered port, ascending (R276 (f)). -/
def tpOnEvent (ev : LinkEvent) (s : State) : State :=
  let s := if ev = .reset then seqResetAll s else s
  emitPort (allPorts.filterMap (portEvent ev s)) s

/-- The effect of a TP_PORT_REGISTER whose operands are legal (R233): the last registration wins, and the port's
sequencer is reset. -/
def registerPort (p : PortId) (handle : U32) (s : State) : State :=
  seqReset p (s.setPort p (.reg handle))

end Sys2Proof.Machine
end

