-- ==== Sys2Proof/Machine/DlOps.lean ====
section
/-! DEFINITION. The data-link ARQ engine's procedures and handlers (spec/43_data_link.md). -/

namespace Sys2Proof.Machine

/-! ## Upward -/

/-- `upward RECV(meta, pl)` (R9): DL_UP in unit mode of DL, else TP_ON_RECV (R272). -/
def upwardRecv (metadata : U24) (payload : List Byte) (s : State) : State :=
  if s.mode = .unit .dl then emitUp (.recv metadata payload) s else tpOnRecv metadata payload s

/-- `upward event E` (R9): DL_UP in unit mode of DL, else TP_ON_EVENT (R272). -/
def upwardEvent (ev : LinkEvent) (s : State) : State :=
  if s.mode = .unit .dl then emitUp (.event ev) s else tpOnEvent ev s

/-! ## Shared procedures -/

/-- `send_link(t, fid)` (R181). -/
def sendLink (t : LinkType) (fid : Fid) (s : State) : State :=
  txPut (linkFrame s.cfg.sof 0 t fid) s

/-- `ack_remove(pred)` (R198): the entries for which it holds leave the list, counted; any removal clears
disc_reported. -/
def ackRemove (acked : InFlight → Bool) (s : State) : State :=
  let k := (s.dl.inflight.filter acked).length
  { s with
    dl := { s.dl with
      inflight := s.dl.inflight.filter (fun f => !acked f)
      txDataFrames := s.dl.txDataFrames + BitVec.ofNat 32 k
      discReported := discAfterAck k s.dl.discReported } }

/-- An entry after one retransmission at `now` (R191). -/
def InFlight.resent (now : U32) (f : InFlight) : InFlight :=
  { f with attempts := f.attempts + 1, tSent := now }

/-- The bytes and the count of one retransmission (R191). -/
def putAgain (s : State) (f : InFlight) : State :=
  let s := txPut f.frame s
  { s with dl := { s.dl with txRetransmissions := s.dl.txRetransmissions + 1 } }

/-- `retransmit(f, now)` (R191) for each in-flight entry that is due, in list order (R188, R192): the frames go out
verbatim, and the entries are stamped. -/
def retransmitWhere (due : InFlight → Bool) (now : U32) (s : State) : State :=
  let s' := (s.dl.inflight.filter due).foldl putAgain s
  { s' with
    dl := { s'.dl with inflight := s.dl.inflight.map (fun f => if due f then f.resent now else f) } }

/-- `retry_check()` (R193): DISCONNECTED once, until an acknowledgement. -/
def retryCheck (s : State) : State :=
  if !s.dl.discReported && retriesExceeded s.cfg.maxRetries s.dl.inflight then
    upwardEvent .disconnected { s with dl := { s.dl with discReported := true } }
  else s

/-- `link_reset(send)` (R196, R190): clear, then the RESET frame where `send`, then the RESET event (R276 (e)).
FRX keeps its state but for its two counters. -/
def linkReset (send : Bool) (s : State) : State :=
  let s := { s with dl := Dl.reset, frx := { s.frx with crcErrors := 0, resync := 0 } }
  let s := if send then sendLink .reset 0 s else s
  upwardEvent .reset s

/-! ## Frame handlers -/

/-- DL_ON_FRAME (R184): accept exactly the expected id, else NACK_FRAME_ID with the expected id. -/
def onFrame (fid : U16) (metadata : U24) (payload : List Byte) (s : State) : State :=
  if fid.toNat = s.dl.rxFrameId.toNat then
    let accepted := s.dl.rxFrameId
    let s := { s with dl := { s.dl with rxDataFrames := s.dl.rxDataFrames + 1 } }
    let s := upwardRecv metadata payload s
    let s := { s with dl := { s.dl with rxFrameId := fidInc accepted.toNat } }
    sendLink .ackAll accepted s
  else sendLink .nackFrameId s.dl.rxFrameId s

/-- ACK_ALL received (R186): cumulative, inclusive. -/
def onAckAll (fid : U16) (s : State) : State :=
  ackRemove (fun f => decide (fidSub f.fid.toNat fid.toNat ≤ 0)) s

/-- ACK_ONE received (R187). -/
def onAckOne (fid : U16) (s : State) : State :=
  ackRemove (fun f => decide (f.fid.toNat = fid.toNat)) s

/-- The NACK steps (R188): acknowledge what lies before fid, re-send everything that remains, check the retries. -/
def goBack (now : U32) (fid : U16) (s : State) : State :=
  retryCheck (retransmitWhere (fun _ => true) now
    (ackRemove (fun f => decide (fidSub f.fid.toNat fid.toNat < 0)) s))

/-- NACK_FRAME_ID received (R188). -/
def onNackFrameId (now : U32) (fid : U16) (s : State) : State := goBack now fid s

/-- NACK_FRAMING_ERROR received (R189): as R188. -/
def onNackFramingError (now : U32) (fid : U16) (s : State) : State := goBack now fid s

/-- RESET received (R190): the link reset, without a RESET frame back; the id is ignored. -/
def onReset (s : State) : State := linkReset false s

/-- DL_ON_LINK (R185): dispatch by type. -/
def onLink (now : U32) (t : LinkType) (fid : U16) (s : State) : State :=
  match t with
  | .ackAll => onAckAll fid s
  | .ackOne => onAckOne fid s
  | .nackFrameId => onNackFrameId now fid s
  | .nackFramingError => onNackFramingError now fid s
  | .reset => onReset s

/-- DL_ON_FRAMING_ERROR (R195). -/
def onFramingError (s : State) : State := sendLink .nackFramingError s.dl.rxFrameId s

/-- An FRX event runs its DL handler (R183). -/
def onFrxEvent (now : U32) (e : FrxEvent) (s : State) : State :=
  match e with
  | .framingError => onFramingError s
  | .link t fid => onLink now t (fid.setWidth 16) s
  | .frame fid metadata payload => onFrame (fid.setWidth 16) metadata payload s

/-! ## DL_SEND -/

/-- The encoded bytes of the in-flight frames (R33, R182). -/
def bufferedBytes (inflight : List InFlight) : Nat := (inflight.map (fun f => f.frame.length)).sum

/-- The checks of DL_SEND, in their order (R182, R276 (h)). The metadata check cannot fail: the operand is a u24 (R93). -/
def sendCheck (payload : List Byte) (s : State) : Result :=
  if payload.length > maxPayload then .tooBig
  else if payload.length = 0 then .invalidParameter
  else if s.dl.inflight.length ≥ s.cfg.txWindowSize.toNat then .notEnoughMemory
  else if bufferedBytes s.dl.inflight + (frameOverhead + payload.length) > s.cfg.txBufferSize.toNat then .notEnoughMemory
  else .ok

/-- The effect of a DL_SEND that passes its checks (R182): the frame is appended to the list and put, and the id
advances. -/
def sendFrame (now : U32) (metadata : U24) (payload : List Byte) (s : State) : State :=
  let fid := s.dl.txFrameId
  let frame := dataFrame s.cfg.sof 0 fid metadata payload
  let s := { s with
    dl := { s.dl with inflight := s.dl.inflight ++ [{ fid := fid, frame := frame, tSent := now, attempts := 1 }] } }
  let s := txPut frame s
  { s with dl := { s.dl with txFrameId := fidInc fid.toNat } }

/-- DL_SEND (R182), answering its result. -/
def dlSend (now : U32) (metadata : U24) (payload : List Byte) (s : State) : State :=
  match sendCheck payload s with
  | .ok => (sendFrame now metadata payload s).answer (.result .ok)
  | r => raiseResult r s

/-! ## Time -/

/-- A frame is due once more than tx_timeout_ms have passed (R192). -/
def isDue (timeout now : U32) (f : InFlight) : Bool := decide (elapsed now f.tSent > timeout)

/-- DL_PROCESS (R192). -/
def processTimeouts (now : U32) (s : State) : State :=
  retryCheck (retransmitWhere (isDue s.cfg.txTimeoutMs now) now s)

/-- The wait until an entry is due, mod 2^32 (R194, R281; log 15). -/
def waitFor (timeout now : U32) (f : InFlight) : U32 :=
  if elapsed now f.tSent > timeout then 0 else timeout - elapsed now f.tSent + 1

/-- The lesser of two unsigned values. -/
def leastOf (a b : U32) : U32 := if a ≤ b then a else b

/-- DL_SERVICE_INTERVAL's value (R194). -/
def serviceInterval (now : U32) (s : State) : U32 :=
  match s.dl.inflight with
  | [] => s.cfg.txTimeoutMs
  | f :: rest => rest.foldl (fun w g => leastOf w (waitFor s.cfg.txTimeoutMs now g)) (waitFor s.cfg.txTimeoutMs now f)

end Sys2Proof.Machine
end

