-- ==== Sys2Proof/Machine/FrxOps.lean ====
section
/-! DEFINITION. The receive framer: one step per byte, the replay loop, and the reception of a byte sequence
(spec/40_framer_rx.md R121 to R130, spec/43_data_link.md R183). -/

namespace Sys2Proof.Machine

/-- What one step of FRX gives (R122 to R128): its new state, the event it emits, the bytes to replay (R129). -/
structure FrxStep where
  frx : Frx
  event : Option FrxEvent := none
  replay : List Byte := []
deriving DecidableEq, Repr

/-- A step that ends in `desync()` (R121). -/
def desyncStep (f : Frx) : FrxStep := { frx := (desync f).1, event := (desync f).2 }

/-- SEARCH_SOF (R122). -/
def stepSearchSof (sof b : Byte) (f : Frx) : FrxStep :=
  if b = sof then { frx := { f with buf := [b], rxState := .searchSof2 } } else desyncStep f

/-- SEARCH_SOF2 (R123). -/
def stepSearchSof2 (sof b : Byte) (f : Frx) : FrxStep :=
  if b = sof then { frx := { f with buf := f.buf.take 1 ++ [b], rxState := .searchFrameType } }
  else desyncStep { f with buf := [], rxState := .searchSof }

/-- SEARCH_FRAME_TYPE (R124): a SOF is filler; an invalid type desyncs. -/
def stepSearchFrameType (sof b : Byte) (f : Frx) : FrxStep :=
  if b = sof then { frx := f }
  else
    match kind b with
    | .invalid => desyncStep { f with buf := [], rxState := .searchSof }
    | .data => { frx := { f with buf := f.buf.take 2 ++ [b], rxState := .storeHeader } }
    | .link _ => { frx := { f with buf := f.buf.take 2 ++ [b], rxState := .storeHeader } }

/-- STORE_HEADER complete, link frame (R127). -/
def checkLink (t : LinkType) (f : Frx) : FrxStep :=
  if crc32 (slice f.buf 2 3) = fromLe32 (byteAt f.buf 4) (byteAt f.buf 5) (byteAt f.buf 6) (byteAt f.buf 7) then
    { frx := frameValidated f, event := some (.link t (unpackFid (byteAt f.buf 2) (byteAt f.buf 3))) }
  else { frx := crcFailed f, replay := slice f.buf 1 7 }

/-- STORE_HEADER (R125), with R126 and R127 once the eighth byte is stored. The byte in the type position was found
valid by R124, so the invalid case does not arise; no rule gives it an effect. -/
def stepStoreHeader (b : Byte) (f : Frx) : FrxStep :=
  let f := { f with buf := f.buf ++ [b] }
  if f.len < headerLen then { frx := f }
  else
    match kind (byteAt f.buf 2) with
    | .data => { frx := { f with expected := frameOverhead + ((byteAt f.buf 3).toNat + 1), rxState := .storeRemainder } }
    | .link t => checkLink t f
    | .invalid => { frx := f }

/-- STORE_REMAINDER complete (R128). -/
def checkData (f : Frx) : FrxStep :=
  let l := f.expected - frameOverhead
  if crc32 (slice f.buf 2 (7 + l)) =
      fromLe32 (byteAt f.buf (8 + l)) (byteAt f.buf (9 + l)) (byteAt f.buf (10 + l)) (byteAt f.buf (11 + l)) then
    { frx := frameValidated f
      event := some (.frame (unpackFid (byteAt f.buf 2) (byteAt f.buf 4))
        (fromLe24 (byteAt f.buf 5) (byteAt f.buf 6) (byteAt f.buf 7)) (slice f.buf 8 (7 + l))) }
  else { frx := crcFailed f, replay := slice f.buf 1 (f.expected - 1) }

/-- STORE_REMAINDER (R128). -/
def stepStoreRemainder (b : Byte) (f : Frx) : FrxStep :=
  let f := { f with buf := f.buf ++ [b] }
  if f.len < f.expected then { frx := f } else checkData f

/-- `step(b)`: the transition the state selects (R122 to R128). -/
def frxStep (sof b : Byte) (f : Frx) : FrxStep :=
  match f.rxState with
  | .searchSof => stepSearchSof sof b f
  | .searchSof2 => stepSearchSof2 sof b f
  | .searchFrameType => stepSearchFrameType sof b f
  | .storeHeader => stepStoreHeader b f
  | .storeRemainder => stepStoreRemainder b f

/-- Where FRX's events go (R130): to FRX_OUT, or to the DL handlers at the time given (R183). -/
inductive FrxSink where
  | out
  | dl (now : U32)
deriving DecidableEq, Repr

/-- An event goes where it belongs, at the moment it is emitted (R183, R276 (a)). -/
def deliverFrx (sink : FrxSink) (e : Option FrxEvent) (s : State) : State :=
  match e with
  | none => s
  | some e =>
    match sink with
    | .out => emitFrx e s
    | .dl now => onFrxEvent now e s

/-- The loop of R130 over the byte queue: a step's replay goes before the bytes not yet consumed (R129). The number
bounds the steps; `frxFuel` is always enough (log 11). -/
def frxLoop (sink : FrxSink) : Nat → List Byte → State → State
  | 0, _, s => s
  | _ + 1, [], s => s
  | n + 1, x :: q, s =>
    let r := frxStep s.cfg.sof x s.frx
    frxLoop sink n (r.replay ++ q) (deliverFrx sink r.event { s with frx := r.frx })

/-- A bound on the steps a queue of `queued` bytes takes on a buffer of `len` bytes: a step keeps the number t of bytes
held and queued while it shortens the queue, or lowers t (log 11; the finer count is R129's). -/
def frxFuel (len queued : Nat) : Nat := (len + queued) * (len + queued + 1) + queued

/-- FRX_BYTE(b) (R130). -/
def frxByte (sink : FrxSink) (b : Byte) (s : State) : State :=
  frxLoop sink (frxFuel s.frx.len 1) [b] s

/-- FRX_RESET (R131): the counters are kept, and no event is emitted. -/
def frxReset (s : State) : State :=
  { s with frx := { s.frx with rxState := .searchSof, buf := [], expected := 0, sync := .init } }

/-- One byte of DL_LL_RECV: counted first, then given to FRX (R183, R276 (a)). -/
def recvByte (now : U32) (s : State) (b : Byte) : State :=
  frxByte (.dl now) b { s with dl := { s.dl with rxBytes := s.dl.rxBytes + 1 } }

/-- DL_LL_RECV's loop (R183). -/
def recvBytes (now : U32) (bytes : List Byte) (s : State) : State := bytes.foldl (recvByte now) s

/-- FRX_FEED: one FRX_BYTE per byte to a stand-alone FRX (R95). -/
def feedBytes (bytes : List Byte) (s : State) : State := bytes.foldl (fun s b => frxByte .out b s) s

/-- Bytes the wire delivers (R62): to a stand-alone FRX as FRX_BYTE commands, else to DL as DL_LL_RECV at the host's
current `now` (log 9). -/
def receiveWire (bytes : List Byte) (s : State) : State :=
  if s.mode = .unit .frx then feedBytes bytes s else recvBytes s.now bytes s

end Sys2Proof.Machine
end

