-- ==== Sys2Proof/Machine/Dl.lean ====
section
/-! DEFINITION. The meanings of the DL commands (spec/43_data_link.md). The internal ones act the same whoever issues them
(spec/30_encoding.md R92); who may is `runInput`'s business. -/

namespace Sys2Proof.Machine

/-- DL_SEND (R182). -/
def execDlSend (now : U32) (metadata : U24) (payload : List Byte) (s : State) : Host.Outcome State Fault Refusal :=
  .next (dlSend now metadata payload (s.beginAt now))

/-- DL_LL_RECV (R183): no byte sequence makes it fail. -/
def execDlLlRecv (now : U32) (bytes : List Byte) (s : State) : Host.Outcome State Fault Refusal :=
  .next (recvBytes now bytes (s.beginAt now))

/-- DL_PROCESS (R192). -/
def execDlProcess (now : U32) (s : State) : Host.Outcome State Fault Refusal :=
  .next (processTimeouts now (s.beginAt now))

/-- DL_SERVICE_INTERVAL (R194). -/
def execDlServiceInterval (now : U32) (s : State) : Host.Outcome State Fault Refusal :=
  .next ((s.beginAt now).answer (.millis (serviceInterval now s)))

/-- DL_RESET (R196). -/
def execDlReset (now : U32) (s : State) : Host.Outcome State Fault Refusal :=
  .next (linkReset true (s.beginAt now))

/-- DL_STATUS (R197). -/
def execDlStatus (s : State) : Host.Outcome State Fault Refusal :=
  .next (s.begin.answer (.status s.status))

/-- DL_ON_FRAME (R184). A frame_id above 2047 equals no expected id (log 12). -/
def execDlOnFrame (now : U32) (frameId : U16) (metadata : U24) (payload : List Byte) (s : State) :
    Host.Outcome State Fault Refusal :=
  .next (onFrame frameId metadata payload (s.beginAt now))

/-- DL_ON_LINK (R185): a type outside the five link codes is refused. -/
def execDlOnLink (now : U32) (type : Byte) (frameId : U16) (s : State) : Host.Outcome State Fault Refusal :=
  match linkTypeOfByte type with
  | some t => .next (onLink now t frameId (s.beginAt now))
  | none => .refused (.badLinkType type)

/-- DL_ON_FRAMING_ERROR (R195). -/
def execDlOnFramingError (now : U32) (s : State) : Host.Outcome State Fault Refusal :=
  .next (onFramingError (s.beginAt now))

end Sys2Proof.Machine
end

