-- ==== Sys2Proof/Machine/Fid.lean ====
section
/-! DEFINITION. The frame-id commands (spec/42_frame_id.md R170, R171): pure functions of their operands (R31). -/

namespace Sys2Proof.Machine

/-- FID_SUB (R170). -/
def execFidSub (a b : U16) (s : State) : Host.Outcome State Fault Refusal :=
  .next (s.begin.answer (.distance (fidSub a.toNat b.toNat)))

/-- FID_INC (R171). -/
def execFidInc (a : U16) (s : State) : Host.Outcome State Fault Refusal :=
  .next (s.begin.answer (.frameId (fidInc a.toNat)))

end Sys2Proof.Machine
end

