-- ==== Sys2Proof/Machine/Frx.lean ====
section
/-! DEFINITION. The meanings of the FRX commands (spec/40_framer_rx.md R130, R131). -/

namespace Sys2Proof.Machine

/-- Where FRX_BYTE's events go: FRX_OUT for a stand-alone FRX, else the DL handlers (R130, R272). FRX_BYTE has no `now`
operand, so the handlers get the default of R94; the host cannot issue it there (R91; log 8). -/
def frxSink (s : State) : FrxSink := if s.mode = .unit .frx then .out else .dl s.now

/-- FRX_BYTE (R130): no return value, no failure. -/
def execFrxByte (b : Byte) (s : State) : Host.Outcome State Fault Refusal :=
  .next (frxByte (frxSink s) b s.begin)

/-- FRX_RESET (R131). -/
def execFrxReset (s : State) : Host.Outcome State Fault Refusal :=
  .next (frxReset s.begin)

end Sys2Proof.Machine
end

