-- ==== Sys2Proof/Machine/Ftx.lean ====
section
/-! DEFINITION. The frame constructors (spec/41_framer_tx.md R160, R161): pure functions of their operands (R30). -/

namespace Sys2Proof.Machine

/-- FTX_DATA's bytes; none where an operand is out of range (R160). The metadata check cannot fail: the operand is a
u24 (R93). -/
def ftxData (sof : Byte) (frameId : U16) (metadata : U24) (payload : List Byte) : Option (List Byte) :=
  if payload.length = 0 ∨ payload.length > maxPayload then none
  else
    match fidOfU16 frameId with
    | none => none
    | some fid => some (dataFrame sof 0 fid metadata payload)

/-- FTX_LINK's bytes; none where the type is no link code or the id is out of range (R161). -/
def ftxLink (sof : Byte) (type : Byte) (frameId : U16) : Option (List Byte) :=
  match linkTypeOfByte type, fidOfU16 frameId with
  | some t, some fid => some (linkFrame sof 0 t fid)
  | _, _ => none

/-- A constructor's answer: OK and the bytes, or INVALID_PARAMETER and none (R160, R161). -/
def answerFrame (bytes : Option (List Byte)) (s : State) : State :=
  match bytes with
  | some bs => s.answer (.frame bs)
  | none => raiseResult .invalidParameter s

/-- FTX_DATA (R160). -/
def execFtxData (frameId : U16) (metadata : U24) (payload : List Byte) (s : State) : Host.Outcome State Fault Refusal :=
  .next (answerFrame (ftxData s.cfg.sof frameId metadata payload) s.begin)

/-- FTX_LINK (R161). -/
def execFtxLink (type : Byte) (frameId : U16) (s : State) : Host.Outcome State Fault Refusal :=
  .next (answerFrame (ftxLink s.cfg.sof type frameId) s.begin)

end Sys2Proof.Machine
end

