-- ==== Sys2Proof/Machine/Seq.lean ====
section
/-! DEFINITION. The meanings of the SEQ commands (spec/45_reassembly.md). -/

namespace Sys2Proof.Machine

/-- SEQ_PUSH (R250). Refused where no sequencer or no handle exists for the port, and where `seq` is no segment tag
(log 13). -/
def execSeqPush (portId seq : Byte) (portData : U16) (payload : List Byte) (s : State) :
    Host.Outcome State Fault Refusal :=
  match portOfByte portId with
  | none => .refused (.noSequencer portId)
  | some p =>
    if s.reasmEnabled p then
      match s.port p, seqTagOfByte seq with
      | .empty, _ => .refused (.noHandle portId)
      | .reg _, none => .refused (.badSeqTag seq)
      | .reg h, some tag => .next (seqPush p h tag portData payload s.begin)
    else .refused (.noSequencer portId)

/-- SEQ_RESET (R255): nothing to do where the port has no sequencer. -/
def execSeqReset (portId : Byte) (s : State) : Host.Outcome State Fault Refusal :=
  match portOfByte portId with
  | none => .next s.begin
  | some p => .next (seqReset p s.begin)

end Sys2Proof.Machine
end

