-- ==== Sys2Proof/Machine/Tp.lean ====
section
/-! DEFINITION. The meanings of the TP commands (spec/44_transport.md). -/

namespace Sys2Proof.Machine

/-- TP_SEND (R230): pack the metadata and return DL_SEND's result unchanged. -/
def execTpSend (now : U32) (portId seq : Byte) (portData : U16) (payload : List Byte) (s : State) :
    Host.Outcome State Fault Refusal :=
  match portOfByte portId, seqTagOfByte seq with
  | some p, some tag => .next (dlSend now (packMetadata p tag portData) payload (s.beginAt now))
  | _, _ => .next (raiseResult .invalidParameter (s.beginAt now))

/-- TP_PORT_REGISTER (R233). -/
def execTpPortRegister (portId : Byte) (handle : U32) (s : State) : Host.Outcome State Fault Refusal :=
  match portOfByte portId with
  | none => .next (raiseResult .invalidParameter s.begin)
  | some p =>
    if handle = 0 then .next (raiseResult .invalidParameter s.begin)
    else .next ((registerPort p handle s.begin).answer (.result .ok))

/-- TP_ON_RECV (R231). -/
def execTpOnRecv (metadata : U24) (payload : List Byte) (s : State) : Host.Outcome State Fault Refusal :=
  .next (tpOnRecv metadata payload s.begin)

/-- TP_ON_EVENT (R232): an event above 2 is refused. -/
def execTpOnEvent (event : Byte) (s : State) : Host.Outcome State Fault Refusal :=
  match linkEventOfByte event with
  | some ev => .next (tpOnEvent ev s.begin)
  | none => .refused (.badEvent event)

end Sys2Proof.Machine
end

