-- ==== Sys2Proof/Machine/Wire.lean ====
section
/-! DEFINITION. The meanings of the wire frames (spec/30_encoding.md R80, R81): what the block does when the wire delivers the
frame's bytes, reserved bits as sent. FRX takes them byte by byte (spec/40_framer_rx.md), so a frame that arrives while
FRX searches runs its handler (R184, R186 to R190), and one that arrives inside a partial frame is taken into that one (log 9). -/

namespace Sys2Proof.Machine

/-- The bytes of a frame received (R62, R183). -/
def receiveFrame (i : Instr) (s : State) : State := receiveWire (encodeWith s.cfg.sof i) s.begin

/-- A DATA frame arrives (R128, then R184). -/
def execWireData (rsv : BitVec 2) (fid : Fid) (metadata : U24) (payload : List Byte) (s : State) :
    Host.Outcome State Fault Refusal :=
  .next (receiveFrame (.wireData rsv fid metadata payload) s)

/-- An ACK_ALL frame arrives (R127, then R186). -/
def execWireAckAll (rsv : BitVec 2) (fid : Fid) (s : State) : Host.Outcome State Fault Refusal :=
  .next (receiveFrame (.wireAckAll rsv fid) s)

/-- An ACK_ONE frame arrives (R127, then R187). -/
def execWireAckOne (rsv : BitVec 2) (fid : Fid) (s : State) : Host.Outcome State Fault Refusal :=
  .next (receiveFrame (.wireAckOne rsv fid) s)

/-- A NACK_FRAME_ID frame arrives (R127, then R188). -/
def execWireNackFrameId (rsv : BitVec 2) (fid : Fid) (s : State) : Host.Outcome State Fault Refusal :=
  .next (receiveFrame (.wireNackFrameId rsv fid) s)

/-- A NACK_FRAMING_ERROR frame arrives (R127, then R189). -/
def execWireNackFramingError (rsv : BitVec 2) (fid : Fid) (s : State) : Host.Outcome State Fault Refusal :=
  .next (receiveFrame (.wireNackFramingError rsv fid) s)

/-- A RESET frame arrives (R127, then R190). -/
def execWireReset (rsv : BitVec 2) (fid : Fid) (s : State) : Host.Outcome State Fault Refusal :=
  .next (receiveFrame (.wireReset rsv fid) s)

end Sys2Proof.Machine
end

