-- ==== Sys2Proof/Machine/Dispatch.lean ====
section
/-! DEFINITION. One arm per constructor of `Instr`, each one direct call of its meaning. -/

namespace Sys2Proof.Machine

/-- The effect of an instruction on a state. -/
def exec (i : Instr) (s : State) : Host.Outcome State Fault Refusal :=
  match i with
  | .frxByte b => Sys2Proof.Machine.execFrxByte b s
  | .frxReset => Sys2Proof.Machine.execFrxReset s
  | .ftxData frameId metadata payload => Sys2Proof.Machine.execFtxData frameId metadata payload s
  | .ftxLink type frameId => Sys2Proof.Machine.execFtxLink type frameId s
  | .fidSub a b => Sys2Proof.Machine.execFidSub a b s
  | .fidInc a => Sys2Proof.Machine.execFidInc a s
  | .dlSend now metadata payload => Sys2Proof.Machine.execDlSend now metadata payload s
  | .dlLlRecv now bytes => Sys2Proof.Machine.execDlLlRecv now bytes s
  | .dlProcess now => Sys2Proof.Machine.execDlProcess now s
  | .dlServiceInterval now => Sys2Proof.Machine.execDlServiceInterval now s
  | .dlReset now => Sys2Proof.Machine.execDlReset now s
  | .dlStatus => Sys2Proof.Machine.execDlStatus s
  | .dlOnFrame now frameId metadata payload => Sys2Proof.Machine.execDlOnFrame now frameId metadata payload s
  | .dlOnLink now type frameId => Sys2Proof.Machine.execDlOnLink now type frameId s
  | .dlOnFramingError now => Sys2Proof.Machine.execDlOnFramingError now s
  | .tpSend now portId seq portData payload => Sys2Proof.Machine.execTpSend now portId seq portData payload s
  | .tpPortRegister portId handle => Sys2Proof.Machine.execTpPortRegister portId handle s
  | .tpOnRecv metadata payload => Sys2Proof.Machine.execTpOnRecv metadata payload s
  | .tpOnEvent event => Sys2Proof.Machine.execTpOnEvent event s
  | .seqPush portId seq portData payload => Sys2Proof.Machine.execSeqPush portId seq portData payload s
  | .seqReset portId => Sys2Proof.Machine.execSeqReset portId s
  | .wireData rsv frameId metadata payload => Sys2Proof.Machine.execWireData rsv frameId metadata payload s
  | .wireAckAll rsv frameId => Sys2Proof.Machine.execWireAckAll rsv frameId s
  | .wireAckOne rsv frameId => Sys2Proof.Machine.execWireAckOne rsv frameId s
  | .wireNackFrameId rsv frameId => Sys2Proof.Machine.execWireNackFrameId rsv frameId s
  | .wireNackFramingError rsv frameId => Sys2Proof.Machine.execWireNackFramingError rsv frameId s
  | .wireReset rsv frameId => Sys2Proof.Machine.execWireReset rsv frameId s

end Sys2Proof.Machine
end

