-- ==== Sys2Proof/Machine/Fetch.lean ====
section
/-! DEFINITION. How an input of the host becomes a step: who may issue a record, decoding, and the placing of a record at the
head of the inbox (spec/30_encoding.md R90 to R92, spec/60_exceptions.md R273; log 1). -/

namespace Sys2Proof.Machine

/-- The sub-block in whose unit mode alone the host may issue the command: the internal commands of R92, and FRX_BYTE, which
R91 gives to a stand-alone FRX only (log 8). -/
def unitOnly : Instr → Option SubBlock
  | .frxByte _ => some .frx
  | .dlOnFrame _ _ _ _ | .dlOnLink _ _ _ | .dlOnFramingError _ => some .dl
  | .tpOnRecv _ _ | .tpOnEvent _ => some .tp
  | .seqPush _ _ _ _ => some .seq
  | .frxReset | .ftxData _ _ _ | .ftxLink _ _ | .fidSub _ _ | .fidInc _ | .dlSend _ _ _ | .dlLlRecv _ _ | .dlProcess _
  | .dlServiceInterval _ | .dlReset _ | .dlStatus | .tpSend _ _ _ _ _ | .tpPortRegister _ _ | .seqReset _
  | .wireData _ _ _ _ | .wireAckAll _ _ | .wireAckOne _ _ | .wireNackFrameId _ _ | .wireNackFramingError _ _
  | .wireReset _ _ => none

/-- Why the host may not issue the command in this mode, if so (R92, R279). -/
def notIssuable (mode : Mode) (i : Instr) : Option Refusal :=
  match unitOnly i with
  | none => none
  | some b => if mode = .unit b then none else some (.notIssuableByHost b)

/-- A command record: refused before any rule runs where it is malformed or not the host's to issue (R273), else its
instruction's effect. -/
def runRecord (record : List Byte) (s : State) : Host.Outcome State Fault Refusal :=
  match decodeRecord record with
  | .error e => .refused (.malformedRecord e)
  | .ok i =>
    match notIssuable s.mode i with
    | some r => .refused r
    | none => exec i s

/-- Bytes the wire delivers: a whole frame runs as its instruction, and any other bytes are received as they are, since
nothing on the wire is refused (R62; log 9). -/
def runWire (bytes : List Byte) (s : State) : Host.Outcome State Fault Refusal :=
  match decodeWire s.cfg.sof bytes with
  | .ok i => exec i s
  | .error _ => .next (receiveWire bytes s.begin)

/-- One input, already taken from the inbox. -/
def runInput (input : Input) (s : State) : Host.Outcome State Fault Refusal :=
  match input with
  | .command record => runRecord record s
  | .wire bytes => runWire bytes s

/-- The next input and the inbox after it; none while the host has issued nothing more (R10). -/
def takeInput (s : State) : Option (Input × State) :=
  match s.inbox with
  | [] => none
  | input :: rest => some (input, { s with inbox := rest })

/-- The host issues an input: it waits behind those issued before it (R67). -/
def State.issue (input : Input) (s : State) : State := { s with inbox := s.inbox ++ [input] }

/-- The mode in which the host may issue the instruction: the present one, or the unit mode it needs (R92). -/
def issuingMode (i : Instr) (mode : Mode) : Mode :=
  match unitOnly i with
  | none => mode
  | some b => .unit b

/-- An instruction placed where the next step takes its input: its record, or, for a wire frame, the frame's bytes with
this block's SOF. An internal command also selects the unit mode in which the host may issue it (log 1). -/
def State.placeInstr (i : Instr) (s : State) : State :=
  { s with
    mode := issuingMode i s.mode
    inbox := (if i.isWire then .wire (encodeWith s.cfg.sof i) else .command (encode i)) :: s.inbox }

/-- A table word placed where the next step takes its input. A word no instruction is read from stands there as its raw
bytes. -/
def State.placeWord (s : State) (nbits w : Nat) : State :=
  match decodeTableWord nbits w with
  | some i => s.placeInstr i
  | none => { s with inbox := .command (tableBytes ((nbits + 7) / 8) w) :: s.inbox }

end Sys2Proof.Machine
end

