-- ==== Sys2Proof/Machine/Step.lean ====
section
/-! DEFINITION. One step of the machine. -/

namespace Sys2Proof.Machine

/-- One step: the next input of the inbox, run whole (spec/00_scope.md R10). With no input pending the block holds its
state (spec/60_exceptions.md R284; log 2). -/
def step (s : State) : Host.Outcome State Fault Refusal :=
  match takeInput s with
  | none => .next s
  | some (input, s') => runInput input s'

/-- The state with the instruction of a table word where the next step takes its input. -/
def State.withFetchWord (s : State) (nbits w : Nat) : State := s.placeWord nbits w

end Sys2Proof.Machine
end

