-- ==== Sys2Proof/Machine/Pseudo.lean ====
section
/-! DEFINITION. The host's side of spec/30_encoding.md R95 and spec/60_exceptions.md R285, R287: several instances, the
pseudo-commands WIRE, DRAIN, FRX_FEED and TP_SEND_MSG, and the line between two instances. None is a row of the opcode table. -/

namespace Sys2Proof.Machine

/-! ## The output sink and the line -/

/-- The host takes the first n bytes of tx_out (R61, R317). -/
def State.takeTx (n : Nat) (s : State) : State := { s with txOut := s.txOut.drop n }

/-- DRAIN: all bytes of tx_out are lost on the wire; no block state is touched (R95). -/
def State.drain (s : State) : State := { s with txOut := [] }

/-- `edit=<i>^<mask>`: byte i of the forwarded bytes is XORed with the mask (R95). DESIGN CHOICE (log 29): R95 does not say what an i
at or past the number of forwarded bytes does, and here it leaves them unchanged. -/
def editBytes (edit : Option (Nat × Byte)) (bytes : List Byte) : List Byte :=
  match edit with
  | none => bytes
  | some (i, mask) => bytes.set i (byteAt bytes i ^^^ mask)

/-- The command WIRE expands to, from the sender's tx_out (R95). -/
def wireCommand (now : U32) (edit : Option (Nat × Byte)) (sender : State) : Instr :=
  .dlLlRecv now (editBytes edit sender.txOut)

/-- FRX_FEED: one FRX_BYTE per byte, in order (R95). -/
def frxFeed (bytes : List Byte) : List Instr := bytes.map .frxByte

/-! ## TP_SEND_MSG -/

/-- A payload cut into chunks of c bytes, the last one possibly shorter; the fuel is the payload's length. -/
def chunksOf (c : Nat) : Nat → List Byte → List (List Byte)
  | 0, _ => []
  | fuel + 1, bytes => if bytes = [] then [] else bytes.take c :: chunksOf c fuel (bytes.drop c)

/-- The segments of a message that is under way: MIDDLE for all but the last, STOP for the last (R95). -/
def laterSegments : List (List Byte) → List (SeqTag × List Byte)
  | [] => []
  | [last] => [(.stop, last)]
  | c :: rest => (.middle, c) :: laterSegments rest

/-- The tagged segments of a message: SINGLE where one chunk is enough, else START, MIDDLE..., STOP (R95). -/
def segments (chunks : List (List Byte)) : List (SeqTag × List Byte) :=
  match chunks with
  | [] => []
  | [only] => [(.single, only)]
  | first :: rest => (.start, first) :: laterSegments rest

/-- The TP_SEND commands of TP_SEND_MSG; none unless 1 ≤ c ≤ 256 and the payload is not empty (R95). DESIGN CHOICE (log 30): the line
is then refused. -/
def tpSendMsg (now : U32) (portId : Byte) (portData : U16) (payload : List Byte) (c : Nat) : Option (List Instr) :=
  if 1 ≤ c ∧ c ≤ maxPayload ∧ payload ≠ [] then
    some ((segments (chunksOf c payload.length payload)).map fun seg =>
      .tpSend now portId ((seqTagCode seg.1).setWidth 8) portData seg.2)
  else none

/-! ## Running commands on an instance -/

/-- The host issues one command to an instance that has nothing pending: its record, by R90. -/
def issueCommand (i : Instr) (s : State) : Host.Outcome State Fault Refusal := runRecord (encode i) s

/-- Several commands in order, ending with the first that is refused, or whose result `stop` picks out. -/
def issueAll (stop : Ret → Bool) : List Instr → State → Host.Outcome State Fault Refusal
  | [], s => .next s
  | i :: rest, s =>
    match issueCommand i s with
    | .next s' => if stop s'.ret then .next s' else issueAll stop rest s'
    | .fault r => .fault r
    | .refused r => .refused r

/-- TP_SEND_MSG stops at the first result other than OK, which is then its own result (R95). -/
def sendFailed (r : Ret) : Bool := r != .result .ok

/-! ## Several instances -/

/-- Instances by name; they share no state (R285). -/
abbrev System := List (String × State)

/-- The instance of a name. -/
def System.get? (y : System) (name : String) : Option State := y.lookup name

/-- Replace the instance of a name. -/
def System.put (y : System) (name : String) (s : State) : System :=
  y.map fun e => if e.1 = name then (name, s) else e

/-- One line of a program: a command or a pseudo-command for a named instance (R94, R95). -/
inductive Line where
  | command (name : String) (i : Instr)
  | wire (source target : String) (now : U32) (edit : Option (Nat × Byte))
  | drain (name : String)
  | frxFeed (name : String) (bytes : List Byte)
  | tpSendMsg (name : String) (now : U32) (portId : Byte) (portData : U16) (payload : List Byte) (chunk : Nat)
deriving DecidableEq, Repr

/-- The instance with a new state, where the run answers one. -/
def System.after (y : System) (name : String) (o : Host.Outcome State Fault Refusal) : Option System :=
  match o with
  | .next s => some (y.put name s)
  | .fault _ => none
  | .refused _ => none

/-- One line run on the system; none where a command of it is refused or an instance is missing. WIRE gives the target
the source's bytes, then removes those bytes from the source (R95, R287). DESIGN CHOICE (log 30): a line one command of which is
refused gives no system at all. -/
def runLine (y : System) (l : Line) : Option System :=
  match l with
  | .command name i =>
    match y.get? name with
    | none => none
    | some s => y.after name (issueCommand i s)
  | .wire source target now edit =>
    match y.get? source, y.get? target with
    | some x, some t =>
      match y.after target (issueCommand (wireCommand now edit x) t) with
      | none => none
      | some y' => (y'.get? source).map fun x' => y'.put source (x'.takeTx x.txOut.length)
    | _, _ => none
  | .drain name => (y.get? name).map fun s => y.put name s.drain
  | .frxFeed name bytes =>
    match y.get? name with
    | none => none
    | some s => y.after name (issueAll (fun _ => false) (Machine.frxFeed bytes) s)
  | .tpSendMsg name now portId portData payload chunk =>
    match y.get? name, Machine.tpSendMsg now portId portData payload chunk with
    | some s, some is => y.after name (issueAll sendFailed is s)
    | _, _ => none

/-- A program's lines in order (R94). -/
def runLines : List Line → System → Option System
  | [], y => some y
  | l :: rest, y =>
    match runLine y l with
    | some y' => runLines rest y'
    | none => none

end Sys2Proof.Machine
end

