-- ==== Sys2Proof/Safety.lean ====
section
/-! DEFINITION. The terms claims are stated in: the invariants spec/10_state.md gives the state, runs of instructions, and the
obligations spec/70_reset_and_hazards.md puts on the host. -/

namespace Sys2Proof.Machine

/-! ## Invariants -/

/-- The invariants of FRX between commands (R24, R25), with the bytes its buffer is known to begin with. -/
def Frx.Inv (sof : Byte) (f : Frx) : Prop :=
  match f.rxState with
  | .searchSof => f.buf = []
  | .searchSof2 => f.buf = [sof]
  | .searchFrameType => f.buf = [sof, sof]
  | .storeHeader =>
    3 ≤ f.len ∧ f.len ≤ 7 ∧ f.buf.take 2 = [sof, sof] ∧ kind (byteAt f.buf 2) ≠ .invalid
  | .storeRemainder =>
    8 ≤ f.len ∧ f.len < f.expected ∧ f.expected = frameOverhead + ((byteAt f.buf 3).toNat + 1) ∧
    f.buf.take 2 = [sof, sof] ∧ kind (byteAt f.buf 2) = .data

/-- An in-flight entry's bytes are a DATA frame of its own id, as DL_SEND built it (R36, R70, R182). -/
def InFlight.Inv (sof : Byte) (f : InFlight) : Prop :=
  ∃ metadata payload, 1 ≤ payload.length ∧ payload.length ≤ maxPayload ∧
    f.frame = dataFrame sof 0 f.fid metadata payload

/-- The invariants of DL that always hold (R36): the window and the buffer bounds, and every entry a frame of its id. -/
def Dl.Inv (cfg : Config) (d : Dl) : Prop :=
  d.inflight.length ≤ cfg.txWindowSize.toNat ∧
  bufferedBytes d.inflight ≤ cfg.txBufferSize.toNat ∧
  ∀ f ∈ d.inflight, f.Inv cfg.sof

/-- The invariants of one sequencer (R43, R256): bounded by REASM_MAX, empty when inactive, untouched when its port is
not enabled. -/
def Sequencer.Inv (enabled : Bool) (max : Nat) (q : Sequencer) : Prop :=
  q.abuf.length ≤ max ∧ (q.active = false → q.abuf = [] ∧ q.apd = 0) ∧ (enabled = false → q = Sequencer.reset)

/-- What holds of a block between commands: a legal configuration (R6), FRX (R24, R25), DL (R36), handles that are not
null (R41), and the sequencers (R43). -/
structure State.Inv (s : State) : Prop where
  cfg : s.cfg.wf = true
  frx : s.frx.Inv s.cfg.sof
  dl : s.dl.Inv s.cfg
  ports : ∀ p h, s.port p = .reg h → h ≠ 0
  seqs : ∀ p, (s.sequencer p).Inv (s.reasmEnabled p) (s.reasmMax p)

/-- The in-flight fids are consecutive mod 2048 and end at tx_frame_id − 1 (R36, the conditional invariant). -/
def Dl.Consecutive (d : Dl) : Prop :=
  ∀ k, (h : k < d.inflight.length) →
    d.inflight[k].fid = d.txFrameId - BitVec.ofNat 11 (d.inflight.length - k)

/-- An acknowledgement id x is in range for the in-flight list (R36): at most 1023 past its oldest fid, or at most 1023
behind its newest. An empty list puts no condition. -/
def Dl.InRange (d : Dl) (x : Fid) : Prop :=
  ∀ o w, d.inflight.head? = some o → d.inflight.getLast? = some w →
    (x - o.fid).toNat ≤ inflightMax ∨ (w.fid - x).toNat ≤ inflightMax

/-! ## The frames by arithmetic -/

/-- The n low bytes of a number, least significant first (R7, R8). -/
def leBytes : Nat → Nat → List Byte
  | 0, _ => []
  | n + 1, v => BitVec.ofNat 8 v :: leBytes n (v / 256)

/-- The bytes of a DATA frame as R80 and R160 list them, by arithmetic on the operands. -/
def dataBytes (sof : Byte) (fid metadata : Nat) (payload : List Byte) : List Byte :=
  let body := [BitVec.ofNat 8 (fid / 256), BitVec.ofNat 8 (payload.length - 1), BitVec.ofNat 8 (fid % 256)] ++
    leBytes 3 metadata ++ payload
  [sof, sof] ++ body ++ leBytes 4 (crc32 body).toNat

/-- The bytes of a link frame as R81 and R161 list them, by arithmetic on the operands. -/
def linkBytes (sof : Byte) (code fid : Nat) : List Byte :=
  let body := [BitVec.ofNat 8 (32 * code + fid / 256), BitVec.ofNat 8 (fid % 256)]
  [sof, sof] ++ body ++ leBytes 4 (crc32 body).toNat

/-! ## Nested handler runs -/

/-- The internal command an FRX event runs in a composed block (R183). -/
def handlerOf (now : U32) : FrxEvent → Instr
  | .framingError => .dlOnFramingError now
  | .link t fid => .dlOnLink now ((linkTypeCode t).setWidth 8) (fid.setWidth 16)
  | .frame fid metadata payload => .dlOnFrame now (fid.setWidth 16) metadata payload

/-- `emit(FRX event, e)` takes s to t (R130, R272): an item on FRX_OUT, or a run of the event's handler. -/
def Emits (sink : FrxSink) (e : FrxEvent) (s t : State) : Prop :=
  match sink with
  | .out => t = { s with frxOut := s.frxOut ++ [e] }
  | .dl now => exec (handlerOf now e) s = .next t

/-- `desync()` takes s to t (R121). -/
def Desyncs (sink : FrxSink) (s t : State) : Prop :=
  if s.frx.sync = .lost then t = s
  else Emits sink .framingError { s with frx := { s.frx with resync := s.frx.resync + 1, sync := .lost } } t

/-- The loop of R130 takes s to t on the byte queue in n steps: each step's event goes out at once, and its replay goes
before the bytes not yet consumed (R129). -/
inductive FrxRuns (sink : FrxSink) : Nat → List Byte → State → State → Prop
  | done (s : State) : FrxRuns sink 0 [] s s
  | quiet {n : Nat} {x : Byte} {q : List Byte} {s t : State} :
      (frxStep s.cfg.sof x s.frx).event = none →
      FrxRuns sink n ((frxStep s.cfg.sof x s.frx).replay ++ q) { s with frx := (frxStep s.cfg.sof x s.frx).frx } t →
      FrxRuns sink (n + 1) (x :: q) s t
  | event {n : Nat} {x : Byte} {q : List Byte} {s u t : State} {e : FrxEvent} :
      (frxStep s.cfg.sof x s.frx).event = some e →
      Emits sink e { s with frx := (frxStep s.cfg.sof x s.frx).frx } u →
      FrxRuns sink n ((frxStep s.cfg.sof x s.frx).replay ++ q) u t →
      FrxRuns sink (n + 1) (x :: q) s t

/-- The loop of R183 takes s to t: each byte is counted, then given to FRX, whose events run their handlers. -/
inductive Receives (now : U32) : List Byte → State → State → Prop
  | done (s : State) : Receives now [] s s
  | byte {n : Nat} {b : Byte} {bs : List Byte} {s u t : State} :
      FrxRuns (.dl now) n [b] { s with dl := { s.dl with rxBytes := s.dl.rxBytes + 1 } } u →
      Receives now bs u t → Receives now (b :: bs) s t

/-- The internal command an item DL passes upward runs (R9). -/
def upwardCommand : DlUpItem → Instr
  | .recv metadata payload => .tpOnRecv metadata payload
  | .event ev => .tpOnEvent (linkEventCode ev)

/-- `upward ...` takes s to t (R9, R272): an item on DL_UP in unit mode of DL, else a run of TP's handler. -/
def Passes (item : DlUpItem) (s t : State) : Prop :=
  if s.mode = .unit .dl then t = { s with dlUp := s.dlUp ++ [item] } else exec (upwardCommand item) s = .next t

/-- `retry_check()` takes s to t (R193). -/
def RetryChecked (s t : State) : Prop :=
  if s.dl.discReported = false ∧ ∃ f ∈ s.dl.inflight, f.attempts.toNat - 1 > s.cfg.maxRetries then
    Passes (.event .disconnected) { s with dl := { s.dl with discReported := true } } t
  else t = s

/-- The acknowledgement a link frame brings is one under which R36 keeps the in-flight fids consecutive: ACK_ALL and the
NACKs in range, ACK_ONE the oldest entry or no entry. RESET puts no condition. -/
def AckInRange (s : State) (t : LinkType) (x : Fid) : Prop :=
  match t with
  | .ackAll | .nackFrameId | .nackFramingError => s.dl.InRange x
  | .ackOne => ∀ f ∈ s.dl.inflight, f.fid = x → s.dl.inflight.head? = some f
  | .reset => True

/-- The instruction gives received bytes to FRX (R130, R183; log 9). -/
def receives : Instr → Bool
  | .frxByte _ | .dlLlRecv _ _ | .wireData _ _ _ _ | .wireAckAll _ _ | .wireAckOne _ _ | .wireNackFrameId _ _
  | .wireNackFramingError _ _ | .wireReset _ _ => true
  | .frxReset | .ftxData _ _ _ | .ftxLink _ _ | .fidSub _ _ | .fidInc _ | .dlSend _ _ _ | .dlProcess _
  | .dlServiceInterval _ | .dlReset _ | .dlStatus | .dlOnFrame _ _ _ _ | .dlOnLink _ _ _ | .dlOnFramingError _
  | .tpSend _ _ _ _ _ | .tpPortRegister _ _ | .tpOnRecv _ _ | .tpOnEvent _ | .seqPush _ _ _ _ | .seqReset _ => false

/-! ## Runs -/

/-- Instructions run one after another, stopping at the first fault or refusal (R67). -/
def execAll : List Instr → State → Host.Outcome State Fault Refusal
  | [], s => .next s
  | i :: rest, s =>
    match exec i s with
    | .next t => execAll rest t
    | .fault r => .fault r
    | .refused r => .refused r

/-- FRX searches for a frame, holding nothing (R22, R24). -/
def Frx.Searching (f : Frx) : Prop := f.rxState = .searchSof ∧ f.buf = []

/-- FRX after it has taken a whole valid DATA frame of n payload bytes from a search (R126, R128). -/
def Frx.afterData (n : Nat) (f : Frx) : Frx := { f with sync := .sync, expected := frameOverhead + n }

/-- FRX after it has taken a whole valid link frame from a search (R127). -/
def Frx.afterLink (f : Frx) : Frx := { f with sync := .sync }

/-- The expected id a sequence of upward items leaves behind: one more for each delivery, 0 at each RESET (R184, R196, R199). -/
def idAfter : Fid → List DlUpItem → Fid
  | id, [] => id
  | id, .recv _ _ :: rest => idAfter (id + 1) rest
  | _, .event .reset :: rest => idAfter 0 rest
  | id, .event .connected :: rest => idAfter id rest
  | id, .event .disconnected :: rest => idAfter id rest

/-- What a DL that expects `id` passes upward for FRX's events, DISCONNECTED apart: a delivery for each FRAME whose fid is the one
expected at that point, and RESET, after which 0 is expected, for each RESET frame (R184, R190, R199). -/
def deliveries : Fid → List FrxEvent → List DlUpItem
  | _, [] => []
  | id, .frame fid metadata payload :: rest =>
    if fid = id then .recv metadata payload :: deliveries (id + 1) rest else deliveries id rest
  | _, .link .reset _ :: rest => .event .reset :: deliveries 0 rest
  | id, .link .ackAll _ :: rest | id, .link .ackOne _ :: rest | id, .link .nackFrameId _ :: rest
  | id, .link .nackFramingError _ :: rest | id, .framingError :: rest => deliveries id rest

/-- The FRAMING_ERROR events of a list (R133). -/
def framingErrors (es : List FrxEvent) : Nat := (es.filter (fun e => e == .framingError)).length

/-- The validated frames of a list (R133). -/
def validatedFrames (es : List FrxEvent) : Nat := (es.filter (fun e => e != .framingError)).length

/-! ## What the host owes -/

/-- Time does not go backwards: each `now` is less than 2^31 ms past the one before (R313). -/
def TimeForward (previous now : U32) : Prop := (now - previous).toNat < 2 ^ 31

/-- DL_PROCESS comes no later than DL_SERVICE_INTERVAL asks after the command that left `s` at `now` (R312). -/
def ServedInTime (s : State) (now processedAt : U32) : Prop :=
  s.dl.inflight ≠ [] → (processedAt - now).toNat ≤ (serviceInterval now s).toNat

/-- The host may issue the instruction in this state, so that its record is not refused (R92, R279). -/
def Issuable (s : State) (i : Instr) : Prop := notIssuable s.mode i = none

/-- A safe run: every one of its steps answers a next state. The block has no other way to fail (R274). -/
def SafeFor (k : Nat) (s : State) : Prop := ∃ t, Host.Core.run core k s = .next t

end Sys2Proof.Machine
end

