-- ==== Sys2Proof/Certificates/Slice0/Obligations.lean ====
section
/-! DEFINITION. The statements for the provers. Each says in its docstring which rules of spec/ it formalises, or which log entry
of the model it rests on. -/

open Sys2Proof Sys2Proof.Machine

/-! ## Encodings (spec/30_encoding.md) -/

/-- R90, R91: decoding the encoding of a well-formed command gives the command back, with every operand at every value the
record admits. -/
def Obligations.DecodeEncodeRecord : Prop :=
  ∀ i : Instr, i.wf = true → i.isWire = false → decodeRecord (encode i) = .ok i

/-- R80 to R86: decoding the encoding of a well-formed wire frame gives the frame back, reserved bits included, for every SOF. -/
def Obligations.DecodeEncodeWire : Prop :=
  ∀ (sof : Byte) (i : Instr), i.wf = true → i.isWire = true → decodeWire sof (encodeWith sof i) = .ok i

/-- R90, R91: a record that decodes is the encoding of the command it decodes to, so a command has one record. -/
def Obligations.EncodeDecodeRecord : Prop :=
  ∀ (record : List Byte) (i : Instr), decodeRecord record = .ok i →
    i.wf = true ∧ i.isWire = false ∧ encode i = record

/-- R80 to R86: a frame that decodes is the encoding of the frame it decodes to. -/
def Obligations.EncodeDecodeWire : Prop :=
  ∀ (sof : Byte) (frame : List Byte) (i : Instr), decodeWire sof frame = .ok i →
    i.wf = true ∧ i.isWire = true ∧ encodeWith sof i = frame

/-- R90, R273: a record cut short anywhere is refused. -/
def Obligations.TruncatedRecordRefused : Prop :=
  ∀ (i : Instr) (n : Nat) (s : State) (rest : List Input), i.wf = true → i.isWire = false → n < (encode i).length →
    s.inbox = .command ((encode i).take n) :: rest → step s = .refused (.malformedRecord .truncated)

/-- R92: an internal command is refused in a composed block and runs by its rule in unit mode of its sub-block; an opcode
outside the table of R91 is refused. -/
def Obligations.InternalAndUnassignedOpcodes : Prop :=
  (∀ (i : Instr) (b : SubBlock) (s : State) (rest : List Input), i.wf = true →
    (((∃ now fid m pl, i = .dlOnFrame now fid m pl) ∨ (∃ now t fid, i = .dlOnLink now t fid) ∨
        (∃ now, i = .dlOnFramingError now)) ∧ b = .dl ∨
      ((∃ m pl, i = .tpOnRecv m pl) ∨ (∃ ev, i = .tpOnEvent ev)) ∧ b = .tp ∨
      (∃ p sq pd pl, i = .seqPush p sq pd pl) ∧ b = .seq) →
    s.inbox = .command (encode i) :: rest →
      (s.mode = .composed → step s = .refused (.notIssuableByHost b)) ∧
      (s.mode = .unit b → step s = exec i { s with inbox := rest })) ∧
  (∀ (o : Byte) (tail : List Byte) (s : State) (rest : List Input),
    (0x02 ≤ o.toNat ∧ o.toNat ≤ 0x0F ∨ 0x12 ≤ o.toNat ∧ o.toNat ≤ 0x1F ∨ 0x22 ≤ o.toNat ∧ o.toNat ≤ 0x2F ∨
      0x39 ≤ o.toNat ∧ o.toNat ≤ 0x3F ∨ 0x44 ≤ o.toNat ∧ o.toNat ≤ 0x4F ∨ 0x52 ≤ o.toNat) →
    s.inbox = .command (o :: tail) :: rest → step s = .refused (.malformedRecord (.unassignedOpcode o)))

/-- R80, R81, R91: words written out from the tables decode to the instruction they stand for. -/
def Obligations.SpecWordsDecode : Prop :=
  decodeRecord [0x00, 0x7A] = .ok (.frxByte 0x7A) ∧
  decodeRecord [0x11, 0x06, 0x34, 0x12] = .ok (.ftxLink 6 0x1234) ∧
  decodeRecord [0x20, 0x00, 0x04, 0xFF, 0x07] = .ok (.fidSub 0x0400 0x07FF) ∧
  decodeRecord [0x30, 0x04, 0x03, 0x02, 0x01, 0x07, 0x06, 0x05, 0x02, 0x00, 0xAA, 0xBB] =
    .ok (.dlSend 0x01020304 0x050607 [0xAA, 0xBB]) ∧
  decodeRecord [0x37, 0x01, 0x00, 0x00, 0x00, 0x04, 0x09, 0x00] = .ok (.dlOnLink 1 4 9) ∧
  decodeRecord [0x41, 0x3F, 0x78, 0x56, 0x34, 0x12] = .ok (.tpPortRegister 63 0x12345678) ∧
  decodeRecord [0x50, 0x07, 0x01, 0x34, 0x12, 0x01, 0x00, 0xEE] = .ok (.seqPush 7 1 0x1234 [0xEE]) ∧
  decodeWire 0x55 [0x55, 0x55, 0x20, 0x02, 0x71, 0x57, 0x53, 0x3A] = .ok (.wireAckAll 0 2) ∧
  decodeWire 0x55 [0x55, 0x55, 0xC0, 0x00, 0xB1, 0xC5, 0x23, 0x8A] = .ok (.wireReset 0 0) ∧
  decodeWire 0x55 [0x55, 0x55, 0x00, 0x07, 0x01, 0x02, 0x00, 0x00, 1, 2, 3, 4, 5, 6, 7, 8, 0x9D, 0xDD, 0xE9, 0x35] =
    .ok (.wireData 0 1 2 [1, 2, 3, 4, 5, 6, 7, 8])

/-! ## A step -/

/-- R10, R62, R67 (log 1, log 2, log 9): a step takes the oldest input. A record runs the instruction it decodes to, wire bytes
that are one frame run that frame, other wire bytes are received as DL_LL_RECV or, by a stand-alone FRX, as FRX_BYTE commands,
and with no input the block holds its state. -/
def Obligations.StepRunsNextInput : Prop :=
  ∀ (s : State) (rest : List Input),
    (s.inbox = [] → step s = .next s) ∧
    (∀ record i, s.inbox = .command record :: rest → decodeRecord record = .ok i → Issuable s i →
      step s = exec i { s with inbox := rest }) ∧
    (∀ bytes i, s.inbox = .wire bytes :: rest → decodeWire s.cfg.sof bytes = .ok i →
      step s = exec i { s with inbox := rest }) ∧
    (∀ bytes e, s.inbox = .wire bytes :: rest → decodeWire s.cfg.sof bytes = .error e →
      (s.mode ≠ .unit .frx → step s = exec (.dlLlRecv s.now bytes) { s with inbox := rest }) ∧
      (s.mode = .unit .frx →
        step s = execAll (bytes.map .frxByte) { s with inbox := rest, ret := .none }))

/-- Log 1, log 26: a table word placed for the next step runs, in the mode in which the host may issue it, as the instruction the
decoder reads from it. -/
def Obligations.PlacedWordRuns : Prop :=
  ∀ (s : State) (nbits w : Nat) (i : Instr), decodeTableWord nbits w = some i →
    step (s.withFetchWord nbits w) = exec i { s with mode := issuingMode i s.mode }

/-! ## FRX (spec/40_framer_rx.md) -/

/-- R122, R123, R124 with R121: what a byte does while FRX searches. -/
def Obligations.SearchStates : Prop :=
  ∀ (b : Byte) (s : State), s.frx.Inv s.cfg.sof →
    (s.frx.rxState = .searchSof →
      (b = s.cfg.sof →
        exec (.frxByte b) s = .next { s with frx := { s.frx with buf := [b], rxState := .searchSof2 }, ret := .none }) ∧
      (b ≠ s.cfg.sof → ∃ t, Desyncs (frxSink s) { s with ret := .none } t ∧ exec (.frxByte b) s = .next t)) ∧
    (s.frx.rxState = .searchSof2 →
      (b = s.cfg.sof →
        exec (.frxByte b) s =
          .next { s with frx := { s.frx with buf := [s.cfg.sof, b], rxState := .searchFrameType }, ret := .none }) ∧
      (b ≠ s.cfg.sof → ∃ t,
        Desyncs (frxSink s) { s with frx := { s.frx with buf := [], rxState := .searchSof }, ret := .none } t ∧
          exec (.frxByte b) s = .next t)) ∧
    (s.frx.rxState = .searchFrameType →
      (b = s.cfg.sof → exec (.frxByte b) s = .next { s with ret := .none }) ∧
      (b ≠ s.cfg.sof → kind b ≠ .invalid →
        exec (.frxByte b) s =
          .next { s with frx := { s.frx with buf := [s.cfg.sof, s.cfg.sof, b], rxState := .storeHeader }, ret := .none }) ∧
      (b ≠ s.cfg.sof → kind b = .invalid → ∃ t,
        Desyncs (frxSink s) { s with frx := { s.frx with buf := [], rxState := .searchSof }, ret := .none } t ∧
          exec (.frxByte b) s = .next t))

/-- R125, R126: the header bytes are stored, and the eighth byte of a DATA header fixes the frame's length. -/
def Obligations.HeaderStored : Prop :=
  ∀ (b : Byte) (s : State), s.frx.Inv s.cfg.sof → s.frx.rxState = .storeHeader →
    (s.frx.len < 7 →
      exec (.frxByte b) s = .next { s with frx := { s.frx with buf := s.frx.buf ++ [b] }, ret := .none }) ∧
    (s.frx.len = 7 → kind (byteAt s.frx.buf 2) = .data →
      exec (.frxByte b) s =
        .next { s with
          frx := { s.frx with
            buf := s.frx.buf ++ [b]
            expected := 12 + ((byteAt s.frx.buf 3).toNat + 1)
            rxState := .storeRemainder }
          ret := .none })

/-- R127: a complete link frame is validated and its event goes out, or its failure is counted and the buffer from its second
byte is replayed. -/
def Obligations.LinkFrameComplete : Prop :=
  ∀ (b : Byte) (t : LinkType) (s : State), s.frx.rxState = .storeHeader → s.frx.len = 7 →
    kind (byteAt s.frx.buf 2) = .link t →
    let buf := s.frx.buf ++ [b]
    let crc := (byteAt buf 4).toNat + 2 ^ 8 * (byteAt buf 5).toNat + 2 ^ 16 * (byteAt buf 6).toNat + 2 ^ 24 * b.toNat
    let fid := BitVec.ofNat 11 ((byteAt buf 2).toNat % 8 * 256 + (byteAt buf 3).toNat)
    ((crc32 [byteAt buf 2, byteAt buf 3]).toNat = crc → ∃ u,
      Emits (frxSink s) (.link t fid)
        { s with frx := { s.frx with sync := .sync, buf := [], rxState := .searchSof }, ret := .none } u ∧
      exec (.frxByte b) s = .next u) ∧
    ((crc32 [byteAt buf 2, byteAt buf 3]).toNat ≠ crc → ∃ n u,
      FrxRuns (frxSink s) n (buf.drop 1)
        { s with
          frx := { s.frx with crcErrors := s.frx.crcErrors + 1, buf := [], rxState := .searchSof }
          ret := .none } u ∧
      exec (.frxByte b) s = .next u)

/-- R128: a DATA frame's remaining bytes are stored; a complete one is validated and its event goes out, or its failure is
counted and the buffer from its second byte is replayed. -/
def Obligations.DataFrameComplete : Prop :=
  ∀ (b : Byte) (s : State), s.frx.Inv s.cfg.sof → s.frx.rxState = .storeRemainder →
    let buf := s.frx.buf ++ [b]
    let l := s.frx.expected - 12
    let crc := (byteAt buf (8 + l)).toNat + 2 ^ 8 * (byteAt buf (9 + l)).toNat + 2 ^ 16 * (byteAt buf (10 + l)).toNat +
      2 ^ 24 * (byteAt buf (11 + l)).toNat
    let fid := BitVec.ofNat 11 ((byteAt buf 2).toNat % 8 * 256 + (byteAt buf 4).toNat)
    let metadata := BitVec.ofNat 24
      ((byteAt buf 5).toNat + 2 ^ 8 * (byteAt buf 6).toNat + 2 ^ 16 * (byteAt buf 7).toNat)
    (buf.length < s.frx.expected →
      exec (.frxByte b) s = .next { s with frx := { s.frx with buf := buf }, ret := .none }) ∧
    (buf.length = s.frx.expected → (crc32 ((buf.drop 2).take (6 + l))).toNat = crc → ∃ u,
      Emits (frxSink s) (.frame fid metadata ((buf.drop 8).take l))
        { s with frx := { s.frx with sync := .sync, buf := [], rxState := .searchSof }, ret := .none } u ∧
      exec (.frxByte b) s = .next u) ∧
    (buf.length = s.frx.expected → (crc32 ((buf.drop 2).take (6 + l))).toNat ≠ crc → ∃ n u,
      FrxRuns (frxSink s) n (buf.drop 1)
        { s with
          frx := { s.frx with crcErrors := s.frx.crcErrors + 1, buf := [], rxState := .searchSof }
          ret := .none } u ∧
      exec (.frxByte b) s = .next u)

/-- R129, R130: FRX_BYTE runs the loop of R130 to its end, in any state, within 269 × 268 steps. -/
def Obligations.FrxByteRunsToEnd : Prop :=
  ∀ (b : Byte) (s : State), ∃ n t, FrxRuns (frxSink s) n [b] { s with ret := .none } t ∧
    exec (.frxByte b) s = .next t ∧ (s.frx.Inv s.cfg.sof → n ≤ 269 * 268)

/-- R131: FRX_RESET forces the search state and keeps the counters; no event is emitted. -/
def Obligations.FrxResetSearches : Prop :=
  ∀ s : State, exec .frxReset s =
    .next { s with
      frx := { s.frx with rxState := .searchSof, buf := [], expected := 0, sync := .init }
      ret := .none }

/-- R132: the bytes FTX_DATA or FTX_LINK gives, fed to an FRX that searches, emit exactly that frame's event. -/
def Obligations.RoundTripFraming : Prop :=
  ∀ s : State, s.mode = .unit .frx → s.cfg.wf = true → s.frx.Searching →
    (∀ (fid : U16) (m : U24) (pl : List Byte), fid.toNat ≤ 2047 → 1 ≤ pl.length → pl.length ≤ 256 →
      ∃ bytes, exec (.ftxData fid m pl) s = .next { s with ret := .frame bytes } ∧
        execAll (bytes.map .frxByte) s =
          .next { s with
            frx := s.frx.afterData pl.length
            frxOut := s.frxOut ++ [.frame (fid.setWidth 11) m pl]
            ret := .none }) ∧
    (∀ (t : LinkType) (fid : U16), fid.toNat ≤ 2047 →
      ∃ bytes, exec (.ftxLink ((linkTypeCode t).setWidth 8) fid) s = .next { s with ret := .frame bytes } ∧
        execAll (bytes.map .frxByte) s =
          .next { s with
            frx := s.frx.afterLink
            frxOut := s.frxOut ++ [.link t (fid.setWidth 11)]
            ret := .none })

/-- R133: any number of SOF bytes before a valid frame is filler, whatever its reserved bits; and from any state the framing
errors are at most one more than the validated frames, each counted in resync (R28). -/
def Obligations.ResyncIdempotence : Prop :=
  (∀ (k : Nat) (rsv : BitVec 2) (fid : Fid) (s : State), s.mode = .unit .frx → s.cfg.wf = true → s.frx.Searching →
    (∀ (m : U24) (pl : List Byte), 1 ≤ pl.length → pl.length ≤ 256 →
      execAll ((List.replicate k s.cfg.sof ++ encodeWith s.cfg.sof (.wireData rsv fid m pl)).map .frxByte) s =
        .next { s with
          frx := s.frx.afterData pl.length
          frxOut := s.frxOut ++ [.frame fid m pl]
          ret := .none }) ∧
    (∀ t : LinkType,
      execAll ((List.replicate k s.cfg.sof ++ encodeWith s.cfg.sof (wireLink t rsv fid)).map .frxByte) s =
        .next { s with
          frx := s.frx.afterLink
          frxOut := s.frxOut ++ [.link t fid]
          ret := .none })) ∧
  (∀ (bytes : List Byte) (s : State), s.mode = .unit .frx → ∃ t events,
    execAll (bytes.map .frxByte) s = .next t ∧ t.frxOut = s.frxOut ++ events ∧
    framingErrors events ≤ 1 + validatedFrames events ∧
    t.frx.resync = s.frx.resync + BitVec.ofNat 32 (framingErrors events))

/-! ## FTX and FID (spec/41_framer_tx.md, spec/42_frame_id.md) -/

/-- R160: FTX_DATA's result and bytes; no state is written. -/
def Obligations.FtxDataBytes : Prop :=
  ∀ (fid : U16) (m : U24) (pl : List Byte) (s : State),
    exec (.ftxData fid m pl) s =
      .next { s with
        ret :=
          if fid.toNat > 2047 ∨ pl.length = 0 ∨ pl.length > 256 then .result .invalidParameter
          else .frame (dataBytes s.cfg.sof fid.toNat m.toNat pl) }

/-- R161: FTX_LINK's result and bytes; no state is written. -/
def Obligations.FtxLinkBytes : Prop :=
  ∀ (type : Byte) (fid : U16) (s : State),
    exec (.ftxLink type fid) s =
      .next { s with
        ret :=
          if type.toNat ∉ [1, 3, 4, 5, 6] ∨ fid.toNat > 2047 then .result .invalidParameter
          else .frame (linkBytes s.cfg.sof type.toNat fid.toNat) }

/-- R170: FID_SUB answers the signed distance: congruent to a − b, within 1023 of 0 except at the midpoint, which is −1024 where
a is the larger and +1024 where b is, and antisymmetric. -/
def Obligations.FidSubDistance : Prop :=
  ∀ (a b : U16) (s : State), ∃ d : Int,
    let c : Int := (a.toNat % 2048 : Nat) - (b.toNat % 2048 : Nat)
    exec (.fidSub a b) s = .next { s with ret := .distance d } ∧
    exec (.fidSub b a) s = .next { s with ret := .distance (-d) } ∧
    d % 2048 = c % 2048 ∧ (c = 1024 → d = -1024) ∧ (c = -1024 → d = 1024) ∧
    (c ≠ 1024 → c ≠ -1024 → -1023 ≤ d ∧ d ≤ 1023) ∧ d = fidSub a.toNat b.toNat

/-- R171: FID_INC answers the successor mod 2048. -/
def Obligations.FidIncSuccessor : Prop :=
  ∀ (a : U16) (s : State), ∃ f : Fid,
    exec (.fidInc a) s = .next { s with ret := .frameId f } ∧ f.toNat = (a.toNat + 1) % 2048

/-! ## DL (spec/43_data_link.md) -/

/-- R182: DL_SEND's checks in their order, and the effect of a send that passes them. -/
def Obligations.DlSendChecksInOrder : Prop :=
  ∀ (now : U32) (m : U24) (pl : List Byte) (s : State),
    let frame := dataBytes s.cfg.sof s.dl.txFrameId.toNat m.toNat pl
    exec (.dlSend now m pl) s = .next
      (if pl.length > 256 then { s with now := now, ret := .result .tooBig }
      else if pl.length = 0 then { s with now := now, ret := .result .invalidParameter }
      else if s.dl.inflight.length ≥ s.cfg.txWindowSize.toNat then { s with now := now, ret := .result .notEnoughMemory }
      else if (s.dl.inflight.map fun f => f.frame.length).sum + (12 + pl.length) > s.cfg.txBufferSize.toNat then
        { s with now := now, ret := .result .notEnoughMemory }
      else
        { s with
          now := now
          ret := .result .ok
          txOut := s.txOut ++ frame
          dl := { s.dl with
            inflight := s.dl.inflight ++ [{ fid := s.dl.txFrameId, frame := frame, tSent := now, attempts := 1 }]
            txBytes := s.dl.txBytes + BitVec.ofNat 32 (12 + pl.length)
            txFrameId := s.dl.txFrameId + 1 } })

/-- R183: DL_LL_RECV counts each byte and gives it to FRX, whose events run their handlers at once; a byte sequence split over two
commands at the same time has the effect of one (R45). -/
def Obligations.DlLlRecvFeeds : Prop :=
  (∀ (now : U32) (bytes : List Byte) (s : State), ∃ t, Receives now bytes { s with now := now, ret := .none } t ∧
    exec (.dlLlRecv now bytes) s = .next t) ∧
  (∀ (now : U32) (xs ys : List Byte) (s t : State), exec (.dlLlRecv now xs) s = .next t →
    exec (.dlLlRecv now (xs ++ ys)) s = exec (.dlLlRecv now ys) t)

/-- R184: DL_ON_FRAME delivers exactly the expected frame and acknowledges its id, else puts a NACK with the expected id. -/
def Obligations.DlOnFrameAcceptsInOrder : Prop :=
  ∀ (now : U32) (fid : U16) (m : U24) (pl : List Byte) (s : State),
    (fid.toNat = s.dl.rxFrameId.toNat → ∃ u,
      Passes (.recv m pl)
        { s with now := now, ret := .none, dl := { s.dl with rxDataFrames := s.dl.rxDataFrames + 1 } } u ∧
      exec (.dlOnFrame now fid m pl) s =
        .next { u with
          txOut := u.txOut ++ linkBytes s.cfg.sof 1 fid.toNat
          dl := { u.dl with rxFrameId := s.dl.rxFrameId + 1, txBytes := u.dl.txBytes + 8 } }) ∧
    (fid.toNat ≠ s.dl.rxFrameId.toNat →
      exec (.dlOnFrame now fid m pl) s =
        .next { s with
          now := now
          ret := .none
          txOut := s.txOut ++ linkBytes s.cfg.sof 4 s.dl.rxFrameId.toNat
          dl := { s.dl with txBytes := s.dl.txBytes + 8 } })

/-- R186, R187, R198 through R185: ACK_ALL (type 1) and ACK_ONE (type 3) remove the entries they acknowledge, keeping the others in
order, count them, and clear disc_reported where any went. -/
def Obligations.AcksRemove : Prop :=
  ∀ (now : U32) (fid : U16) (s : State),
    let removed (acked : InFlight → Bool) : State :=
      { s with
        now := now
        ret := .none
        dl := { s.dl with
          inflight := s.dl.inflight.filter (fun f => !acked f)
          txDataFrames := s.dl.txDataFrames + BitVec.ofNat 32 (s.dl.inflight.countP acked)
          discReported := s.dl.discReported && !s.dl.inflight.any acked } }
    exec (.dlOnLink now 1 fid) s = .next (removed fun f => decide (fidSub f.fid.toNat fid.toNat ≤ 0)) ∧
    exec (.dlOnLink now 3 fid) s = .next (removed fun f => decide (f.fid.toNat = fid.toNat))

/-- R186: what ACK_ALL removes from a consecutive list: the entries through its id where that id is at most 1023 past the oldest,
none where it lies behind within 1023 of the newest, and otherwise the newest entries. -/
def Obligations.AckAllOnConsecutiveList : Prop :=
  ∀ (now : U32) (fid : Fid) (oldest : InFlight) (s t : State), s.cfg.wf = true → s.dl.Inv s.cfg → s.dl.Consecutive →
    s.dl.inflight.head? = some oldest → exec (.dlOnLink now 1 (fid.setWidth 16)) s = .next t →
    let d := (fid - oldest.fid).toNat
    (d ≤ 1023 →
      t.dl.inflight = s.dl.inflight.drop (d + 1) ∧
      t.dl.txDataFrames = s.dl.txDataFrames + BitVec.ofNat 32 (min (d + 1) s.dl.inflight.length)) ∧
    (1024 ≤ d → (s.dl.txFrameId - 1 - fid).toNat ≤ 1023 →
      t.dl.inflight = s.dl.inflight ∧ t.dl.txDataFrames = s.dl.txDataFrames) ∧
    (1024 ≤ d → 1024 ≤ (s.dl.txFrameId - 1 - fid).toNat → ∃ k, k ≤ s.dl.inflight.length ∧
      t.dl.inflight = s.dl.inflight.take k ∧
      ∀ j, (h : j < s.dl.inflight.length) →
        (j < k ↔ ¬ (1025 ≤ j + 2048 - d ∨
          j + 2048 - d = 1024 ∧ fidSub s.dl.inflight[j].fid.toNat fid.toNat = -1024)))

/-- R188, R189 with R191, R193, R198 through R185: a NACK of either kind (types 4 and 5) acknowledges the entries before its id, re-sends
every entry that remains, verbatim and in order, and then checks the retries. -/
def Obligations.NackGoesBack : Prop :=
  ∀ (now : U32) (type : Byte) (fid : U16) (s : State), type = 4 ∨ type = 5 →
    let acked (f : InFlight) : Bool := decide (fidSub f.fid.toNat fid.toNat < 0)
    let kept := s.dl.inflight.filter (fun f => !acked f)
    ∃ t, exec (.dlOnLink now type fid) s = .next t ∧
      RetryChecked
        { s with
          now := now
          ret := .none
          txOut := s.txOut ++ kept.flatMap (fun f => f.frame)
          dl := { s.dl with
            inflight := kept.map (fun f => { f with attempts := f.attempts + 1, tSent := now })
            txDataFrames := s.dl.txDataFrames + BitVec.ofNat 32 (s.dl.inflight.countP acked)
            txBytes := s.dl.txBytes + BitVec.ofNat 32 (kept.map fun f => f.frame.length).sum
            txRetransmissions := s.dl.txRetransmissions + BitVec.ofNat 32 kept.length
            discReported := s.dl.discReported && !s.dl.inflight.any acked } } t

/-- R190, R196: the link reset, local (DL_RESET, which puts the RESET frame) and by the peer (type 6, which puts nothing): the ids,
the list, the flag and the counters are cleared, then RESET goes upward. -/
def Obligations.LinkResetClears : Prop :=
  ∀ (now : U32) (fid : U16) (s : State),
    let cleared (txBytes : U32) (put : List Byte) : State :=
      { s with
        now := now
        ret := .none
        txOut := s.txOut ++ put
        frx := { s.frx with crcErrors := 0, resync := 0 }
        dl :=
          { txFrameId := 0, rxFrameId := 0, inflight := [], discReported := false, txBytes := txBytes,
            txDataFrames := 0, txRetransmissions := 0, rxBytes := 0, rxDataFrames := 0 } }
    (∃ t, exec (.dlReset now) s = .next t ∧ Passes (.event .reset) (cleared 8 (linkBytes s.cfg.sof 6 0)) t) ∧
    (∃ t, exec (.dlOnLink now 6 fid) s = .next t ∧ Passes (.event .reset) (cleared 0 []) t)

/-- R301: what the three run-time resets leave: FRX_RESET touches FRX alone; a link reset, local or by the peer, keeps FRX's search,
the configuration and the port table, clears each sequencer but its errors, and tells each registered port. -/
def Obligations.RuntimeResets : Prop :=
  ∀ (now : U32) (fid : U16) (s : State), s.mode ≠ .unit .dl →
    (∃ t, exec .frxReset s = .next t ∧
      t.frx = { rxState := .searchSof, buf := [], expected := 0, sync := .init,
                crcErrors := s.frx.crcErrors, resync := s.frx.resync } ∧
      t = { s with frx := t.frx, ret := .none }) ∧
    (∀ i put, i = Instr.dlReset now ∧ put = linkBytes s.cfg.sof 6 0 ∨ i = .dlOnLink now 6 fid ∧ put = [] →
      ∃ t, exec i s = .next t ∧ t.cfg = s.cfg ∧ t.ports = s.ports ∧ t.mode = s.mode ∧ t.inbox = s.inbox ∧
        t.now = now ∧ t.ret = .none ∧ t.frxOut = s.frxOut ∧ t.dlUp = s.dlUp ∧
        t.frx = { s.frx with crcErrors := 0, resync := 0 } ∧
        t.dl = { Dl.reset with txBytes := BitVec.ofNat 32 put.length } ∧ t.txOut = s.txOut ++ put ∧
        t.portOut = s.portOut ++ (List.range 64).filterMap (fun p =>
          match s.port (BitVec.ofNat 6 p) with
          | .empty => none
          | .reg h => some (.event (BitVec.ofNat 6 p) h .reset)) ∧
        ∀ p, t.sequencer p =
          if s.reasmEnabled p then
            { active := false, abuf := [], apd := 0, seqErrors := (s.sequencer p).seqErrors }
          else s.sequencer p)

/-- R195: DL_ON_FRAMING_ERROR puts NACK_FRAMING_ERROR with the expected id. -/
def Obligations.DlOnFramingErrorNacks : Prop :=
  ∀ (now : U32) (s : State),
    exec (.dlOnFramingError now) s =
      .next { s with
        now := now
        ret := .none
        txOut := s.txOut ++ linkBytes s.cfg.sof 5 s.dl.rxFrameId.toNat
        dl := { s.dl with txBytes := s.dl.txBytes + 8 } }

/-- R192 with R191, R193: DL_PROCESS re-sends, in order and verbatim, exactly the entries for which more than tx_timeout_ms have passed,
and then checks the retries. -/
def Obligations.DlProcessResendsDue : Prop :=
  ∀ (now : U32) (s : State),
    let due (f : InFlight) : Bool := decide ((now - f.tSent).toNat > s.cfg.txTimeoutMs.toNat)
    let sent := s.dl.inflight.filter due
    ∃ t, exec (.dlProcess now) s = .next t ∧
      RetryChecked
        { s with
          now := now
          ret := .none
          txOut := s.txOut ++ sent.flatMap (fun f => f.frame)
          dl := { s.dl with
            inflight := s.dl.inflight.map fun f =>
              if due f then { f with attempts := f.attempts + 1, tSent := now } else f
            txBytes := s.dl.txBytes + BitVec.ofNat 32 (sent.map fun f => f.frame.length).sum
            txRetransmissions := s.dl.txRetransmissions + BitVec.ofNat 32 sent.length } } t

/-- R194: DL_SERVICE_INTERVAL answers the timeout when nothing is in flight, else the least wait over the entries (mod 2^32, R281; log
15); no state is written. -/
def Obligations.ServiceIntervalIsLeastWait : Prop :=
  ∀ (now : U32) (s : State), ∃ w : U32,
    let wait (f : InFlight) : U32 :=
      if (now - f.tSent).toNat > s.cfg.txTimeoutMs.toNat then 0
      else BitVec.ofNat 32 (s.cfg.txTimeoutMs.toNat - (now - f.tSent).toNat + 1)
    exec (.dlServiceInterval now) s = .next { s with now := now, ret := .millis w } ∧
    (s.dl.inflight = [] → w = s.cfg.txTimeoutMs) ∧
    (s.dl.inflight ≠ [] → (∃ f ∈ s.dl.inflight, w = wait f) ∧ ∀ f ∈ s.dl.inflight, w.toNat ≤ (wait f).toNat)

/-- R192, R194: the service interval is exact: a DL_PROCESS sooner re-sends nothing, and one that comes when it has passed re-sends some
frame. The largest timeout is left out: its wait does not fit 32 bits (log 15). -/
def Obligations.ServiceIntervalIsExact : Prop :=
  ∀ (now w : U32) (s s' : State), s.cfg.txTimeoutMs.toNat < 2 ^ 32 - 1 → s.dl.inflight ≠ [] →
    exec (.dlServiceInterval now) s = .next s' → s'.ret = .millis w →
    (∀ d : U32, d.toNat < w.toNat → ∃ t, exec (.dlProcess (now + d)) s = .next t ∧ t.txOut = s.txOut ∧
      t.dl.inflight = s.dl.inflight ∧ t.dl.txRetransmissions = s.dl.txRetransmissions) ∧
    (∃ t k, exec (.dlProcess (now + w)) s = .next t ∧ 1 ≤ k ∧ k ≤ s.dl.inflight.length ∧
      t.dl.txRetransmissions = s.dl.txRetransmissions + BitVec.ofNat 32 k)

/-- R197, R39: DL_STATUS answers the ten counters, and every register of the host's view reads as its row says. -/
def Obligations.StatusAndRegisters : Prop :=
  ∀ s : State,
    exec .dlStatus s =
      .next { s with
        ret := .status
          [s.dl.txBytes, s.dl.txDataFrames, s.dl.txRetransmissions, 0, 0, s.dl.rxBytes, s.dl.rxDataFrames, 0,
            s.frx.crcErrors, s.frx.resync] } ∧
    (List.range 24).map s.readRegister =
      [some s.dl.txBytes, some s.dl.txDataFrames, some s.dl.txRetransmissions, some 0, some 0, none, none, none,
        some s.dl.rxBytes, some s.dl.rxDataFrames, some 0, some s.frx.crcErrors, some s.frx.resync, none, none, none,
        some s.cfg.txWindowSize, some s.cfg.txBufferSize, some s.cfg.rxWindowSize, some s.cfg.rxBufferSize,
        some s.cfg.txLinkBufferSize, some s.cfg.txTimeoutMs, none, none] ∧
    ∀ n, 24 ≤ n → s.readRegister n = none

/-- R185, R232, R250 (log 13): the operands for which an internal command is refused: a type that is no link code, an event above 2,
a port without a sequencer or without a handle, a seq that is no segment tag. -/
def Obligations.InternalOperandsRefused : Prop :=
  ∀ s : State,
    (∀ now (type : Byte) fid, type.toNat ∉ [1, 3, 4, 5, 6] →
      exec (.dlOnLink now type fid) s = .refused (.badLinkType type)) ∧
    (∀ ev : Byte, ev.toNat > 2 → exec (.tpOnEvent ev) s = .refused (.badEvent ev)) ∧
    (∀ (p sq : Byte) pd pl, p.toNat > 63 → exec (.seqPush p sq pd pl) s = .refused (.noSequencer p)) ∧
    (∀ (p : PortId) (sq : Byte) pd pl, s.reasmEnabled p = false →
      exec (.seqPush (p.setWidth 8) sq pd pl) s = .refused (.noSequencer (p.setWidth 8))) ∧
    (∀ (p : PortId) (sq : Byte) pd pl, s.reasmEnabled p = true → s.port p = .empty →
      exec (.seqPush (p.setWidth 8) sq pd pl) s = .refused (.noHandle (p.setWidth 8))) ∧
    (∀ (p : PortId) (sq : Byte) pd pl h, s.reasmEnabled p = true → s.port p = .reg h → sq.toNat > 3 →
      exec (.seqPush (p.setWidth 8) sq pd pl) s = .refused (.badSeqTag sq))

/-! ## TP (spec/44_transport.md) -/

/-- R230: TP_SEND refuses a port above 63 or a seq above 3, else it is DL_SEND with the packed metadata. -/
def Obligations.TpSendPacks : Prop :=
  ∀ (now : U32) (p sq : Byte) (pd : U16) (pl : List Byte) (s : State),
    (p.toNat > 63 ∨ sq.toNat > 3 →
      exec (.tpSend now p sq pd pl) s = .next { s with now := now, ret := .result .invalidParameter }) ∧
    (p.toNat ≤ 63 → sq.toNat ≤ 3 → ∃ t,
      exec (.dlSend now (BitVec.ofNat 24 (p.toNat + 64 * sq.toNat + 256 * pd.toNat)) pl) s = .next t ∧
      exec (.tpSend now p sq pd pl) s = .next t)

/-- R231: TP_ON_RECV drops a delivery to an unregistered port; else PORT_RECV goes out, and then the segment is pushed where the port has
a sequencer. -/
def Obligations.TpOnRecvDelivers : Prop :=
  ∀ (m : U24) (pl : List Byte) (s : State),
    let p : PortId := BitVec.ofNat 6 (m.toNat % 64)
    let pd : U16 := BitVec.ofNat 16 (m.toNat / 256)
    (s.port p = .empty → exec (.tpOnRecv m pl) s = .next { s with ret := .none }) ∧
    (∀ h tag, s.port p = .reg h → (seqTagCode tag).toNat = m.toNat / 64 % 4 →
      let u := { s with ret := .none, portOut := s.portOut ++ [.recv p h tag pd pl] }
      (s.reasmEnabled p = false → exec (.tpOnRecv m pl) s = .next u) ∧
      (s.reasmEnabled p = true → ∃ t,
        exec (.seqPush (p.setWidth 8) ((seqTagCode tag).setWidth 8) pd pl) u = .next t ∧
        exec (.tpOnRecv m pl) s = .next t))

/-- R232: TP_ON_EVENT resets the enabled sequencers on RESET, and gives the event to each registered port in ascending order; an
event above 2 is refused. -/
def Obligations.TpOnEventFansOut : Prop :=
  (∀ (ev : Byte) (s : State), ev.toNat > 2 → exec (.tpOnEvent ev) s = .refused (.badEvent ev)) ∧
  ∀ (ev : LinkEvent) (s : State), ∃ t,
    exec (.tpOnEvent (linkEventCode ev)) s = .next t ∧
    t = { s with ret := .none, seqs := t.seqs, portOut := t.portOut } ∧
    t.portOut = s.portOut ++ (List.range 64).filterMap (fun p =>
      match s.port (BitVec.ofNat 6 p) with
      | .empty => none
      | .reg h => some (.event (BitVec.ofNat 6 p) h ev)) ∧
    ∀ p, t.sequencer p =
      if ev = .reset ∧ s.reasmEnabled p = true then
        { active := false, abuf := [], apd := 0, seqErrors := (s.sequencer p).seqErrors }
      else s.sequencer p

/-- R233: TP_PORT_REGISTER refuses a port above 63 or a null handle, else it writes that port's entry and resets its sequencer. -/
def Obligations.TpPortRegisterBinds : Prop :=
  ∀ (h : U32) (s : State),
    (∀ p : Byte, p.toNat > 63 ∨ h = 0 →
      exec (.tpPortRegister p h) s = .next { s with ret := .result .invalidParameter }) ∧
    (∀ p : PortId, h ≠ 0 → ∃ t,
      exec (.tpPortRegister (p.setWidth 8) h) s = .next t ∧
      t = { s with ret := .result .ok, ports := t.ports, seqs := t.seqs } ∧
      (∀ q, t.port q = if q = p then .reg h else s.port q) ∧
      ∀ q, t.sequencer q =
        if q = p ∧ s.reasmEnabled p = true then
          { active := false, abuf := [], apd := 0, seqErrors := (s.sequencer p).seqErrors }
        else s.sequencer q)

/-! ## SEQ (spec/45_reassembly.md) -/

/-- R250: SEQ_PUSH, case by case: the new state of the port's sequencer S, and the message that goes out; it is refused where the
port has no sequencer or no handle. -/
def Obligations.SeqPushCases : Prop :=
  (∀ (p sq : Byte) (pd : U16) (pl : List Byte) (s : State), p.toNat > 63 ∨
      (∃ q : PortId, p = q.setWidth 8 ∧ (s.reasmEnabled q = false ∨ s.port q = .empty)) →
    ∃ r, exec (.seqPush p sq pd pl) s = .refused r) ∧
  ∀ (p : PortId) (h : U32) (pd : U16) (pl : List Byte) (s : State), s.reasmEnabled p = true → s.port p = .reg h →
    let q := s.sequencer p
    let idle (errors : U32) : Sequencer := { active := false, abuf := [], apd := 0, seqErrors := errors }
    let pushes (code : Byte) (q' : Sequencer) (out : List PortItem) : Prop :=
      exec (.seqPush (p.setWidth 8) code pd pl) s =
        .next { s with ret := .none, seqs := s.seqs.set p.toNat q' p.isLt, portOut := s.portOut ++ out }
    pushes 3 (if q.active then idle (q.seqErrors + 1) else q) [.msg p h pd pl] ∧
    pushes 2
      (let errors := if q.active then q.seqErrors + 1 else q.seqErrors
       if pl.length > s.reasmMax p then idle (errors + 1)
       else { active := true, abuf := pl, apd := pd, seqErrors := errors }) [] ∧
    (q.active = false →
      pushes 0 { q with seqErrors := q.seqErrors + 1 } [] ∧ pushes 1 { q with seqErrors := q.seqErrors + 1 } []) ∧
    (q.active = true → q.abuf.length + pl.length > s.reasmMax p →
      pushes 0 (idle (q.seqErrors + 1)) [] ∧ pushes 1 (idle (q.seqErrors + 1)) []) ∧
    (q.active = true → q.abuf.length + pl.length ≤ s.reasmMax p →
      pushes 0 { q with abuf := q.abuf ++ pl } [] ∧ pushes 1 (idle q.seqErrors) [.msg p h q.apd (q.abuf ++ pl)])

/-- R255: SEQ_RESET abandons the partial message and keeps the errors; it does nothing where the port has no sequencer. -/
def Obligations.SeqResetAbandons : Prop :=
  ∀ s : State,
    (∀ p : Byte, p.toNat > 63 → exec (.seqReset p) s = .next { s with ret := .none }) ∧
    (∀ p : PortId, exec (.seqReset (p.setWidth 8)) s =
      .next { s with
        ret := .none
        seqs :=
          if s.reasmEnabled p then
            s.seqs.set p.toNat
              { active := false, abuf := [], apd := 0, seqErrors := (s.sequencer p).seqErrors } p.isLt
          else s.seqs })

/-- R250, R257 with R95: a message cut into chunks by TP_SEND_MSG's rule and pushed segment by segment gives exactly one PORT_MSG equal
to it, whatever the sequencer held before. -/
def Obligations.MessageReassembled : Prop :=
  ∀ (p : PortId) (h : U32) (pd : U16) (payload : List Byte) (chunk : Nat) (s : State), s.reasmEnabled p = true →
    s.port p = .reg h → 1 ≤ chunk → payload ≠ [] → payload.length ≤ s.reasmMax p → ∃ t,
    execAll ((segments (chunksOf chunk payload.length payload)).map fun seg =>
      .seqPush (p.setWidth 8) ((seqTagCode seg.1).setWidth 8) pd seg.2) s = .next t ∧
    t = { s with ret := .none, seqs := t.seqs, portOut := s.portOut ++ [.msg p h pd payload] } ∧
    (t.sequencer p).active = false ∧
    ∀ q, q ≠ p → t.sequencer q = s.sequencer q

/-! ## Wire frames -/

/-- R62, R183 (log 9, and log 4 for the time State.now): a wire frame that arrives is its bytes received, whatever FRX holds; it completes in every state. -/
def Obligations.WireFrameIsItsBytes : Prop :=
  ∀ (i : Instr) (s : State), i.isWire = true →
    (s.mode ≠ .unit .frx → ∃ t, Receives s.now (encodeWith s.cfg.sof i) { s with ret := .none } t ∧ exec i s = .next t) ∧
    (s.mode = .unit .frx → ∃ t,
      execAll ((encodeWith s.cfg.sof i).map .frxByte) { s with ret := .none } = .next t ∧ exec i s = .next t)

/-- R127, R183, R185: each of the five link frames (WIRE_ACK_ALL, WIRE_ACK_ONE, WIRE_NACK_FRAME_ID, WIRE_NACK_FRAMING_ERROR,
WIRE_RESET), arriving while FRX searches, counts its 8 bytes, regains sync and runs DL_ON_LINK with its type and id, reserved bits
ignored (R84); a stand-alone FRX emits its event. That the frame is an instruction is the model's choice (log 9), and so is the time of
the handler's run, State.now (log 4). -/
def Obligations.WireLinkRunsHandler : Prop :=
  ∀ (t : LinkType) (rsv : BitVec 2) (fid : Fid) (s : State), s.cfg.wf = true → s.frx.Searching →
    (s.mode ≠ .unit .frx → ∃ u,
      exec (.dlOnLink s.now ((linkTypeCode t).setWidth 8) (fid.setWidth 16))
        { s with frx := s.frx.afterLink, dl := { s.dl with rxBytes := s.dl.rxBytes + 8 } } = .next u ∧
      exec (wireLink t rsv fid) s = .next u) ∧
    (s.mode = .unit .frx →
      exec (wireLink t rsv fid) s =
        .next { s with frx := s.frx.afterLink, frxOut := s.frxOut ++ [.link t fid], ret := .none })

/-- R128, R183, R184: a DATA frame (WIRE_DATA), arriving while FRX searches, counts its bytes, regains sync and runs DL_ON_FRAME with its
fields, reserved bits ignored (R84); a stand-alone FRX emits its event. That the frame is an instruction is the model's choice (log 9),
and so is the time of the handler's run, State.now (log 4). -/
def Obligations.WireDataRunsHandler : Prop :=
  ∀ (rsv : BitVec 2) (fid : Fid) (m : U24) (pl : List Byte) (s : State), s.cfg.wf = true → s.frx.Searching →
    1 ≤ pl.length → pl.length ≤ 256 →
    (s.mode ≠ .unit .frx → ∃ u,
      exec (.dlOnFrame s.now (fid.setWidth 16) m pl)
        { s with
          frx := s.frx.afterData pl.length
          dl := { s.dl with rxBytes := s.dl.rxBytes + BitVec.ofNat 32 (12 + pl.length) } } = .next u ∧
      exec (.wireData rsv fid m pl) s = .next u) ∧
    (s.mode = .unit .frx →
      exec (.wireData rsv fid m pl) s =
        .next { s with
          frx := s.frx.afterData pl.length, frxOut := s.frxOut ++ [.frame fid m pl], ret := .none })

/-! ## Reset and the whole machine -/

/-- R6, R300: no instance exists for an illegal configuration, and a legal one starts with every element at the value of R300's table. -/
def Obligations.PowerOnReset : Prop :=
  ∀ (mode : Mode) (cfg : Config),
    (cfg.txWindowSize = 0 ∨ cfg.txWindowSize.toNat > 1023 ∨ cfg.txBufferSize = 0 ∨ cfg.rxWindowSize = 0 ∨
      cfg.rxBufferSize = 0 ∨ cfg.txLinkBufferSize = 0 ∨ cfg.txTimeoutMs = 0 → State.powerOn mode cfg = none) ∧
    (cfg.wf = true → ∃ s, State.powerOn mode cfg = some s ∧ s.cfg = cfg ∧ s.mode = mode ∧
      s.frx.rxState = .searchSof ∧ s.frx.len = 0 ∧ s.frx.expected = 0 ∧ s.frx.sync = .init ∧ s.frx.crcErrors = 0 ∧
      s.frx.resync = 0 ∧ s.dl.txFrameId = 0 ∧ s.dl.rxFrameId = 0 ∧ s.dl.inflight = [] ∧ s.dl.discReported = false ∧
      s.status = List.replicate 10 0 ∧ s.txOut = [] ∧ s.frxOut = [] ∧ s.dlUp = [] ∧ s.portOut = [] ∧
      ∀ p, s.port p = .empty ∧
        s.sequencer p = { active := false, abuf := [], apd := 0, seqErrors := 0 })

/-- The invariants of R24, R25, R36, R41 and R43 hold when an instance is created, and so at this model's reset. -/
def Obligations.InvAtPowerOn : Prop :=
  (∀ mode cfg s, State.powerOn mode cfg = some s → s.Inv ∧ s.dl.Consecutive) ∧ State.reset.Inv

/-- Every step keeps the invariants of R24, R25 (the framer's buffer), R36 (window, buffer bytes, whole frames in flight), R41 (no null
handle) and R43 (the sequencers). -/
def Obligations.InvKept : Prop :=
  ∀ s t : State, s.Inv → step s = .next t → t.Inv

/-- R36's conditional invariant: the in-flight ids stay consecutive and end at tx_frame_id − 1, through every command that receives nothing
and through every link frame whose id is in range (or, for ACK_ONE, that of the oldest entry or of none); an acknowledgement then removes
a prefix, and every distance it compares lies within 1023. -/
def Obligations.ConsecutiveKept : Prop :=
  ∀ s t : State, s.cfg.wf = true → s.dl.Inv s.cfg → s.dl.Consecutive →
    (∀ i, receives i = false → (∀ now type fid, i ≠ .dlOnLink now type fid) → exec i s = .next t → t.dl.Consecutive) ∧
    (∀ now lt (x : Fid), AckInRange s lt x →
      exec (.dlOnLink now ((linkTypeCode lt).setWidth 8) (x.setWidth 16)) s = .next t →
        t.dl.Consecutive ∧
        (∃ k, t.dl.inflight.map (fun f => f.fid) = (s.dl.inflight.map fun f => f.fid).drop k) ∧
        (lt ≠ .reset → lt ≠ .ackOne → ∀ f ∈ s.dl.inflight,
          -1023 ≤ fidSub f.fid.toNat x.toNat ∧ fidSub f.fid.toNat x.toNat ≤ 1023)) ∧
    (∀ lt rsv x, s.frx.Searching → AckInRange s lt x → exec (wireLink lt rsv x) s = .next t → t.dl.Consecutive) ∧
    (∀ f ∈ s.dl.inflight, ∀ g ∈ s.dl.inflight,
      -1022 ≤ fidSub f.fid.toNat g.fid.toNat ∧ fidSub f.fid.toNat g.fid.toNat ≤ 1022)

/-- R199: the items a DL in unit mode passes upward for received bytes are, DISCONNECTED apart, exactly the FRAME events whose fid is the
one expected at that point and the RESETs, taken from the events a stand-alone FRX in the same state emits for the same bytes; and
whatever instruction runs, the expected id moves one for each delivery passed up and to 0 at each RESET. So deliveries come in the order
of their ids, none left out and none twice. -/
def Obligations.InOrderDelivery : Prop :=
  (∀ (now : U32) (bytes : List Byte) (s r : State), s.mode = .unit .dl → r.mode = .unit .frx → r.frx = s.frx →
    r.cfg.sof = s.cfg.sof → ∃ t r' items events,
      exec (.dlLlRecv now bytes) s = .next t ∧ t.dlUp = s.dlUp ++ items ∧
      execAll (bytes.map .frxByte) r = .next r' ∧ r'.frxOut = r.frxOut ++ events ∧
      items.filter (fun x => x != .event .disconnected) = deliveries s.dl.rxFrameId events) ∧
  (∀ (i : Instr) (s t : State), s.mode = .unit .dl → exec i s = .next t → ∃ items,
    t.dlUp = s.dlUp ++ items ∧ t.dl.rxFrameId = idAfter s.dl.rxFrameId items)

/-- What no instruction touches: the configuration (R32), the mode, the inputs pending; the port table but by TP_PORT_REGISTER (R41); what
has been put on a channel, which only grows (R272); FRX's framing state but by FRX_RESET and received bytes (R301); the channels of other
modes (R272); DL and the byte sink where a stand-alone FRX receives; and DL, FRX and the byte sink where a TP or SEQ command other than
TP_SEND runs (R20). -/
def Obligations.WholeMachineFrame : Prop :=
  ∀ (i : Instr) (s t : State), exec i s = .next t →
    t.cfg = s.cfg ∧ t.mode = s.mode ∧ t.inbox = s.inbox ∧
    s.txOut <+: t.txOut ∧ s.frxOut <+: t.frxOut ∧ s.dlUp <+: t.dlUp ∧ s.portOut <+: t.portOut ∧
    ((∀ p h, i ≠ .tpPortRegister p h) → t.ports = s.ports) ∧
    (receives i = false → i ≠ .frxReset →
      t.frx = { s.frx with crcErrors := t.frx.crcErrors, resync := t.frx.resync }) ∧
    (s.mode ≠ .unit .frx → t.frxOut = s.frxOut) ∧ (s.mode ≠ .unit .dl → t.dlUp = s.dlUp) ∧
    (s.mode = .unit .frx → (∃ b, i = .frxByte b) ∨ i.isWire = true → t.dl = s.dl ∧ t.txOut = s.txOut) ∧
    ((∃ p h, i = .tpPortRegister p h) ∨ (∃ m pl, i = .tpOnRecv m pl) ∨ (∃ ev, i = .tpOnEvent ev) ∨
        (∃ p sq pd pl, i = .seqPush p sq pd pl) ∨ (∃ p, i = .seqReset p) →
      t.dl = s.dl ∧ t.frx = s.frx ∧ t.txOut = s.txOut)

/-- R270: a command that answers a result other than OK has changed no state and produced no output: only the answer itself, and the model's
record of the host's `now` (log 4), differ. -/
def Obligations.FailureChangesNothing : Prop :=
  ∀ (i : Instr) (r : Result) (s t : State), exec i s = .next t → t.ret = .result r → r ≠ .ok →
    t = { s with ret := .result r, now := t.now }

/-- R321: FRX_BYTE ends within 269 × 268 steps; a DL_PROCESS or a NACK re-sends at most tx_window_size frames; TP_ON_EVENT emits at most 64
items; and every command ends. -/
def Obligations.WorkBounds : Prop :=
  ∀ s : State, s.Inv →
    (∀ b, ∃ n t, FrxRuns (frxSink s) n [b] { s with ret := .none } t ∧ exec (.frxByte b) s = .next t ∧ n ≤ 269 * 268) ∧
    (∀ i now fid, i = Instr.dlProcess now ∨ i = .dlOnLink now 4 fid ∨ i = .dlOnLink now 5 fid →
      ∃ t n, exec i s = .next t ∧ n ≤ s.cfg.txWindowSize.toNat ∧
        t.dl.txRetransmissions = s.dl.txRetransmissions + BitVec.ofNat 32 n) ∧
    (∀ ev t, exec (.tpOnEvent ev) s = .next t → t.portOut.length ≤ s.portOut.length + 64) ∧
    (∀ i, (∃ t, exec i s = .next t) ∨ ∃ r, exec i s = .refused r)

/-- R62, R279: every command that is not internal completes, in every state and with every operand: the host may issue it at any time. -/
def Obligations.HostCommandsComplete : Prop :=
  ∀ (i : Instr) (s : State),
    (∀ now t fid, i ≠ .dlOnLink now t fid) → (∀ ev, i ≠ .tpOnEvent ev) → (∀ p sq pd pl, i ≠ .seqPush p sq pd pl) →
    ∃ t, exec i s = .next t

/-! ## Two instances (spec/60_exceptions.md R287) -/

/-- R95, R287: WIRE gives the receiver all of the sender's bytes in one DL_LL_RECV and empties the sender's sink, and touches nothing else. -/
def Obligations.WireMovesBytes : Prop :=
  ∀ (a b b' : State) (now : U32), a.txOut.length < 2 ^ 16 → exec (.dlLlRecv now a.txOut) b = .next b' →
    runLine [("A", a), ("B", b)] (.wire "A" "B" now none) = some [("A", { a with txOut := [] }), ("B", b')]

/-- R182, R184, R186: over a line that loses nothing, a frame sent by A to a B that expects it is delivered by B exactly once, and the
acknowledgement that comes back empties A's list. A DL in unit mode delivers on DL_UP; any other passes the frame to its TP, which gives
it once to the port's handle, before what the port's sequencer makes of it, or drops it where the port is not registered (R231). -/
def Obligations.OneFrameExchanged : Prop :=
  ∀ (a b : State) (now nowB nowA : U32) (m : U24) (pl : List Byte), a.cfg.wf = true → b.cfg.wf = true →
    b.cfg.sof = a.cfg.sof → a.frx.Searching → b.frx.Searching →
    b.dl.rxFrameId = a.dl.txFrameId → a.dl.inflight = [] → a.txOut = [] → b.txOut = [] → 1 ≤ pl.length →
    pl.length ≤ 256 → 12 + pl.length ≤ a.cfg.txBufferSize.toNat →
    ∃ a1 b1 a2, exec (.dlSend now m pl) a = .next a1 ∧ a1.ret = .result .ok ∧
      exec (.dlLlRecv nowB a1.txOut) b = .next b1 ∧ exec (.dlLlRecv nowA b1.txOut) a1 = .next a2 ∧
      b1.dl.rxFrameId = b.dl.rxFrameId + 1 ∧
      (b.mode = .unit .dl → b1.dlUp = b.dlUp ++ [.recv m pl] ∧ b1.portOut = b.portOut) ∧
      (b.mode ≠ .unit .dl → b1.dlUp = b.dlUp ∧
        let p : PortId := BitVec.ofNat 6 (m.toNat % 64)
        (b.port p = .empty → b1.portOut = b.portOut) ∧
        (∀ h tag, b.port p = .reg h → (seqTagCode tag).toNat = m.toNat / 64 % 4 → ∃ msgs,
          b1.portOut = b.portOut ++ .recv p h tag (BitVec.ofNat 16 (m.toNat / 256)) pl :: msgs ∧
          (∀ x ∈ msgs, ∃ pd msg, x = .msg p h pd msg) ∧ (b.reasmEnabled p = false → msgs = []))) ∧
      a2.dl.inflight = [] ∧ a2.dl.txDataFrames = a.dl.txDataFrames + 1 ∧ a2.dl.txRetransmissions = a.dl.txRetransmissions
end

