-- ==== Sys2Proof/Laws/Bytes.lean ====
section
/-! SUPPORT. Byte order and frame fields: packing and unpacking are inverse, and the lengths of fields and frames. -/

namespace Sys2Proof.Machine

/-! ## Bits of the packed fields -/

/-- Bit i of LE16, by byte. -/
theorem getLsbD_fromLe16 (a b : Byte) (i : Nat) :
    (fromLe16 a b).getLsbD i = if i < 8 then a.getLsbD i else b.getLsbD (i - 8) :=
  BitVec.getLsbD_append

/-- Bit i of LE24, by byte. -/
theorem getLsbD_fromLe24 (a b c : Byte) (i : Nat) :
    (fromLe24 a b c).getLsbD i =
      if i < 8 then a.getLsbD i else if i < 16 then b.getLsbD (i - 8) else c.getLsbD (i - 16) := by
  refine (BitVec.getLsbD_append (x := c ++ b) (y := a)).trans ?_
  simp only [BitVec.getLsbD_append]
  split
  · rfl
  · by_cases h : i < 16
    · rw [if_pos h, if_pos (by omega)]
    · rw [if_neg h, if_neg (by omega), Nat.sub_sub]

/-- Bit i of LE32, by byte. -/
theorem getLsbD_fromLe32 (a b c d : Byte) (i : Nat) :
    (fromLe32 a b c d).getLsbD i =
      if i < 8 then a.getLsbD i else if i < 16 then b.getLsbD (i - 8) else if i < 24 then c.getLsbD (i - 16)
      else d.getLsbD (i - 24) := by
  refine (BitVec.getLsbD_append (x := d ++ c ++ b) (y := a)).trans ?_
  simp only [BitVec.getLsbD_append]
  split
  · rfl
  · by_cases h : i < 16
    · rw [if_pos h, if_pos (by omega)]
    · rw [if_neg h, if_neg (by omega)]
      by_cases h : i < 24
      · rw [if_pos h, if_pos (by omega), Nat.sub_sub]
      · rw [if_neg h, if_neg (by omega), Nat.sub_sub, Nat.sub_sub]

/-- Bit i of byte 2, by field (R82). -/
theorem getLsbD_packByte2 (c : BitVec 3) (r : BitVec 2) (fid : Fid) (i : Nat) :
    (packByte2 c r fid).getLsbD i =
      if i < 3 then fid.getLsbD (8 + i) else if i < 5 then r.getLsbD (i - 3) else c.getLsbD (i - 5) := by
  refine (BitVec.getLsbD_append (x := c ++ r) (y := fid.extractLsb' 8 3)).trans ?_
  simp only [BitVec.getLsbD_append, BitVec.getLsbD_extractLsb']
  split
  · simp [*]
  · by_cases h : i < 5
    · rw [if_pos h, if_pos (by omega)]
    · rw [if_neg h, if_neg (by omega), Nat.sub_sub]

/-- Bit i of a frame id read from its two bytes (R85). -/
theorem getLsbD_unpackFid (b2 low : Byte) (i : Nat) :
    (unpackFid b2 low).getLsbD i = if i < 8 then low.getLsbD i else (decide (i - 8 < 3) && b2.getLsbD (i - 8)) := by
  refine (BitVec.getLsbD_append (x := b2.extractLsb' 0 3) (y := low)).trans ?_
  simp only [BitVec.getLsbD_extractLsb', Nat.zero_add]

/-- Bit i of the metadata, by field (R89). -/
theorem getLsbD_packMetadata (p : PortId) (t : SeqTag) (pd : U16) (i : Nat) :
    (packMetadata p t pd).getLsbD i =
      if i < 6 then p.getLsbD i else if i < 8 then (seqTagCode t).getLsbD (i - 6) else pd.getLsbD (i - 8) := by
  refine (BitVec.getLsbD_append (x := pd ++ seqTagCode t) (y := p)).trans ?_
  simp only [BitVec.getLsbD_append]
  split
  · rfl
  · by_cases h : i < 8
    · rw [if_pos h, if_pos (by omega)]
    · rw [if_neg h, if_neg (by omega), Nat.sub_sub]

/-! ## Little-endian fields -/

@[simp] theorem fromLe16_bytes (v : U16) :
    fromLe16 (v.extractLsb' 0 8) (v.extractLsb' 8 8) = v := by
  apply BitVec.eq_of_getLsbD_eq
  intro i hi
  simp only [getLsbD_fromLe16, BitVec.getLsbD_extractLsb']
  split_ifs <;> (rw [decide_eq_true (by omega), Bool.true_and]; congr 1; omega)

@[simp] theorem fromLe24_bytes (v : U24) :
    fromLe24 (v.extractLsb' 0 8) (v.extractLsb' 8 8) (v.extractLsb' 16 8) = v := by
  apply BitVec.eq_of_getLsbD_eq
  intro i hi
  simp only [getLsbD_fromLe24, BitVec.getLsbD_extractLsb']
  split_ifs <;> (rw [decide_eq_true (by omega), Bool.true_and]; congr 1; omega)

@[simp] theorem fromLe32_bytes (v : U32) :
    fromLe32 (v.extractLsb' 0 8) (v.extractLsb' 8 8) (v.extractLsb' 16 8) (v.extractLsb' 24 8) = v := by
  apply BitVec.eq_of_getLsbD_eq
  intro i hi
  simp only [getLsbD_fromLe32, BitVec.getLsbD_extractLsb']
  split_ifs <;> (rw [decide_eq_true (by omega), Bool.true_and]; congr 1; omega)

@[simp] theorem toLe16_fromLe16 (a b : Byte) : toLe16 (fromLe16 a b) = [a, b] := by
  simp only [toLe16, List.cons.injEq, and_true]
  refine ⟨?_, ?_⟩ <;>
    apply BitVec.eq_of_getLsbD_eq <;> intro i hi <;>
    simp only [BitVec.getLsbD_extractLsb', getLsbD_fromLe16, hi, decide_true, Bool.true_and] <;>
    split_ifs <;> first | omega | (congr 1; omega)

@[simp] theorem toLe24_fromLe24 (a b c : Byte) : toLe24 (fromLe24 a b c) = [a, b, c] := by
  simp only [toLe24, List.cons.injEq, and_true]
  refine ⟨?_, ?_, ?_⟩ <;>
    apply BitVec.eq_of_getLsbD_eq <;> intro i hi <;>
    simp only [BitVec.getLsbD_extractLsb', getLsbD_fromLe24, hi, decide_true, Bool.true_and] <;>
    split_ifs <;> first | omega | (congr 1; omega)

@[simp] theorem toLe32_fromLe32 (a b c d : Byte) : toLe32 (fromLe32 a b c d) = [a, b, c, d] := by
  simp only [toLe32, List.cons.injEq, and_true]
  refine ⟨?_, ?_, ?_, ?_⟩ <;>
    apply BitVec.eq_of_getLsbD_eq <;> intro i hi <;>
    simp only [BitVec.getLsbD_extractLsb', getLsbD_fromLe32, hi, decide_true, Bool.true_and] <;>
    split_ifs <;> first | omega | (congr 1; omega)

@[simp] theorem toLe16_length (v : U16) : (toLe16 v).length = 2 := rfl
@[simp] theorem toLe24_length (v : U24) : (toLe24 v).length = 3 := rfl
@[simp] theorem toLe32_length (v : U32) : (toLe32 v).length = 4 := rfl

/-! ## Splitting -/

/-- Splitting off as many bytes as stand in front. -/
@[simp] theorem splitBytes_append (front rest : List Byte) : splitBytes front.length (front ++ rest) = some (front, rest) := by
  induction front with
  | nil => rfl
  | cons b front ih => simp [splitBytes, ih]

/-- What a successful split says: the parts joined are the whole, and the front has the length asked for. -/
theorem splitBytes_some {n : Nat} {bytes front rest : List Byte} (h : splitBytes n bytes = some (front, rest)) :
    bytes = front ++ rest ∧ front.length = n := by
  induction n generalizing bytes front rest with
  | zero => simp [splitBytes] at h; simp [h]
  | succ n ih =>
    cases bytes with
    | nil => simp [splitBytes] at h
    | cons b bytes =>
      simp only [splitBytes] at h
      split at h
      · rename_i f r hr
        simp only [Option.some.injEq, Prod.mk.injEq] at h
        obtain ⟨rfl, rfl⟩ := h
        obtain ⟨h1, h2⟩ := ih hr
        simp [h1, h2]
      · simp at h

/-! ## Codes -/

/-- A link type's code selects that link type (R83). -/
@[simp] theorem frameKindOfCode_linkTypeCode (t : LinkType) : frameKindOfCode (linkTypeCode t) = .link t := by
  cases t <;> rfl

@[simp] theorem frameKindOfCode_data : frameKindOfCode 0b000 = .data := rfl

/-- A code that selects a link type is that type's code (R83). -/
theorem frameKindOfCode_link {c : BitVec 3} {t : LinkType} (h : frameKindOfCode c = .link t) : c = linkTypeCode t := by
  revert c; cases t <;> decide

/-- A code that selects DATA is 0 (R83). -/
theorem frameKindOfCode_eq_data {c : BitVec 3} (h : frameKindOfCode c = .data) : c = 0 := by
  revert c; decide

/-- The invalid codes are 0b010 and 0b111 (R83). -/
theorem frameKindOfCode_eq_invalid {c : BitVec 3} : frameKindOfCode c = .invalid ↔ c = 0b010 ∨ c = 0b111 := by
  revert c; decide

@[simp] theorem seqTagOfCode_seqTagCode (t : SeqTag) : seqTagOfCode (seqTagCode t) = t := by
  cases t <;> rfl

@[simp] theorem seqTagCode_seqTagOfCode (c : BitVec 2) : seqTagCode (seqTagOfCode c) = c := by
  revert c; decide

/-! ## Byte 2 and the frame id -/

@[simp] theorem packByte2_code (c : BitVec 3) (r : BitVec 2) (fid : Fid) : (packByte2 c r fid).extractLsb' 5 3 = c := by
  apply BitVec.eq_of_getLsbD_eq
  intro i hi
  simp only [BitVec.getLsbD_extractLsb', getLsbD_packByte2, hi, decide_true, Bool.true_and]
  split_ifs <;> first | omega | (congr 1; omega)

@[simp] theorem rsvOf_packByte2 (c : BitVec 3) (r : BitVec 2) (fid : Fid) : rsvOf (packByte2 c r fid) = r := by
  unfold rsvOf
  apply BitVec.eq_of_getLsbD_eq
  intro i hi
  simp only [BitVec.getLsbD_extractLsb', getLsbD_packByte2, hi, decide_true, Bool.true_and]
  split_ifs <;> first | omega | (congr 1; omega)

@[simp] theorem unpackFid_packByte2 (c : BitVec 3) (r : BitVec 2) (fid : Fid) :
    unpackFid (packByte2 c r fid) (fidLow fid) = fid := by
  unfold fidLow
  apply BitVec.eq_of_getLsbD_eq
  intro i hi
  simp only [getLsbD_unpackFid, getLsbD_packByte2, BitVec.getLsbD_extractLsb']
  split_ifs
  · rw [decide_eq_true (by omega), Bool.true_and]; congr 1; omega
  · rw [decide_eq_true (by omega), Bool.true_and]; congr 1; omega
  all_goals omega

/-- Byte 2 is its three fields (R82). -/
theorem packByte2_fields (b2 low : Byte) : packByte2 (b2.extractLsb' 5 3) (rsvOf b2) (unpackFid b2 low) = b2 := by
  unfold rsvOf
  apply BitVec.eq_of_getLsbD_eq
  intro i hi
  simp only [getLsbD_packByte2, getLsbD_unpackFid, BitVec.getLsbD_extractLsb']
  split_ifs
  · omega
  · rw [decide_eq_true (by omega), Bool.true_and]; congr 1; omega
  · rw [decide_eq_true (by omega), Bool.true_and]; congr 1; omega
  · rw [decide_eq_true (by omega), Bool.true_and]; congr 1; omega

/-- The low byte is the rest of the id (R85). -/
@[simp] theorem fidLow_unpackFid (b2 low : Byte) : fidLow (unpackFid b2 low) = low := by
  unfold fidLow
  apply BitVec.eq_of_getLsbD_eq
  intro i hi
  simp only [getLsbD_unpackFid, BitVec.getLsbD_extractLsb']
  split_ifs
  · rw [decide_eq_true (by omega), Bool.true_and]; congr 1; omega
  · omega

/-- The kind of a packed byte 2 is that of its code (R120). -/
@[simp] theorem kind_packByte2 (c : BitVec 3) (r : BitVec 2) (fid : Fid) : kind (packByte2 c r fid) = frameKindOfCode c := by
  simp [kind]

/-! ## Frames -/

@[simp] theorem dataBody_length (rsv : BitVec 2) (fid : Fid) (m : U24) (pl : List Byte) :
    (dataBody rsv fid m pl).length = 6 + pl.length := by
  simp [dataBody]; omega

@[simp] theorem dataFrame_length (sof : Byte) (rsv : BitVec 2) (fid : Fid) (m : U24) (pl : List Byte) :
    (dataFrame sof rsv fid m pl).length = frameOverhead + pl.length := by
  simp [dataFrame, frameOverhead]; omega

@[simp] theorem linkFrame_length (sof : Byte) (rsv : BitVec 2) (t : LinkType) (fid : Fid) :
    (linkFrame sof rsv t fid).length = headerLen := rfl

/-- The length byte of a payload of 1 to 256 bytes gives its length back (R80, R85). -/
theorem lengthByte (n : Nat) (h1 : 1 ≤ n) (h2 : n ≤ maxPayload) : (BitVec.ofNat 8 (n - 1)).toNat + 1 = n := by
  simp only [maxPayload] at h2
  simp only [BitVec.toNat_ofNat]; omega

/-! ## Metadata -/

@[simp] theorem metadataPort_pack (p : PortId) (t : SeqTag) (pd : U16) : metadataPort (packMetadata p t pd) = p := by
  unfold metadataPort
  apply BitVec.eq_of_getLsbD_eq
  intro i hi
  simp only [BitVec.getLsbD_extractLsb', getLsbD_packMetadata, hi, decide_true, Bool.true_and]
  split_ifs <;> first | omega | (congr 1; omega)

@[simp] theorem metadataPortData_pack (p : PortId) (t : SeqTag) (pd : U16) : metadataPortData (packMetadata p t pd) = pd := by
  unfold metadataPortData
  apply BitVec.eq_of_getLsbD_eq
  intro i hi
  simp only [BitVec.getLsbD_extractLsb', getLsbD_packMetadata, hi, decide_true, Bool.true_and]
  split_ifs <;> first | omega | (congr 1; omega)

@[simp] theorem metadataSeq_pack (p : PortId) (t : SeqTag) (pd : U16) : metadataSeq (packMetadata p t pd) = t := by
  have h : (packMetadata p t pd).extractLsb' 6 2 = seqTagCode t := by
    apply BitVec.eq_of_getLsbD_eq
    intro i hi
    simp only [BitVec.getLsbD_extractLsb', getLsbD_packMetadata, hi, decide_true, Bool.true_and]
    split_ifs <;> first | omega | (congr 1; omega)
  rw [metadataSeq, h, seqTagOfCode_seqTagCode]

/-! ## Frame-id arithmetic -/

/-- FID_INC of a frame id is its successor mod 2048 (R171). -/
@[simp] theorem fidInc_toNat (f : Fid) : fidInc f.toNat = f + 1 := by
  apply BitVec.eq_of_toNat_eq
  simp [fidInc, BitVec.toNat_add]

/-- The distance lies in −1024..1024 (R170). -/
theorem fidSub_bounds (a b : Nat) : -1024 ≤ fidSub a b ∧ fidSub a b ≤ 1024 := by
  simp only [fidSub, frameIdSpace]; split <;> [skip; split] <;> omega

end Sys2Proof.Machine
end

