-- ==== Sys2Proof/Laws/Decode.lean ====
section
/-! SUPPORT. The decoder's parts: the opcode table has no two rows alike, and each field reader takes back what the encoder
writes and nothing more. -/

namespace Sys2Proof

open Machine

/-- Each opcode byte is read as its own opcode (R91). -/
@[simp] theorem opcodeOfByte_opcodeByte (o : Opcode) : opcodeOfByte (opcodeByte o) = some o := by
  cases o <;> rfl

/-- A byte read as an opcode is that opcode's byte (R91, R92). -/
theorem opcodeByte_of_opcodeOfByte {b : Byte} {o : Opcode} (h : opcodeOfByte b = some o) : b = opcodeByte o := by
  have := List.find?_some h
  simpa using (beq_iff_eq.mp this).symm

/-- No two rows of the table share an opcode byte (R91). -/
theorem opcodeTable_distinct : opcodeTable.Pairwise (fun a b => opcodeByte a ≠ opcodeByte b) := by decide

@[simp] theorem readByte_cons (b : Byte) (rest : List Byte) : readByte (b :: rest) = .ok (b, rest) := rfl

@[simp] theorem readU16_append (v : U16) (rest : List Byte) : readU16 (toLe16 v ++ rest) = .ok (v, rest) := by
  simp [toLe16, readU16]

@[simp] theorem readU24_append (v : U24) (rest : List Byte) : readU24 (toLe24 v ++ rest) = .ok (v, rest) := by
  simp [toLe24, readU24]

@[simp] theorem readU32_append (v : U32) (rest : List Byte) : readU32 (toLe32 v ++ rest) = .ok (v, rest) := by
  simp [toLe32, readU32]

/-- A byte list whose count fits is read back (R90). -/
theorem readCounted_append {bytes : List Byte} (h : countFits bytes = true) (rest : List Byte) :
    readCounted (encodeCounted bytes ++ rest) = .ok (bytes, rest) := by
  have hn : (BitVec.ofNat 16 bytes.length).toNat = bytes.length := by
    simp only [countFits, decide_eq_true_eq] at h
    simp only [BitVec.toNat_ofNat]; omega
  simp only [readCounted, encodeCounted, List.append_assoc, readU16_append, hn, splitBytes_append]

/-! The same with nothing after the field. -/

@[simp] theorem readU16_bytes (v : U16) : readU16 (toLe16 v) = .ok (v, []) := by
  simpa using readU16_append v []

@[simp] theorem readU24_bytes (v : U24) : readU24 (toLe24 v) = .ok (v, []) := by
  simpa using readU24_append v []

@[simp] theorem readU32_bytes (v : U32) : readU32 (toLe32 v) = .ok (v, []) := by
  simpa using readU32_append v []

theorem readCounted_bytes {bytes : List Byte} (h : countFits bytes = true) :
    readCounted (encodeCounted bytes) = .ok (bytes, []) := by
  simpa using readCounted_append h []

/-! What each reader's success says about the bytes. -/

theorem readByte_ok {bytes rest : List Byte} {b : Byte} (h : readByte bytes = .ok (b, rest)) : bytes = b :: rest := by
  cases bytes <;> simp_all [readByte]

theorem readU16_ok {bytes rest : List Byte} {v : U16} (h : readU16 bytes = .ok (v, rest)) :
    bytes = toLe16 v ++ rest := by
  unfold readU16 at h
  split at h
  · simp only [Except.ok.injEq, Prod.mk.injEq] at h
    obtain ⟨rfl, rfl⟩ := h
    simp
  · simp at h

theorem readU24_ok {bytes rest : List Byte} {v : U24} (h : readU24 bytes = .ok (v, rest)) :
    bytes = toLe24 v ++ rest := by
  unfold readU24 at h
  split at h
  · simp only [Except.ok.injEq, Prod.mk.injEq] at h
    obtain ⟨rfl, rfl⟩ := h
    simp
  · simp at h

theorem readU32_ok {bytes rest : List Byte} {v : U32} (h : readU32 bytes = .ok (v, rest)) :
    bytes = toLe32 v ++ rest := by
  unfold readU32 at h
  split at h
  · simp only [Except.ok.injEq, Prod.mk.injEq] at h
    obtain ⟨rfl, rfl⟩ := h
    simp
  · simp at h

theorem readCounted_ok {bytes rest list : List Byte} (h : readCounted bytes = .ok (list, rest)) :
    bytes = encodeCounted list ++ rest ∧ countFits list = true := by
  unfold readCounted at h
  split at h
  · simp at h
  · rename_i n r hn
    split at h
    · rename_i p hp
      simp only [Except.ok.injEq] at h
      subst h
      obtain ⟨h1, h2⟩ := splitBytes_some hp
      refine ⟨?_, ?_⟩
      · rw [readU16_ok hn, h1, encodeCounted, h2]; simp
      · simp only [countFits, decide_eq_true_eq, h2]; exact n.isLt
    · simp at h

/-! The readers as equivalences, for rewriting. -/

theorem readByte_iff {bytes : List Byte} {p : Byte × List Byte} : readByte bytes = .ok p ↔ bytes = p.1 :: p.2 :=
  ⟨fun h => readByte_ok h, fun h => by subst h; simp⟩

theorem readU16_iff {bytes : List Byte} {p : U16 × List Byte} : readU16 bytes = .ok p ↔ bytes = toLe16 p.1 ++ p.2 :=
  ⟨fun h => readU16_ok h, fun h => by subst h; simp⟩

theorem readU24_iff {bytes : List Byte} {p : U24 × List Byte} : readU24 bytes = .ok p ↔ bytes = toLe24 p.1 ++ p.2 :=
  ⟨fun h => readU24_ok h, fun h => by subst h; simp⟩

theorem readU32_iff {bytes : List Byte} {p : U32 × List Byte} : readU32 bytes = .ok p ↔ bytes = toLe32 p.1 ++ p.2 :=
  ⟨fun h => readU32_ok h, fun h => by subst h; simp⟩

theorem readCounted_iff {bytes : List Byte} {p : List Byte × List Byte} :
    readCounted bytes = .ok p ↔ bytes = encodeCounted p.1 ++ p.2 ∧ countFits p.1 = true :=
  ⟨fun h => readCounted_ok h, fun h => by rw [h.1, readCounted_append h.2]⟩

/-- A record or frame read exactly is the whole of its bytes. -/
theorem exactly_ok {r : Except DecodeError (Instr × List Byte)} {i : Instr} (h : exactly r = .ok i) : r = .ok (i, []) := by
  unfold exactly at h
  split at h <;> simp_all

end Sys2Proof
end

