-- ==== Sys2Proof/Laws/State.lean ====
section
/-! SUPPORT. The small lemmas of the state and its updates: one lemma per field per update, so that no proof unfolds a record
update, and the laws of reading back the port table and the sequencers. -/

namespace Sys2Proof.Machine

section
variable (s : State)
@[simp] theorem State.begin_mode : s.begin.mode = s.mode := rfl
@[simp] theorem State.begin_cfg : s.begin.cfg = s.cfg := rfl
@[simp] theorem State.begin_frx : s.begin.frx = s.frx := rfl
@[simp] theorem State.begin_dl : s.begin.dl = s.dl := rfl
@[simp] theorem State.begin_ports : s.begin.ports = s.ports := rfl
@[simp] theorem State.begin_seqs : s.begin.seqs = s.seqs := rfl
@[simp] theorem State.begin_txOut : s.begin.txOut = s.txOut := rfl
@[simp] theorem State.begin_frxOut : s.begin.frxOut = s.frxOut := rfl
@[simp] theorem State.begin_dlUp : s.begin.dlUp = s.dlUp := rfl
@[simp] theorem State.begin_portOut : s.begin.portOut = s.portOut := rfl
@[simp] theorem State.begin_inbox : s.begin.inbox = s.inbox := rfl
@[simp] theorem State.begin_now : s.begin.now = s.now := rfl
@[simp] theorem State.begin_ret : s.begin.ret = .none := rfl
end

section
variable (now : U32) (s : State)
@[simp] theorem State.beginAt_mode : (s.beginAt now).mode = s.mode := rfl
@[simp] theorem State.beginAt_cfg : (s.beginAt now).cfg = s.cfg := rfl
@[simp] theorem State.beginAt_frx : (s.beginAt now).frx = s.frx := rfl
@[simp] theorem State.beginAt_dl : (s.beginAt now).dl = s.dl := rfl
@[simp] theorem State.beginAt_ports : (s.beginAt now).ports = s.ports := rfl
@[simp] theorem State.beginAt_seqs : (s.beginAt now).seqs = s.seqs := rfl
@[simp] theorem State.beginAt_txOut : (s.beginAt now).txOut = s.txOut := rfl
@[simp] theorem State.beginAt_frxOut : (s.beginAt now).frxOut = s.frxOut := rfl
@[simp] theorem State.beginAt_dlUp : (s.beginAt now).dlUp = s.dlUp := rfl
@[simp] theorem State.beginAt_portOut : (s.beginAt now).portOut = s.portOut := rfl
@[simp] theorem State.beginAt_inbox : (s.beginAt now).inbox = s.inbox := rfl
@[simp] theorem State.beginAt_now : (s.beginAt now).now = now := rfl
@[simp] theorem State.beginAt_ret : (s.beginAt now).ret = .none := rfl
end

section
variable (v : Ret) (s : State)
@[simp] theorem State.answer_mode : (s.answer v).mode = s.mode := rfl
@[simp] theorem State.answer_cfg : (s.answer v).cfg = s.cfg := rfl
@[simp] theorem State.answer_frx : (s.answer v).frx = s.frx := rfl
@[simp] theorem State.answer_dl : (s.answer v).dl = s.dl := rfl
@[simp] theorem State.answer_ports : (s.answer v).ports = s.ports := rfl
@[simp] theorem State.answer_seqs : (s.answer v).seqs = s.seqs := rfl
@[simp] theorem State.answer_txOut : (s.answer v).txOut = s.txOut := rfl
@[simp] theorem State.answer_frxOut : (s.answer v).frxOut = s.frxOut := rfl
@[simp] theorem State.answer_dlUp : (s.answer v).dlUp = s.dlUp := rfl
@[simp] theorem State.answer_portOut : (s.answer v).portOut = s.portOut := rfl
@[simp] theorem State.answer_inbox : (s.answer v).inbox = s.inbox := rfl
@[simp] theorem State.answer_now : (s.answer v).now = s.now := rfl
@[simp] theorem State.answer_ret : (s.answer v).ret = v := rfl
end

section
variable (r : Result) (s : State)
@[simp] theorem raiseResult_mode : (raiseResult r s).mode = s.mode := rfl
@[simp] theorem raiseResult_cfg : (raiseResult r s).cfg = s.cfg := rfl
@[simp] theorem raiseResult_frx : (raiseResult r s).frx = s.frx := rfl
@[simp] theorem raiseResult_dl : (raiseResult r s).dl = s.dl := rfl
@[simp] theorem raiseResult_ports : (raiseResult r s).ports = s.ports := rfl
@[simp] theorem raiseResult_seqs : (raiseResult r s).seqs = s.seqs := rfl
@[simp] theorem raiseResult_txOut : (raiseResult r s).txOut = s.txOut := rfl
@[simp] theorem raiseResult_frxOut : (raiseResult r s).frxOut = s.frxOut := rfl
@[simp] theorem raiseResult_dlUp : (raiseResult r s).dlUp = s.dlUp := rfl
@[simp] theorem raiseResult_portOut : (raiseResult r s).portOut = s.portOut := rfl
@[simp] theorem raiseResult_inbox : (raiseResult r s).inbox = s.inbox := rfl
@[simp] theorem raiseResult_now : (raiseResult r s).now = s.now := rfl
@[simp] theorem raiseResult_ret : (raiseResult r s).ret = .result r := rfl
end

section
variable (bs : List Byte) (s : State)
@[simp] theorem txPut_mode : (txPut bs s).mode = s.mode := rfl
@[simp] theorem txPut_cfg : (txPut bs s).cfg = s.cfg := rfl
@[simp] theorem txPut_frx : (txPut bs s).frx = s.frx := rfl
@[simp] theorem txPut_dl : (txPut bs s).dl = { s.dl with txBytes := s.dl.txBytes + BitVec.ofNat 32 bs.length } := rfl
@[simp] theorem txPut_ports : (txPut bs s).ports = s.ports := rfl
@[simp] theorem txPut_seqs : (txPut bs s).seqs = s.seqs := rfl
@[simp] theorem txPut_txOut : (txPut bs s).txOut = s.txOut ++ bs := rfl
@[simp] theorem txPut_frxOut : (txPut bs s).frxOut = s.frxOut := rfl
@[simp] theorem txPut_dlUp : (txPut bs s).dlUp = s.dlUp := rfl
@[simp] theorem txPut_portOut : (txPut bs s).portOut = s.portOut := rfl
@[simp] theorem txPut_inbox : (txPut bs s).inbox = s.inbox := rfl
@[simp] theorem txPut_now : (txPut bs s).now = s.now := rfl
@[simp] theorem txPut_ret : (txPut bs s).ret = s.ret := rfl
end

section
variable (e : FrxEvent) (s : State)
@[simp] theorem emitFrx_mode : (emitFrx e s).mode = s.mode := rfl
@[simp] theorem emitFrx_cfg : (emitFrx e s).cfg = s.cfg := rfl
@[simp] theorem emitFrx_frx : (emitFrx e s).frx = s.frx := rfl
@[simp] theorem emitFrx_dl : (emitFrx e s).dl = s.dl := rfl
@[simp] theorem emitFrx_ports : (emitFrx e s).ports = s.ports := rfl
@[simp] theorem emitFrx_seqs : (emitFrx e s).seqs = s.seqs := rfl
@[simp] theorem emitFrx_txOut : (emitFrx e s).txOut = s.txOut := rfl
@[simp] theorem emitFrx_frxOut : (emitFrx e s).frxOut = s.frxOut ++ [e] := rfl
@[simp] theorem emitFrx_dlUp : (emitFrx e s).dlUp = s.dlUp := rfl
@[simp] theorem emitFrx_portOut : (emitFrx e s).portOut = s.portOut := rfl
@[simp] theorem emitFrx_inbox : (emitFrx e s).inbox = s.inbox := rfl
@[simp] theorem emitFrx_now : (emitFrx e s).now = s.now := rfl
@[simp] theorem emitFrx_ret : (emitFrx e s).ret = s.ret := rfl
end

section
variable (i : DlUpItem) (s : State)
@[simp] theorem emitUp_mode : (emitUp i s).mode = s.mode := rfl
@[simp] theorem emitUp_cfg : (emitUp i s).cfg = s.cfg := rfl
@[simp] theorem emitUp_frx : (emitUp i s).frx = s.frx := rfl
@[simp] theorem emitUp_dl : (emitUp i s).dl = s.dl := rfl
@[simp] theorem emitUp_ports : (emitUp i s).ports = s.ports := rfl
@[simp] theorem emitUp_seqs : (emitUp i s).seqs = s.seqs := rfl
@[simp] theorem emitUp_txOut : (emitUp i s).txOut = s.txOut := rfl
@[simp] theorem emitUp_frxOut : (emitUp i s).frxOut = s.frxOut := rfl
@[simp] theorem emitUp_dlUp : (emitUp i s).dlUp = s.dlUp ++ [i] := rfl
@[simp] theorem emitUp_portOut : (emitUp i s).portOut = s.portOut := rfl
@[simp] theorem emitUp_inbox : (emitUp i s).inbox = s.inbox := rfl
@[simp] theorem emitUp_now : (emitUp i s).now = s.now := rfl
@[simp] theorem emitUp_ret : (emitUp i s).ret = s.ret := rfl
end

section
variable (is : List PortItem) (s : State)
@[simp] theorem emitPort_mode : (emitPort is s).mode = s.mode := rfl
@[simp] theorem emitPort_cfg : (emitPort is s).cfg = s.cfg := rfl
@[simp] theorem emitPort_frx : (emitPort is s).frx = s.frx := rfl
@[simp] theorem emitPort_dl : (emitPort is s).dl = s.dl := rfl
@[simp] theorem emitPort_ports : (emitPort is s).ports = s.ports := rfl
@[simp] theorem emitPort_seqs : (emitPort is s).seqs = s.seqs := rfl
@[simp] theorem emitPort_txOut : (emitPort is s).txOut = s.txOut := rfl
@[simp] theorem emitPort_frxOut : (emitPort is s).frxOut = s.frxOut := rfl
@[simp] theorem emitPort_dlUp : (emitPort is s).dlUp = s.dlUp := rfl
@[simp] theorem emitPort_portOut : (emitPort is s).portOut = s.portOut ++ is := rfl
@[simp] theorem emitPort_inbox : (emitPort is s).inbox = s.inbox := rfl
@[simp] theorem emitPort_now : (emitPort is s).now = s.now := rfl
@[simp] theorem emitPort_ret : (emitPort is s).ret = s.ret := rfl
end

section
variable (p : PortId) (e : PortEntry) (s : State)
@[simp] theorem State.setPort_mode : (s.setPort p e).mode = s.mode := rfl
@[simp] theorem State.setPort_cfg : (s.setPort p e).cfg = s.cfg := rfl
@[simp] theorem State.setPort_frx : (s.setPort p e).frx = s.frx := rfl
@[simp] theorem State.setPort_dl : (s.setPort p e).dl = s.dl := rfl
@[simp] theorem State.setPort_ports : (s.setPort p e).ports = s.ports.set p.toNat e p.isLt := rfl
@[simp] theorem State.setPort_seqs : (s.setPort p e).seqs = s.seqs := rfl
@[simp] theorem State.setPort_txOut : (s.setPort p e).txOut = s.txOut := rfl
@[simp] theorem State.setPort_frxOut : (s.setPort p e).frxOut = s.frxOut := rfl
@[simp] theorem State.setPort_dlUp : (s.setPort p e).dlUp = s.dlUp := rfl
@[simp] theorem State.setPort_portOut : (s.setPort p e).portOut = s.portOut := rfl
@[simp] theorem State.setPort_inbox : (s.setPort p e).inbox = s.inbox := rfl
@[simp] theorem State.setPort_now : (s.setPort p e).now = s.now := rfl
@[simp] theorem State.setPort_ret : (s.setPort p e).ret = s.ret := rfl
end

section
variable (p : PortId) (q : Sequencer) (s : State)
@[simp] theorem State.setSequencer_mode : (s.setSequencer p q).mode = s.mode := rfl
@[simp] theorem State.setSequencer_cfg : (s.setSequencer p q).cfg = s.cfg := rfl
@[simp] theorem State.setSequencer_frx : (s.setSequencer p q).frx = s.frx := rfl
@[simp] theorem State.setSequencer_dl : (s.setSequencer p q).dl = s.dl := rfl
@[simp] theorem State.setSequencer_ports : (s.setSequencer p q).ports = s.ports := rfl
@[simp] theorem State.setSequencer_seqs : (s.setSequencer p q).seqs = s.seqs.set p.toNat q p.isLt := rfl
@[simp] theorem State.setSequencer_txOut : (s.setSequencer p q).txOut = s.txOut := rfl
@[simp] theorem State.setSequencer_frxOut : (s.setSequencer p q).frxOut = s.frxOut := rfl
@[simp] theorem State.setSequencer_dlUp : (s.setSequencer p q).dlUp = s.dlUp := rfl
@[simp] theorem State.setSequencer_portOut : (s.setSequencer p q).portOut = s.portOut := rfl
@[simp] theorem State.setSequencer_inbox : (s.setSequencer p q).inbox = s.inbox := rfl
@[simp] theorem State.setSequencer_now : (s.setSequencer p q).now = s.now := rfl
@[simp] theorem State.setSequencer_ret : (s.setSequencer p q).ret = s.ret := rfl
end

/-! ## Reading back -/

@[simp] theorem State.port_setPort (p q : PortId) (e : PortEntry) (s : State) :
    (s.setPort p e).port q = if p = q then e else s.port q := by
  simp only [State.port, State.setPort, Vector.getElem_set, BitVec.toNat_inj]

@[simp] theorem State.sequencer_setSequencer (p q : PortId) (r : Sequencer) (s : State) :
    (s.setSequencer p r).sequencer q = if p = q then r else s.sequencer q := by
  simp only [State.sequencer, State.setSequencer, Vector.getElem_set, BitVec.toNat_inj]

@[simp] theorem State.setSequencer_self (p : PortId) (s : State) : s.setSequencer p (s.sequencer p) = s := by
  simp [State.setSequencer, State.sequencer]

/-- Two states with the same port table read the same ports. -/
theorem State.port_congr {s t : State} (h : t.ports = s.ports) (p : PortId) : t.port p = s.port p := by
  simp only [State.port, h]

/-- Two states with the same sequencers read the same sequencers. -/
theorem State.sequencer_congr {s t : State} (h : t.seqs = s.seqs) (p : PortId) : t.sequencer p = s.sequencer p := by
  simp only [State.sequencer, h]

/-- REASM_ENABLE is configuration. -/
theorem State.reasmEnabled_congr {s t : State} (h : t.cfg = s.cfg) (p : PortId) :
    t.reasmEnabled p = s.reasmEnabled p := by
  simp only [State.reasmEnabled, h]

/-- REASM_MAX is configuration. -/
theorem State.reasmMax_congr {s t : State} (h : t.cfg = s.cfg) (p : PortId) : t.reasmMax p = s.reasmMax p := by
  simp only [State.reasmMax, h]

/-- Every port stands in the list of ports, once. -/
theorem mem_allPorts (p : PortId) : p ∈ allPorts := by
  simp only [allPorts, List.mem_map, List.mem_range]
  exact ⟨p.toNat, p.isLt, by simp⟩

/-! ## Flags -/

@[simp] theorem Sequencer.clear_active (q : Sequencer) : q.clear.active = false := rfl
@[simp] theorem Sequencer.clear_abuf (q : Sequencer) : q.clear.abuf = [] := rfl
@[simp] theorem Sequencer.clear_apd (q : Sequencer) : q.clear.apd = 0 := rfl
@[simp] theorem Sequencer.clear_seqErrors (q : Sequencer) : q.clear.seqErrors = q.seqErrors := rfl
@[simp] theorem Sequencer.countError_active (q : Sequencer) : q.countError.active = q.active := rfl
@[simp] theorem Sequencer.countError_abuf (q : Sequencer) : q.countError.abuf = q.abuf := rfl
@[simp] theorem Sequencer.countError_apd (q : Sequencer) : q.countError.apd = q.apd := rfl
@[simp] theorem Sequencer.countError_seqErrors (q : Sequencer) : q.countError.seqErrors = q.seqErrors + 1 := rfl
@[simp] theorem discAfterAck_zero (d : Bool) : discAfterAck 0 d = d := rfl
@[simp] theorem discAfterAck_succ (k : Nat) (d : Bool) : discAfterAck (k + 1) d = false := rfl

/-- What `desync` can do: nothing when sync is LOST already, else count, signal and lose sync (R121). -/
theorem desync_cases (f : Frx) :
    (f.sync = .lost ∧ desync f = (f, none)) ∨
    (f.sync ≠ .lost ∧ desync f = ({ f with resync := f.resync + 1, sync := .lost }, some .framingError)) := by
  unfold desync
  split
  · exact .inl ⟨‹_›, rfl⟩
  · exact .inr ⟨‹_›, rfl⟩

end Sys2Proof.Machine
end

