-- ==== Sys2Proof/Laws/Ops.lean ====
section
/-! SUPPORT. What each shared procedure can do, said once: one equation or one frame lemma per procedure, which later proofs
cite instead of unfolding it. -/

namespace Sys2Proof.Machine

/-! ## What a handler may touch -/

/-- `t` is `s` after handlers have run: configuration, port table, inbox, `now`, `ret` and FRX's own state are as before
(but for FRX's two counters, which a link reset clears), and the channels have only grown. -/
structure Reacts (s t : State) : Prop where
  mode : t.mode = s.mode
  cfg : t.cfg = s.cfg
  ports : t.ports = s.ports
  inbox : t.inbox = s.inbox
  now : t.now = s.now
  ret : t.ret = s.ret
  frx : t.frx = { s.frx with crcErrors := t.frx.crcErrors, resync := t.frx.resync }
  txOut : s.txOut <+: t.txOut
  frxOut : s.frxOut <+: t.frxOut
  dlUp : s.dlUp <+: t.dlUp
  portOut : s.portOut <+: t.portOut

theorem Reacts.refl (s : State) : Reacts s s :=
  ⟨rfl, rfl, rfl, rfl, rfl, rfl, rfl, List.prefix_rfl, List.prefix_rfl, List.prefix_rfl, List.prefix_rfl⟩

theorem Reacts.trans {s t u : State} (h : Reacts s t) (k : Reacts t u) : Reacts s u where
  mode := k.mode.trans h.mode
  cfg := k.cfg.trans h.cfg
  ports := k.ports.trans h.ports
  inbox := k.inbox.trans h.inbox
  now := k.now.trans h.now
  ret := k.ret.trans h.ret
  frx := by rw [k.frx, h.frx]
  txOut := h.txOut.trans k.txOut
  frxOut := h.frxOut.trans k.frxOut
  dlUp := h.dlUp.trans k.dlUp
  portOut := h.portOut.trans k.portOut

/-- A change of DL's state alone is a reaction. -/
theorem Reacts.dl (s : State) (d : Dl) : Reacts s { s with dl := d } :=
  ⟨rfl, rfl, rfl, rfl, rfl, rfl, rfl, List.prefix_rfl, List.prefix_rfl, List.prefix_rfl, List.prefix_rfl⟩

/-- A change of the sequencers and more items on PORT_OUT are a reaction. -/
theorem Reacts.port (s : State) (q : Vector Sequencer 64) (items : List PortItem) :
    Reacts s { s with seqs := q, portOut := s.portOut ++ items } :=
  ⟨rfl, rfl, rfl, rfl, rfl, rfl, rfl, List.prefix_rfl, List.prefix_rfl, List.prefix_rfl, List.prefix_append _ _⟩

/-! ## SEQ and TP -/

/-- SEQ_PUSH writes one sequencer and adds to PORT_OUT the message the segment completes (R250). -/
theorem seqPush_eq (p : PortId) (h : U32) (tag : SeqTag) (pd : U16) (pl : List Byte) (s : State) :
    seqPush p h tag pd pl s =
      { s with
        seqs := s.seqs.set p.toNat (seqSegment (s.reasmMax p) tag pd pl (s.sequencer p)).1 p.isLt
        portOut := s.portOut ++
          ((seqSegment (s.reasmMax p) tag pd pl (s.sequencer p)).2.map fun m => PortItem.msg p h m.1 m.2).toList } := by
  unfold seqPush
  generalize seqSegment (s.reasmMax p) tag pd pl (s.sequencer p) = r
  obtain ⟨q, _ | m⟩ := r <;> simp [State.setSequencer, emitPort]

/-- SEQ_RESET writes at most the sequencers (R255). -/
theorem seqReset_eq (p : PortId) (s : State) :
    seqReset p s = { s with seqs := if s.reasmEnabled p then s.seqs.set p.toNat (s.sequencer p).clear p.isLt else s.seqs } := by
  unfold seqReset
  split <;> rfl

/-- The sequencers after SEQ_RESET(p): p's is cleared where it exists, the others are as before (R255). -/
theorem seqReset_sequencer (p q : PortId) (s : State) :
    (seqReset p s).sequencer q = if p = q ∧ s.reasmEnabled p then (s.sequencer q).clear else s.sequencer q := by
  unfold seqReset
  split
  · rename_i h
    rw [State.sequencer_setSequencer]
    by_cases hp : p = q
    · subst hp; simp [h]
    · simp [hp]
  · rename_i h; simp [h]

/-- Resetting the sequencers of a list of ports changes nothing but sequencers. -/
theorem foldl_seqReset_eq (ps : List PortId) (s : State) :
    ∃ q, ps.foldl (fun s p => seqReset p s) s = { s with seqs := q } := by
  induction ps generalizing s with
  | nil => exact ⟨s.seqs, rfl⟩
  | cons p ps ih =>
    obtain ⟨q, hq⟩ := ih (seqReset p s)
    exact ⟨q, by rw [List.foldl_cons, hq, seqReset_eq]⟩

/-- RESET changes nothing but sequencers, before the events go out (R232). -/
theorem seqResetAll_eq (s : State) : ∃ q, seqResetAll s = { s with seqs := q } := foldl_seqReset_eq allPorts s

/-- The sequencers after resetting those of a list of ports. -/
theorem foldl_seqReset_sequencer (ps : List PortId) (s : State) (q : PortId) :
    (ps.foldl (fun s p => seqReset p s) s).sequencer q =
      if q ∈ ps ∧ s.reasmEnabled q then (s.sequencer q).clear else s.sequencer q := by
  induction ps generalizing s with
  | nil => simp
  | cons p ps ih =>
    have he : (seqReset p s).reasmEnabled q = s.reasmEnabled q := State.reasmEnabled_congr (by rw [seqReset_eq]) q
    rw [List.foldl_cons, ih, he, seqReset_sequencer]
    by_cases hp : p = q
    · subst hp; cases s.reasmEnabled p <;> simp [Sequencer.clear]
    · simp [hp, Ne.symm hp]

/-- After RESET every enabled sequencer is cleared, and no other is touched (R232). -/
theorem seqResetAll_sequencer (s : State) (q : PortId) :
    (seqResetAll s).sequencer q = if s.reasmEnabled q then (s.sequencer q).clear else s.sequencer q := by
  simp [seqResetAll, foldl_seqReset_sequencer, mem_allPorts]

/-- TP_ON_RECV changes sequencers and adds to PORT_OUT, nothing else (R231). -/
theorem tpOnRecv_eq (m : U24) (pl : List Byte) (s : State) :
    ∃ q items, tpOnRecv m pl s = { s with seqs := q, portOut := s.portOut ++ items } := by
  cases hp : s.port (metadataPort m) with
  | empty => exact ⟨s.seqs, [], by simp [tpOnRecv, hp]⟩
  | reg h =>
    simp only [tpOnRecv, hp, seqPush_eq]
    split
    · exact ⟨_, _, by simp only [emitPort, List.append_assoc]; rfl⟩
    · exact ⟨s.seqs, _, rfl⟩

/-- TP_ON_EVENT changes sequencers and adds to PORT_OUT, nothing else (R232). -/
theorem tpOnEvent_eq (ev : LinkEvent) (s : State) :
    ∃ q items, tpOnEvent ev s = { s with seqs := q, portOut := s.portOut ++ items } := by
  unfold tpOnEvent
  by_cases h : ev = .reset
  · obtain ⟨q, hq⟩ := seqResetAll_eq s
    simp only [h, if_true, hq]
    exact ⟨q, _, rfl⟩
  · simp only [h, if_false]
    exact ⟨s.seqs, _, rfl⟩

/-! ## DL -/

/-- `upward RECV` goes to DL_UP in unit mode of DL, else it is a delivery to TP (R272). -/
theorem upwardRecv_reacts (m : U24) (pl : List Byte) (s : State) :
    Reacts s (upwardRecv m pl s) ∧ (upwardRecv m pl s).dl = s.dl ∧ (upwardRecv m pl s).txOut = s.txOut := by
  unfold upwardRecv
  split
  · exact ⟨⟨rfl, rfl, rfl, rfl, rfl, rfl, rfl, List.prefix_rfl, List.prefix_rfl, List.prefix_append _ _,
      List.prefix_rfl⟩, rfl, rfl⟩
  · obtain ⟨q, items, h⟩ := tpOnRecv_eq m pl s
    rw [h]
    exact ⟨Reacts.port s q items, rfl, rfl⟩

/-- `upward event` goes to DL_UP in unit mode of DL, else it is an event for TP (R272). -/
theorem upwardEvent_reacts (ev : LinkEvent) (s : State) :
    Reacts s (upwardEvent ev s) ∧ (upwardEvent ev s).dl = s.dl ∧ (upwardEvent ev s).frx = s.frx ∧
      (upwardEvent ev s).txOut = s.txOut := by
  unfold upwardEvent
  split
  · exact ⟨⟨rfl, rfl, rfl, rfl, rfl, rfl, rfl, List.prefix_rfl, List.prefix_rfl, List.prefix_append _ _,
      List.prefix_rfl⟩, rfl, rfl, rfl⟩
  · obtain ⟨q, items, h⟩ := tpOnEvent_eq ev s
    rw [h]
    exact ⟨Reacts.port s q items, rfl, rfl, rfl⟩

theorem txPut_reacts (bs : List Byte) (s : State) : Reacts s (txPut bs s) :=
  ⟨rfl, rfl, rfl, rfl, rfl, rfl, rfl, List.prefix_append _ _, List.prefix_rfl, List.prefix_rfl, List.prefix_rfl⟩

theorem sendLink_reacts (t : LinkType) (fid : Fid) (s : State) : Reacts s (sendLink t fid s) := txPut_reacts _ s

theorem ackRemove_reacts (acked : InFlight → Bool) (s : State) : Reacts s (ackRemove acked s) := Reacts.dl s _

/-- The frames of a list put again, one after another (R191). -/
theorem foldl_putAgain_eq (fs : List InFlight) (s : State) :
    fs.foldl putAgain s =
      { s with
        txOut := s.txOut ++ fs.flatMap InFlight.frame
        dl := { s.dl with
          txBytes := s.dl.txBytes + BitVec.ofNat 32 (bufferedBytes fs)
          txRetransmissions := s.dl.txRetransmissions + BitVec.ofNat 32 fs.length } } := by
  induction fs generalizing s with
  | nil => simp [bufferedBytes]
  | cons f fs ih =>
    rw [List.foldl_cons, ih]
    simp only [putAgain, txPut, bufferedBytes, List.flatMap_cons, List.append_assoc, List.map_cons, List.sum_cons,
      List.length_cons, BitVec.ofNat_add, BitVec.add_assoc]
    rw [BitVec.add_comm (BitVec.ofNat 32 fs.length)]
    rfl

/-- Retransmission in one piece: the due frames go out verbatim in list order, and are counted and stamped (R188, R191,
R192). -/
theorem retransmitWhere_eq (due : InFlight → Bool) (now : U32) (s : State) :
    retransmitWhere due now s =
      { s with
        txOut := s.txOut ++ (s.dl.inflight.filter due).flatMap InFlight.frame
        dl := { s.dl with
          inflight := s.dl.inflight.map (fun f => if due f then f.resent now else f)
          txBytes := s.dl.txBytes + BitVec.ofNat 32 (bufferedBytes (s.dl.inflight.filter due))
          txRetransmissions := s.dl.txRetransmissions + BitVec.ofNat 32 (s.dl.inflight.filter due).length } } := by
  simp only [retransmitWhere, foldl_putAgain_eq]

theorem retransmitWhere_reacts (due : InFlight → Bool) (now : U32) (s : State) :
    Reacts s (retransmitWhere due now s) := by
  rw [retransmitWhere_eq]
  exact ⟨rfl, rfl, rfl, rfl, rfl, rfl, rfl, List.prefix_append _ _, List.prefix_rfl, List.prefix_rfl, List.prefix_rfl⟩

/-- What the retry check can do: nothing, or set disc_reported and pass DISCONNECTED upward (R193). -/
theorem retryCheck_cases (s : State) :
    retryCheck s = s ∨
    (s.dl.discReported = false ∧ retriesExceeded s.cfg.maxRetries s.dl.inflight = true ∧
      retryCheck s = upwardEvent .disconnected { s with dl := { s.dl with discReported := true } }) := by
  unfold retryCheck
  split
  · rename_i h
    simp only [Bool.and_eq_true, Bool.not_eq_true'] at h
    exact .inr ⟨h.1, h.2, rfl⟩
  · exact .inl rfl

theorem retryCheck_reacts (s : State) : Reacts s (retryCheck s) := by
  obtain h | ⟨-, -, h⟩ := retryCheck_cases s <;> rw [h]
  · exact Reacts.refl s
  · exact (Reacts.dl s _).trans (upwardEvent_reacts _ _).1

/-- The retry check keeps the list and the byte sink. -/
theorem retryCheck_keeps (s : State) :
    (retryCheck s).dl = { s.dl with discReported := (retryCheck s).dl.discReported } ∧
      (retryCheck s).txOut = s.txOut ∧ (retryCheck s).frx = s.frx := by
  obtain h | ⟨-, -, h⟩ := retryCheck_cases s <;> rw [h]
  · exact ⟨rfl, rfl, rfl⟩
  · obtain ⟨-, h1, h2, h3⟩ := upwardEvent_reacts .disconnected { s with dl := { s.dl with discReported := true } }
    rw [h1, h2, h3]
    exact ⟨rfl, rfl, rfl⟩

theorem linkReset_reacts (send : Bool) (s : State) : Reacts s (linkReset send s) := by
  have h : Reacts s { s with dl := Dl.reset, frx := { s.frx with crcErrors := 0, resync := 0 } } :=
    ⟨rfl, rfl, rfl, rfl, rfl, rfl, rfl, List.prefix_rfl, List.prefix_rfl, List.prefix_rfl, List.prefix_rfl⟩
  cases send
  · exact h.trans (upwardEvent_reacts _ _).1
  · exact (h.trans (sendLink_reacts _ _ _)).trans (upwardEvent_reacts _ _).1

theorem onFrame_reacts (fid : U16) (m : U24) (pl : List Byte) (s : State) : Reacts s (onFrame fid m pl s) := by
  unfold onFrame
  split
  · exact (((Reacts.dl s _).trans (upwardRecv_reacts _ _ _).1).trans (Reacts.dl _ _)).trans (sendLink_reacts _ _ _)
  · exact sendLink_reacts _ _ _

theorem goBack_reacts (now : U32) (fid : U16) (s : State) : Reacts s (goBack now fid s) :=
  ((ackRemove_reacts _ _).trans (retransmitWhere_reacts _ _ _)).trans (retryCheck_reacts _)

theorem onLink_reacts (now : U32) (t : LinkType) (fid : U16) (s : State) : Reacts s (onLink now t fid s) := by
  cases t
  · exact ackRemove_reacts _ _
  · exact ackRemove_reacts _ _
  · exact goBack_reacts _ _ _
  · exact goBack_reacts _ _ _
  · exact linkReset_reacts _ _

/-- Every handler DL runs on an FRX event reacts (R183). -/
theorem onFrxEvent_reacts (now : U32) (e : FrxEvent) (s : State) : Reacts s (onFrxEvent now e s) := by
  cases e
  · exact sendLink_reacts _ _ _
  · exact onLink_reacts _ _ _ _
  · exact onFrame_reacts _ _ _ _

/-- What DL_SEND can do: a result other than OK and no more, or the frame sent and OK (R182). -/
theorem dlSend_cases (now : U32) (m : U24) (pl : List Byte) (s : State) :
    (sendCheck pl s ≠ .ok ∧ dlSend now m pl s = raiseResult (sendCheck pl s) s) ∨
    (sendCheck pl s = .ok ∧ dlSend now m pl s = (sendFrame now m pl s).answer (.result .ok)) := by
  unfold dlSend
  cases h : sendCheck pl s <;> simp

/-- The effect of an accepted DL_SEND in one piece (R182). -/
theorem sendFrame_eq (now : U32) (m : U24) (pl : List Byte) (s : State) :
    sendFrame now m pl s =
      { s with
        txOut := s.txOut ++ dataFrame s.cfg.sof 0 s.dl.txFrameId m pl
        dl := { s.dl with
          txFrameId := s.dl.txFrameId + 1
          inflight := s.dl.inflight ++
            [⟨s.dl.txFrameId, dataFrame s.cfg.sof 0 s.dl.txFrameId m pl, now, 1⟩]
          txBytes := s.dl.txBytes + BitVec.ofNat 32 (frameOverhead + pl.length) } } := by
  simp only [sendFrame, txPut, fidInc_toNat, dataFrame_length]

/-- When DL_SEND passes its checks (R182). -/
theorem sendCheck_ok_iff (pl : List Byte) (s : State) :
    sendCheck pl s = .ok ↔
      1 ≤ pl.length ∧ pl.length ≤ maxPayload ∧ s.dl.inflight.length < s.cfg.txWindowSize.toNat ∧
        bufferedBytes s.dl.inflight + (frameOverhead + pl.length) ≤ s.cfg.txBufferSize.toNat := by
  unfold sendCheck
  split_ifs <;> simp <;> omega

end Sys2Proof.Machine
end

