-- ==== Sys2Proof/Laws/Frx.lean ====
section
/-! SUPPORT. FRX: what one step can do, and that the replay loop runs to its end within its bound (spec/40_framer_rx.md R129). -/

namespace Sys2Proof.Machine

/-! ## One step -/

@[simp] theorem slice_length_le (buf : List Byte) (a b : Nat) : (slice buf a b).length ≤ buf.length - a := by
  simp [slice, List.length_take, List.length_drop]

@[simp] theorem desync_buf (f : Frx) : (desync f).1.buf = f.buf := by
  obtain ⟨-, h⟩ | ⟨-, h⟩ := desync_cases f <;> rw [h]

@[simp] theorem desync_rxState (f : Frx) : (desync f).1.rxState = f.rxState := by
  obtain ⟨-, h⟩ | ⟨-, h⟩ := desync_cases f <;> rw [h]

/-- A step stores at most one byte more than it held, counting what it gives back to replay: the first byte of a frame
that fails is gone (R129). -/
theorem frxStep_bytes (sof b : Byte) (f : Frx) :
    ((frxStep sof b f).replay = [] ∧ (frxStep sof b f).frx.len ≤ f.len + 1) ∨
    ((frxStep sof b f).frx.len = 0 ∧ (frxStep sof b f).replay.length ≤ f.len) := by
  have hs : ∀ (l : List Byte) (k : Nat), (slice (l ++ [b]) 1 k).length ≤ l.length := by
    intro l k
    simpa using slice_length_le (l ++ [b]) 1 k
  unfold frxStep
  cases f.rxState with
  | searchSof =>
    refine .inl ?_
    simp only [stepSearchSof]
    split <;> simp [desyncStep, Frx.len]
  | searchSof2 =>
    refine .inl ?_
    simp only [stepSearchSof2]
    split <;> simp [desyncStep, Frx.len]
  | searchFrameType =>
    refine .inl ?_
    simp only [stepSearchFrameType]
    split
    · simp
    · split <;> simp [desyncStep, Frx.len]
  | storeHeader =>
    simp only [stepStoreHeader]
    split
    · exact .inl (by simp [Frx.len])
    · split
      · exact .inl (by simp [Frx.len])
      · simp only [checkLink]
        split
        · exact .inl (by simp [frameValidated, Frx.len])
        · exact .inr ⟨rfl, hs _ _⟩
      · exact .inl (by simp [Frx.len])
  | storeRemainder =>
    simp only [stepStoreRemainder]
    split
    · exact .inl (by simp [Frx.len])
    · simp only [checkData]
      split
      · exact .inl (by simp [frameValidated, Frx.len])
      · exact .inr ⟨rfl, hs _ _⟩

/-! ## The loop -/

/-- Delivering an event leaves FRX's own state as it is, but for the counters. -/
theorem deliverFrx_reacts (sink : FrxSink) (e : Option FrxEvent) (s : State) : Reacts s (deliverFrx sink e s) := by
  cases e with
  | none => exact Reacts.refl s
  | some e =>
    cases sink with
    | out =>
      exact ⟨rfl, rfl, rfl, rfl, rfl, rfl, rfl, List.prefix_rfl, List.prefix_append _ _, List.prefix_rfl,
        List.prefix_rfl⟩
    | dl now => exact onFrxEvent_reacts now e s

theorem Reacts.len {s t : State} (h : Reacts s t) : t.frx.len = s.frx.len := by rw [h.frx]

/-- The measure of R129: each step lowers it. Bytes held and queued, each counted with the steps it may still take. -/
def replayMeasure (len queued : Nat) : Nat := (len + queued) * (len + queued + 1) / 2 + queued

theorem replayMeasure_le_frxFuel (len queued : Nat) : replayMeasure len queued ≤ frxFuel len queued := by
  have := Nat.div_le_self ((len + queued) * (len + queued + 1)) 2
  unfold replayMeasure frxFuel
  omega

theorem triangle_succ (n : Nat) : (n + 1) * (n + 1 + 1) / 2 = n * (n + 1) / 2 + (n + 1) := by
  have h : (n + 1) * (n + 1 + 1) = n * (n + 1) + (n + 1) * 2 := by ring
  rw [h, Nat.add_mul_div_right _ _ (by decide)]

theorem triangle_mono {m n : Nat} (h : m ≤ n) : m * (m + 1) / 2 ≤ n * (n + 1) / 2 :=
  Nat.div_le_div_right (Nat.mul_le_mul h (by omega))

theorem replayMeasure_step {len queued len' queued' : Nat} (r : Nat)
    (h : (r = 0 ∧ len' ≤ len + 1) ∨ (len' = 0 ∧ r ≤ len)) (hq : queued' = r + queued) :
    replayMeasure len' queued' < replayMeasure len (queued + 1) := by
  subst hq
  unfold replayMeasure
  rcases h with ⟨rfl, h⟩ | ⟨rfl, h⟩
  · have := triangle_mono (show len' + (0 + queued) ≤ len + (queued + 1) by omega)
    omega
  · have h1 := triangle_mono (show 0 + (r + queued) ≤ len + queued by omega)
    have h2 := triangle_succ (len + queued)
    have h3 : len + (queued + 1) = len + queued + 1 := by omega
    rw [h3]
    omega

/-- The loop does not depend on its bound once the bound covers the measure. -/
theorem frxLoop_fuel (sink : FrxSink) (n : Nat) : ∀ (m : Nat) (q : List Byte) (s : State),
    replayMeasure s.frx.len q.length ≤ n → replayMeasure s.frx.len q.length ≤ m →
      frxLoop sink n q s = frxLoop sink m q s := by
  induction n with
  | zero =>
    intro m q s hn _
    cases q with
    | nil => cases m <;> rfl
    | cons x q => simp [replayMeasure] at hn
  | succ n ih =>
    intro m q s hn hm
    cases q with
    | nil => cases m <;> rfl
    | cons x q =>
      cases m with
      | zero => simp [replayMeasure] at hm
      | succ m =>
        have hl := (deliverFrx_reacts sink (frxStep s.cfg.sof x s.frx).event
          { s with frx := (frxStep s.cfg.sof x s.frx).frx }).len
        have hlt : replayMeasure (deliverFrx sink (frxStep s.cfg.sof x s.frx).event
            { s with frx := (frxStep s.cfg.sof x s.frx).frx }).frx.len
            ((frxStep s.cfg.sof x s.frx).replay ++ q).length <
            replayMeasure s.frx.len (x :: q).length := by
          rw [hl, List.length_cons]
          refine replayMeasure_step (frxStep s.cfg.sof x s.frx).replay.length ?_ (by simp)
          rcases frxStep_bytes s.cfg.sof x s.frx with ⟨h1, h2⟩ | ⟨h1, h2⟩
          · exact .inl ⟨by simp [h1], h2⟩
          · exact .inr ⟨h1, h2⟩
        exact ih m _ _ (by omega) (by omega)

/-- The loop of R130 run on a queue, with a bound that is always enough. -/
def frxRun (sink : FrxSink) (q : List Byte) (s : State) : State :=
  frxLoop sink (frxFuel s.frx.len q.length) q s

theorem frxByte_eq_frxRun (sink : FrxSink) (b : Byte) (s : State) : frxByte sink b s = frxRun sink [b] s := rfl

/-- Any bound that covers the measure runs the loop to its end. -/
theorem frxLoop_eq_frxRun (sink : FrxSink) (n : Nat) (q : List Byte) (s : State)
    (h : replayMeasure s.frx.len q.length ≤ n) : frxLoop sink n q s = frxRun sink q s :=
  frxLoop_fuel sink n _ q s h (replayMeasure_le_frxFuel _ _)

@[simp] theorem frxRun_nil (sink : FrxSink) (s : State) : frxRun sink [] s = s := by
  unfold frxRun
  cases frxFuel s.frx.len ([] : List Byte).length <;> rfl

/-- The loop as R130 writes it: the head byte is stepped, the replay goes in front, the event runs at once. -/
theorem frxRun_cons (sink : FrxSink) (x : Byte) (q : List Byte) (s : State) :
    frxRun sink (x :: q) s =
      frxRun sink ((frxStep s.cfg.sof x s.frx).replay ++ q)
        (deliverFrx sink (frxStep s.cfg.sof x s.frx).event { s with frx := (frxStep s.cfg.sof x s.frx).frx }) := by
  have hm : replayMeasure s.frx.len (x :: q).length ≤ frxFuel s.frx.len (x :: q).length :=
    replayMeasure_le_frxFuel _ _
  unfold frxRun
  cases hf : frxFuel s.frx.len (x :: q).length with
  | zero => simp [frxFuel] at hf
  | succ n =>
    rw [hf] at hm
    have hl := (deliverFrx_reacts sink (frxStep s.cfg.sof x s.frx).event
      { s with frx := (frxStep s.cfg.sof x s.frx).frx }).len
    refine frxLoop_fuel sink n _ _ _ ?_ (replayMeasure_le_frxFuel _ _)
    have hlt : replayMeasure (deliverFrx sink (frxStep s.cfg.sof x s.frx).event
        { s with frx := (frxStep s.cfg.sof x s.frx).frx }).frx.len
        ((frxStep s.cfg.sof x s.frx).replay ++ q).length <
        replayMeasure s.frx.len (x :: q).length := by
      rw [hl, List.length_cons]
      refine replayMeasure_step (frxStep s.cfg.sof x s.frx).replay.length ?_ (by simp)
      rcases frxStep_bytes s.cfg.sof x s.frx with ⟨h1, h2⟩ | ⟨h1, h2⟩
      · exact .inl ⟨by simp [h1], h2⟩
      · exact .inr ⟨h1, h2⟩
    omega

/-- A step without replay ends the command's work on that byte. -/
theorem frxByte_of_no_replay (sink : FrxSink) (b : Byte) (s : State) (h : (frxStep s.cfg.sof b s.frx).replay = []) :
    frxByte sink b s =
      deliverFrx sink (frxStep s.cfg.sof b s.frx).event { s with frx := (frxStep s.cfg.sof b s.frx).frx } := by
  rw [frxByte_eq_frxRun, frxRun_cons, h, List.nil_append, frxRun_nil]

/-- An induction over the loop: a relation that each step keeps, and that is reflexive and transitive, relates the states
before and after. -/
theorem frxRun_induct (sink : FrxSink) (R : State → State → Prop) (refl : ∀ s, R s s)
    (trans : ∀ {s t u}, R s t → R t u → R s u)
    (step : ∀ x s, R s (deliverFrx sink (frxStep s.cfg.sof x s.frx).event
      { s with frx := (frxStep s.cfg.sof x s.frx).frx })) :
    ∀ (q : List Byte) (s : State), R s (frxRun sink q s) := by
  suffices h : ∀ n q s, R s (frxLoop sink n q s) from fun q s => h _ q s
  intro n
  induction n with
  | zero => intro q s; exact refl s
  | succ n ih =>
    intro q s
    cases q with
    | nil => exact refl s
    | cons x q => exact trans (step x s) (ih _ _)

end Sys2Proof.Machine
end

