-- ==== Sys2Proof/Laws/Runs.lean ====
section
/-! SUPPORT. The relations claims are stated in, met by the functions of the model: frames by arithmetic, events that go out, the
loops of R130 and R183. -/

namespace Sys2Proof.Machine

/-! ## Codes and frames by arithmetic -/

@[simp] theorem linkTypeOfByte_code (t : LinkType) : linkTypeOfByte ((linkTypeCode t).setWidth 8) = some t := by
  cases t <;> rfl

@[simp] theorem linkEventOfByte_code (ev : LinkEvent) : linkEventOfByte (linkEventCode ev) = some ev := by
  cases ev <;> rfl

@[simp] theorem seqTagOfByte_code (t : SeqTag) : seqTagOfByte ((seqTagCode t).setWidth 8) = some t := by
  cases t <;> rfl

@[simp] theorem portOfByte_setWidth (p : PortId) : portOfByte (p.setWidth 8) = some p := by
  revert p; decide

/-- A port operand above 63 names no port. -/
theorem portOfByte_none {b : Byte} (h : b.toNat > 63) : portOfByte b = none := by
  simp only [portOfByte, portMax]
  rw [if_neg (by omega)]

/-- LE32 as the sum R8 gives. -/
theorem fromLe32_toNat (a b c d : Byte) :
    (fromLe32 a b c d).toNat = a.toNat + 2 ^ 8 * b.toNat + 2 ^ 16 * c.toNat + 2 ^ 24 * d.toNat := by
  have ha := a.isLt; have hb := b.isLt; have hc := c.isLt
  have e : ∀ {w : Nat} (x : BitVec w) (y : Byte), (x ++ y).toNat = x.toNat * 2 ^ 8 + y.toNat := by
    intro w x y
    rw [BitVec.toNat_append, ← Nat.shiftLeft_add_eq_or_of_lt y.isLt, Nat.shiftLeft_eq]
  simp only [fromLe32, e]
  omega

/-- LE24 as the sum R8 gives. -/
theorem fromLe24_eq (a b c : Byte) :
    fromLe24 a b c = BitVec.ofNat 24 (a.toNat + 2 ^ 8 * b.toNat + 2 ^ 16 * c.toNat) := by
  have ha := a.isLt; have hb := b.isLt; have hc := c.isLt
  have e : ∀ {w : Nat} (x : BitVec w) (y : Byte), (x ++ y).toNat = x.toNat * 2 ^ 8 + y.toNat := by
    intro w x y
    rw [BitVec.toNat_append, ← Nat.shiftLeft_add_eq_or_of_lt y.isLt, Nat.shiftLeft_eq]
  apply BitVec.eq_of_toNat_eq
  rw [BitVec.toNat_ofNat]
  simp only [fromLe24, e]
  omega

/-- A frame id from its two bytes, as R85 writes it. -/
theorem unpackFid_eq (b2 low : Byte) : unpackFid b2 low = BitVec.ofNat 11 (b2.toNat % 8 * 256 + low.toNat) := by
  have h := low.isLt
  apply BitVec.eq_of_toNat_eq
  have e : (unpackFid b2 low).toNat = (b2.extractLsb' 0 3).toNat * 2 ^ 8 + low.toNat := by
    unfold unpackFid
    exact (BitVec.toNat_append _ _).trans (by rw [← Nat.shiftLeft_add_eq_or_of_lt low.isLt, Nat.shiftLeft_eq])
  rw [e, BitVec.toNat_ofNat, BitVec.extractLsb'_toNat]
  simp only [Nat.shiftRight_zero]
  omega

theorem fidLow_eq (fid : Fid) : fidLow fid = BitVec.ofNat 8 (fid.toNat % 256) := by
  apply BitVec.eq_of_toNat_eq
  simp [fidLow]

theorem toLe24_eq (v : U24) : toLe24 v = leBytes 3 v.toNat := by
  simp only [toLe24, leBytes, List.cons.injEq, and_true]
  refine ⟨?_, ?_, ?_⟩ <;> apply BitVec.eq_of_toNat_eq <;> simp [Nat.shiftRight_eq_div_pow, Nat.div_div_eq_div_mul]

theorem toLe32_eq (v : U32) : toLe32 v = leBytes 4 v.toNat := by
  simp only [toLe32, leBytes, List.cons.injEq, and_true]
  refine ⟨?_, ?_, ?_, ?_⟩ <;> apply BitVec.eq_of_toNat_eq <;>
    simp [Nat.shiftRight_eq_div_pow, Nat.div_div_eq_div_mul]

theorem packByte2_eq (c : BitVec 3) (fid : Fid) :
    packByte2 c 0 fid = BitVec.ofNat 8 (32 * c.toNat + fid.toNat / 256) := by
  have hf := fid.isLt
  have hc := c.isLt
  apply BitVec.eq_of_toNat_eq
  have e : (packByte2 c 0 fid).toNat = (c ++ (0 : BitVec 2)).toNat * 2 ^ 3 + (fid.extractLsb' 8 3).toNat := by
    unfold packByte2
    exact (BitVec.toNat_append _ _).trans
      (by rw [← Nat.shiftLeft_add_eq_or_of_lt (fid.extractLsb' 8 3).isLt, Nat.shiftLeft_eq])
  rw [e, BitVec.toNat_append]
  simp [Nat.shiftRight_eq_div_pow, Nat.shiftLeft_eq]
  omega

/-- The DATA frame the model builds has the bytes R80 lists. -/
theorem dataFrame_eq (sof : Byte) (fid : Fid) (m : U24) (pl : List Byte) :
    dataFrame sof 0 fid m pl = dataBytes sof fid.toNat m.toNat pl := by
  have h : packByte2 0b000 0 fid = BitVec.ofNat 8 (fid.toNat / 256) := by rw [packByte2_eq]; simp
  simp only [dataFrame, dataBody, dataBytes, toLe24_eq, toLe32_eq, fidLow_eq, h, List.cons_append, List.nil_append]

/-- The link frame the model builds has the bytes R81 lists. -/
theorem linkFrame_eq (sof : Byte) (t : LinkType) (fid : Fid) :
    linkFrame sof 0 t fid = linkBytes sof (linkTypeCode t).toNat fid.toNat := by
  simp only [linkFrame, linkBody, linkBytes, toLe32_eq, fidLow_eq, packByte2_eq, List.cons_append, List.nil_append]

theorem fidOfU16_some {v : U16} (h : v.toNat ≤ 2047) : fidOfU16 v = some (v.setWidth 11) := by
  simp [fidOfU16, frameIdMax, h]

theorem fidOfU16_none {v : U16} (h : v.toNat > 2047) : fidOfU16 v = none := by
  simp [fidOfU16, frameIdMax]; omega

theorem setWidth_fid_toNat {v : U16} (h : v.toNat ≤ 2047) : (v.setWidth 11).toNat = v.toNat := by
  simp; omega

/-- A type operand is a link code or names no link type (R83, R91). -/
theorem linkTypeOfByte_cases (b : Byte) :
    (b.toNat ∉ [1, 3, 4, 5, 6] ∧ linkTypeOfByte b = none) ∨
    (b.toNat ∈ [1, 3, 4, 5, 6] ∧ ∃ t, linkTypeOfByte b = some t ∧ (linkTypeCode t).toNat = b.toNat) := by
  revert b; decide

/-! ## Events -/

/-- The sink's handlers run in a state whose command has begun: `now` is the command's, and nothing is answered yet. -/
def SinkReady : FrxSink → State → Prop
  | .out, _ => True
  | .dl now, s => s.now = now ∧ s.ret = .none

theorem State.beginAt_of_ready {now : U32} {s : State} (h : SinkReady (.dl now) s) : s.beginAt now = s := by
  obtain ⟨h1, h2⟩ := h
  cases s
  simp_all [State.beginAt]

theorem SinkReady.reacts {sink : FrxSink} {s t : State} (h : SinkReady sink s) (r : Reacts s t) : SinkReady sink t := by
  cases sink with
  | out => trivial
  | dl now => exact ⟨r.now.trans h.1, r.ret.trans h.2⟩

/-- FRX_BYTE's own sink is ready once the command has begun. -/
theorem sinkReady_frxSink (s : State) (f : Frx) : SinkReady (frxSink s) { s with frx := f, ret := .none } := by
  unfold frxSink
  split
  · trivial
  · exact ⟨rfl, rfl⟩

/-- Delivering an event is emitting it (R130, R183). -/
theorem emits_deliverFrx {sink : FrxSink} {s : State} (h : SinkReady sink s) (e : FrxEvent) :
    Emits sink e s (deliverFrx sink (some e) s) := by
  cases sink with
  | out => rfl
  | dl now =>
    have hb := State.beginAt_of_ready h
    cases e <;>
      simp [Emits, handlerOf, exec, execDlOnFramingError, execDlOnLink, execDlOnFrame, hb, deliverFrx, onFrxEvent]

/-- A step that ends in `desync()` (R121). -/
theorem desyncs_deliverFrx {sink : FrxSink} {s : State} (h : SinkReady sink s) :
    Desyncs sink s (deliverFrx sink (desync s.frx).2 { s with frx := (desync s.frx).1 }) := by
  unfold Desyncs
  obtain ⟨h1, h2⟩ | ⟨h1, h2⟩ := desync_cases s.frx
  · simp [h1, h2, deliverFrx]
  · rw [h2, if_neg h1]
    apply emits_deliverFrx
    cases sink <;> exact h

/-! ## The loops -/

/-- The measure falls at each step of the loop. -/
theorem replayMeasure_frxStep (sink : FrxSink) (x : Byte) (q : List Byte) (s : State) :
    replayMeasure (deliverFrx sink (frxStep s.cfg.sof x s.frx).event
      { s with frx := (frxStep s.cfg.sof x s.frx).frx }).frx.len ((frxStep s.cfg.sof x s.frx).replay ++ q).length <
      replayMeasure s.frx.len (x :: q).length := by
  have hl := (deliverFrx_reacts sink (frxStep s.cfg.sof x s.frx).event
    { s with frx := (frxStep s.cfg.sof x s.frx).frx }).len
  rw [hl, List.length_cons]
  refine replayMeasure_step (frxStep s.cfg.sof x s.frx).replay.length ?_ (by simp)
  rcases frxStep_bytes s.cfg.sof x s.frx with ⟨h1, h2⟩ | ⟨h1, h2⟩
  · exact .inl ⟨by simp [h1], h2⟩
  · exact .inr ⟨h1, h2⟩

/-- The model's loop is the loop of R130, within the measure. -/
theorem frxRuns_frxRun (sink : FrxSink) (m : Nat) : ∀ (q : List Byte) (s : State), SinkReady sink s →
    replayMeasure s.frx.len q.length ≤ m → ∃ n, n ≤ m ∧ FrxRuns sink n q s (frxRun sink q s) := by
  induction m with
  | zero =>
    intro q s _ h
    cases q with
    | nil => exact ⟨0, le_rfl, by rw [frxRun_nil]; exact .done s⟩
    | cons x q => simp [replayMeasure] at h
  | succ m ih =>
    intro q s hs h
    cases q with
    | nil => exact ⟨0, by omega, by rw [frxRun_nil]; exact .done s⟩
    | cons x q =>
      have hs' : SinkReady sink { s with frx := (frxStep s.cfg.sof x s.frx).frx } := by
        cases sink <;> exact hs
      have hr := deliverFrx_reacts sink (frxStep s.cfg.sof x s.frx).event
        { s with frx := (frxStep s.cfg.sof x s.frx).frx }
      obtain ⟨n, hn, hrun⟩ := ih ((frxStep s.cfg.sof x s.frx).replay ++ q) _ (hs'.reacts hr)
        (Nat.le_of_lt_succ (lt_of_lt_of_le (replayMeasure_frxStep sink x q s) h))
      rw [frxRun_cons]
      refine ⟨n + 1, by omega, ?_⟩
      cases he : (frxStep s.cfg.sof x s.frx).event with
      | none => rw [he] at hrun; exact .quiet he hrun
      | some e => rw [he] at hrun; exact .event he (emits_deliverFrx hs' e) hrun

/-- FRX_BYTE as one step and the run of its replay. -/
theorem exec_frxByte (b : Byte) (s : State) :
    exec (.frxByte b) s = .next (frxRun (frxSink s) (frxStep s.cfg.sof b s.frx).replay
      (deliverFrx (frxSink s) (frxStep s.cfg.sof b s.frx).event
        { s with frx := (frxStep s.cfg.sof b s.frx).frx, ret := .none })) := by
  show Host.Outcome.next (frxByte (frxSink s) b s.begin) = _
  rw [frxByte_eq_frxRun, frxRun_cons, List.append_nil]
  rfl

/-- FRX_BYTE where the step replays nothing. -/
theorem exec_frxByte_of_no_replay (b : Byte) (s : State) (h : (frxStep s.cfg.sof b s.frx).replay = []) :
    exec (.frxByte b) s = .next (deliverFrx (frxSink s) (frxStep s.cfg.sof b s.frx).event
      { s with frx := (frxStep s.cfg.sof b s.frx).frx, ret := .none }) := by
  rw [exec_frxByte, h, frxRun_nil]

/-! ## What goes upward (R199) -/

/-- The expected id is carried over from one part of the items to the next. -/
theorem idAfter_append (xs ys : List DlUpItem) (id : Fid) : idAfter id (xs ++ ys) = idAfter (idAfter id xs) ys := by
  induction xs generalizing id with
  | nil => rfl
  | cons x xs ih => rcases x with _ | (_ | _ | _) <;> exact ih _

/-- Events split anywhere: the second part is judged by the id the first part's deliveries leave expected. -/
theorem deliveries_append (xs ys : List FrxEvent) (id : Fid) :
    deliveries id (xs ++ ys) = deliveries id xs ++ deliveries (idAfter id (deliveries id xs)) ys := by
  induction xs generalizing id with
  | nil => rfl
  | cons x xs ih =>
    rcases x with _ | ⟨t, _⟩ | ⟨fid, _, _⟩
    · exact ih id
    · cases t <;> simp [deliveries, idAfter, ih]
    · by_cases h : fid = id <;> simp [deliveries, idAfter, ih, h]

end Sys2Proof.Machine
end

