-- ==== Sys2Proof/Laws/Frames.lean ====
section
/-! SUPPORT. A whole frame received from a search: its bytes are taken one after another without an event, and the last one
validates it (spec/40_framer_rx.md R122 to R128). -/

namespace Sys2Proof.Machine

/-- FRX after bytes that each emit nothing and replay nothing; none where some byte does either. -/
def quietRun (sof : Byte) : List Byte → Frx → Option Frx
  | [], f => some f
  | b :: bs, f =>
    match frxStep sof b f with
    | ⟨f', none, []⟩ => quietRun sof bs f'
    | _ => none

theorem quietRun_append (sof : Byte) (xs ys : List Byte) (f g : Frx) (h : quietRun sof xs f = some g) :
    quietRun sof (xs ++ ys) f = quietRun sof ys g := by
  induction xs generalizing f with
  | nil => simp only [quietRun, Option.some.injEq] at h; rw [h]; rfl
  | cons x xs ih =>
    simp only [quietRun, List.cons_append] at h ⊢
    split at h
    · exact ih _ h
    · contradiction

/-- DL_LL_RECV of quiet bytes only counts them and moves FRX. -/
theorem recvBytes_quiet (now : U32) (bs : List Byte) (s : State) (g : Frx) (h : quietRun s.cfg.sof bs s.frx = some g) :
    recvBytes now bs s =
      { s with frx := g, dl := { s.dl with rxBytes := s.dl.rxBytes + BitVec.ofNat 32 bs.length } } := by
  unfold recvBytes
  induction bs generalizing s with
  | nil => simp only [quietRun, Option.some.injEq] at h; subst h; simp
  | cons b bs ih =>
    simp only [quietRun] at h
    split at h
    · rename_i f' hf
      have hb : recvByte now s b =
          { s with frx := f', dl := { s.dl with rxBytes := s.dl.rxBytes + 1 } } := by
        unfold recvByte
        rw [frxByte_of_no_replay _ _ _ (by simp only [hf])]
        simp only [hf, deliverFrx]
      rw [List.foldl_cons, hb, ih]
      · simp only [List.length_cons, BitVec.ofNat_add, BitVec.add_assoc]
        rw [BitVec.add_comm (BitVec.ofNat 32 bs.length)]
        rfl
      · exact h
    · contradiction

/-- FRX_FEED of quiet bytes only moves FRX. -/
theorem feedBytes_quiet (bs : List Byte) (s : State) (g : Frx) (h : quietRun s.cfg.sof bs s.frx = some g) :
    feedBytes bs s = { s with frx := g } := by
  unfold feedBytes
  induction bs generalizing s with
  | nil => simp only [quietRun, Option.some.injEq] at h; subst h; rfl
  | cons b bs ih =>
    simp only [quietRun] at h
    split at h
    · rename_i f' hf
      have hb : frxByte .out b s = { s with frx := f' } := by
        rw [frxByte_of_no_replay _ _ _ (by simp only [hf])]
        simp only [hf, deliverFrx]
      rw [List.foldl_cons, hb]
      exact ih _ h
    · contradiction

/-- While the header is short, bytes are stored (R125). -/
theorem quietRun_header (sof : Byte) (bs : List Byte) (f : Frx) (hs : f.rxState = .storeHeader)
    (hl : f.buf.length + bs.length < 8) : quietRun sof bs f = some { f with buf := f.buf ++ bs } := by
  induction bs generalizing f with
  | nil => simp [quietRun]
  | cons b bs ih =>
    simp only [List.length_cons] at hl
    have : frxStep sof b f = { frx := { f with buf := f.buf ++ [b] } } := by
      simp only [frxStep, hs, stepStoreHeader]
      rw [if_pos]
      simp [Frx.len, headerLen]; omega
    rw [quietRun, this]
    dsimp only
    rw [ih { f with buf := f.buf ++ [b] } hs (by simp; omega)]
    simp

/-- While the frame is short, bytes are stored (R128). -/
theorem quietRun_remainder (sof : Byte) (bs : List Byte) (f : Frx) (hs : f.rxState = .storeRemainder)
    (hl : f.buf.length + bs.length < f.expected) : quietRun sof bs f = some { f with buf := f.buf ++ bs } := by
  induction bs generalizing f with
  | nil => simp [quietRun]
  | cons b bs ih =>
    simp only [List.length_cons] at hl
    have : frxStep sof b f = { frx := { f with buf := f.buf ++ [b] } } := by
      simp only [frxStep, hs, stepStoreRemainder]
      rw [if_pos]
      simp [Frx.len]; omega
    rw [quietRun, this]
    dsimp only
    rw [ih { f with buf := f.buf ++ [b] } hs (by simp; omega)]
    simp

/-- Two SOF bytes and a valid type byte begin a frame (R122 to R124); more SOF bytes between them are filler. -/
theorem quietRun_start (sof b2 : Byte) (k : Nat) (f : Frx) (hf : f.Searching) (hb : b2 ≠ sof) (hk : kind b2 ≠ .invalid) :
    quietRun sof (List.replicate k sof ++ [sof, sof, b2]) f =
      some { f with buf := [sof, sof, b2], rxState := .storeHeader } := by
  obtain ⟨h1, h2⟩ := hf
  have hstart : quietRun sof [sof, sof] f = some { f with buf := [sof, sof], rxState := .searchFrameType } := by
    simp [quietRun, frxStep, h1, stepSearchSof, stepSearchSof2]
  have hfill : ∀ n (g : Frx), g.rxState = .searchFrameType → quietRun sof (List.replicate n sof) g = some g := by
    intro n g hg
    induction n with
    | zero => rfl
    | succ n ih =>
      have : frxStep sof sof g = { frx := g } := by simp [frxStep, hg, stepSearchFrameType]
      rw [List.replicate_succ, quietRun, this]
      exact ih
  have hsplit : List.replicate k sof ++ [sof, sof, b2] = [sof, sof] ++ (List.replicate k sof ++ [b2]) := by
    have e : ∀ n (l : List Byte), List.replicate n sof ++ sof :: l = sof :: (List.replicate n sof ++ l) := by
      intro n l
      induction n with
      | zero => rfl
      | succ n ih => simp only [List.replicate_succ, List.cons_append, ih]
    rw [e, e]; rfl
  rw [hsplit, quietRun_append _ _ _ _ _ hstart, quietRun_append _ _ _ _ _ (hfill k _ rfl)]
  cases hkk : kind b2 with
  | invalid => exact absurd hkk hk
  | data => simp [quietRun, frxStep, stepSearchFrameType, hb, hkk]
  | link t => simp [quietRun, frxStep, stepSearchFrameType, hb, hkk]

/-- A byte whose kind is valid is not SOF, where SOF's type code is invalid (R5, R124). -/
theorem ne_sof_of_kind {sof b : Byte} (hs : kind sof = .invalid) (hb : kind b ≠ .invalid) : b ≠ sof := by
  rintro rfl
  exact hb hs

/-- A legal configuration's SOF has an invalid type code (R5). -/
theorem kind_sof_of_wf {c : Config} (h : c.wf = true) : kind c.sof = .invalid := by
  simp only [Config.wf, Bool.and_eq_true, Bool.or_eq_true, beq_iff_eq] at h
  exact frameKindOfCode_eq_invalid.mpr h.1.1.2

/-- A whole link frame, behind any number of SOF bytes: all bytes but the last are quiet, and the last one validates it
(R127). -/
theorem linkFrame_received (sof : Byte) (k : Nat) (rsv : BitVec 2) (t : LinkType) (fid : Fid) (f : Frx) (hf : f.Searching)
    (hs : kind sof = .invalid) : ∃ front last g, List.replicate k sof ++ linkFrame sof rsv t fid = front ++ [last] ∧
      quietRun sof front f = some g ∧ frxStep sof last g = { frx := f.afterLink, event := some (.link t fid) } := by
  obtain ⟨h1, h2⟩ := hf
  have hk : kind (packByte2 (linkTypeCode t) rsv fid) = .link t := by simp
  have hq := quietRun_start sof _ k f ⟨h1, h2⟩ (ne_sof_of_kind hs (by rw [hk]; simp)) (by rw [hk]; simp)
  refine ⟨List.replicate k sof ++ [sof, sof, packByte2 (linkTypeCode t) rsv fid] ++
      (fidLow fid :: (toLe32 (crc32 (linkBody rsv t fid))).take 3),
    (crc32 (linkBody rsv t fid)).extractLsb' 24 8, _, ?_,
    (quietRun_append _ _ _ _ _ hq).trans (quietRun_header _ _ _ rfl (by simp [toLe32])), ?_⟩
  · simp [linkFrame, linkBody, toLe32]
  · simp only [frxStep, stepStoreHeader, toLe32, List.take, List.cons_append, List.nil_append, Frx.len,
      List.length_cons, List.length_nil, headerLen, byteAt, List.getD]
    simp [checkLink, slice, byteAt, linkBody, frameValidated, Frx.afterLink, ← h1, h2]

/-- A whole DATA frame, behind any number of SOF bytes: all bytes but the last are quiet, and the last one validates it
(R128). -/
theorem dataFrame_received (sof : Byte) (k : Nat) (rsv : BitVec 2) (fid : Fid) (m : U24) (pl : List Byte) (f : Frx)
    (hf : f.Searching) (hs : kind sof = .invalid) (hp : 1 ≤ pl.length) (hq : pl.length ≤ maxPayload) :
    ∃ front last g, List.replicate k sof ++ dataFrame sof rsv fid m pl = front ++ [last] ∧
      quietRun sof front f = some g ∧
      frxStep sof last g = { frx := f.afterData pl.length, event := some (.frame fid m pl) } := by
  obtain ⟨h1, h2⟩ := hf
  have hk : kind (packByte2 0b000 rsv fid) = .data := kind_packByte2 _ _ _
  have hn := lengthByte _ hp hq
  have hst := quietRun_start sof _ k f ⟨h1, h2⟩ (ne_sof_of_kind hs (by rw [hk]; simp)) (by rw [hk]; simp)
  generalize hcrc : crc32 (dataBody rsv fid m pl) = crc
  generalize hb2 : packByte2 0b000 rsv fid = b2 at *
  have hb2' : packByte2 0#3 rsv fid = b2 := hb2
  generalize hlen : BitVec.ofNat 8 (pl.length - 1) = b3 at *
  let header : List Byte := [sof, sof, b2, b3, fidLow fid, m.extractLsb' 0 8, m.extractLsb' 8 8, m.extractLsb' 16 8]
  let g8 : Frx := { f with buf := header, rxState := .storeRemainder, expected := frameOverhead + (b3.toNat + 1) }
  have hfull : dataFrame sof rsv fid m pl =
      [sof, sof, b2] ++ [b3, fidLow fid, m.extractLsb' 0 8, m.extractLsb' 8 8] ++ [m.extractLsb' 16 8] ++
        (pl ++ (toLe32 crc).take 3) ++ [crc.extractLsb' 24 8] := by
    simp [dataFrame, dataBody, toLe24, toLe32, ← hcrc, hb2', hlen]
  have hheader : quietRun sof [m.extractLsb' 16 8] { f with
      buf := [sof, sof, b2] ++ [b3, fidLow fid, m.extractLsb' 0 8, m.extractLsb' 8 8], rxState := .storeHeader } =
      some g8 := by
    simp [quietRun, frxStep, stepStoreHeader, Frx.len, byteAt, hk, g8, header]
  have hrest : quietRun sof (pl ++ (toLe32 crc).take 3) g8 =
      some { g8 with buf := header ++ (pl ++ (toLe32 crc).take 3) } :=
    quietRun_remainder _ _ _ rfl (by simp [g8, header, toLe32, frameOverhead, hn]; omega)
  refine ⟨List.replicate k sof ++ [sof, sof, b2] ++ ([b3, fidLow fid, m.extractLsb' 0 8, m.extractLsb' 8 8] ++
      ([m.extractLsb' 16 8] ++ (pl ++ (toLe32 crc).take 3))), crc.extractLsb' 24 8,
    { g8 with buf := header ++ (pl ++ (toLe32 crc).take 3) }, by rw [hfull]; simp, ?_, ?_⟩
  · rw [quietRun_append _ _ _ _ _ hst]
    have h4 := quietRun_header sof [b3, fidLow fid, m.extractLsb' 0 8, m.extractLsb' 8 8]
      { f with buf := [sof, sof, b2], rxState := .storeHeader } rfl (by simp)
    rw [quietRun_append _ _ _ _ _ h4, quietRun_append _ _ _ _ _ hheader]
    exact hrest
  · have hbuf : header ++ (pl ++ (toLe32 crc).take 3) ++ [crc.extractLsb' 24 8] = header ++ (pl ++ toLe32 crc) := by
      simp [toLe32]
    have hat : ∀ i, byteAt (header ++ (pl ++ toLe32 crc)) (8 + pl.length + i) = byteAt (toLe32 crc) i := by
      intro i
      simp only [byteAt, List.getD]
      rw [List.getElem?_append_right (by simp [header]; omega), List.getElem?_append_right (by simp [header]; omega)]
      congr 2
      simp [header]; omega
    have hbody : slice (header ++ (pl ++ toLe32 crc)) 2 (7 + pl.length) = dataBody rsv fid m pl := by
      have e : 7 + pl.length + 1 - 2 = (dataBody rsv fid m pl).length := by rw [dataBody_length]; omega
      have e2 : (header ++ (pl ++ toLe32 crc)).drop 2 = dataBody rsv fid m pl ++ toLe32 crc := by
        simp [header, dataBody, toLe24, hb2', hlen]
      rw [slice, e, e2, List.take_left]
    have hpl : slice (header ++ (pl ++ toLe32 crc)) 8 (7 + pl.length) = pl := by
      have e : 7 + pl.length + 1 - 8 = pl.length := by omega
      have e2 : (header ++ (pl ++ toLe32 crc)).drop 8 = pl ++ toLe32 crc := rfl
      rw [slice, e, e2, List.take_left]
    have h0 := hat 0
    have h8 : byteAt (header ++ (pl ++ toLe32 crc)) (9 + pl.length) = byteAt (toLe32 crc) 1 := by
      rw [← hat 1]; congr 1; omega
    have h9 : byteAt (header ++ (pl ++ toLe32 crc)) (10 + pl.length) = byteAt (toLe32 crc) 2 := by
      rw [← hat 2]; congr 1; omega
    have h10 : byteAt (header ++ (pl ++ toLe32 crc)) (11 + pl.length) = byteAt (toLe32 crc) 3 := by
      rw [← hat 3]; congr 1; omega
    have hexp : frameOverhead + (b3.toNat + 1) - frameOverhead = pl.length := by omega
    simp only [frxStep, g8, stepStoreRemainder, Frx.len, hbuf]
    rw [if_neg (by simp [header, frameOverhead, hn]; omega)]
    simp only [checkData, hexp, hbody, hpl, hcrc, Nat.add_zero] at h0 ⊢
    rw [if_pos (by rw [h0, h8, h9, h10]; exact (fromLe32_bytes crc).symm)]
    simp only [frameValidated, Frx.afterData, header, byteAt, List.cons_append, List.getD, List.getElem?_cons_succ,
      List.getElem?_cons_zero, Option.getD_some, fromLe24_bytes, hn]
    rw [← hb2, unpackFid_packByte2, ← h1, ← h2]

/-! ## The last byte of a frame -/

/-- FRX_FEED of a whole frame: the event stands on FRX_OUT. -/
theorem feedBytes_frame {bs front : List Byte} {last : Byte} {s : State} {g f : Frx} {e : FrxEvent}
    (hb : bs = front ++ [last]) (hq : quietRun s.cfg.sof front s.frx = some g)
    (hl : frxStep s.cfg.sof last g = { frx := f, event := some e }) :
    feedBytes bs s = { s with frx := f, frxOut := s.frxOut ++ [e] } := by
  subst hb
  have h := feedBytes_quiet front s g hq
  unfold feedBytes at h ⊢
  rw [List.foldl_append, h]
  simp only [List.foldl_cons, List.foldl_nil]
  rw [frxByte_of_no_replay _ _ _ (by simp [hl])]
  simp [hl, deliverFrx, emitFrx]

/-- DL_LL_RECV of a whole frame: its bytes are counted and its handler runs. -/
theorem recvBytes_frame {bs front : List Byte} {last : Byte} {s : State} {g f : Frx} {e : FrxEvent} (now : U32)
    (hb : bs = front ++ [last]) (hq : quietRun s.cfg.sof front s.frx = some g)
    (hl : frxStep s.cfg.sof last g = { frx := f, event := some e }) :
    recvBytes now bs s =
      onFrxEvent now e
        { s with frx := f, dl := { s.dl with rxBytes := s.dl.rxBytes + BitVec.ofNat 32 bs.length } } := by
  subst hb
  have h := recvBytes_quiet now front s g hq
  unfold recvBytes at h ⊢
  rw [List.foldl_append, h]
  simp only [List.foldl_cons, List.foldl_nil, recvByte]
  rw [frxByte_of_no_replay _ _ _ (by simp [hl])]
  simp [hl, deliverFrx, BitVec.ofNat_add, BitVec.add_assoc]

/-! ## What received bytes leave alone -/

/-- `t` is `s` after bytes were received: configuration, ports, inbox, `now` and `ret` are as before, and the channels have
only grown. -/
structure Received (s t : State) : Prop where
  mode : t.mode = s.mode
  cfg : t.cfg = s.cfg
  ports : t.ports = s.ports
  inbox : t.inbox = s.inbox
  now : t.now = s.now
  ret : t.ret = s.ret
  txOut : s.txOut <+: t.txOut
  frxOut : s.frxOut <+: t.frxOut
  dlUp : s.dlUp <+: t.dlUp
  portOut : s.portOut <+: t.portOut

theorem Received.refl (s : State) : Received s s :=
  ⟨rfl, rfl, rfl, rfl, rfl, rfl, List.prefix_rfl, List.prefix_rfl, List.prefix_rfl, List.prefix_rfl⟩

theorem Received.trans {s t u : State} (h : Received s t) (k : Received t u) : Received s u where
  mode := k.mode.trans h.mode
  cfg := k.cfg.trans h.cfg
  ports := k.ports.trans h.ports
  inbox := k.inbox.trans h.inbox
  now := k.now.trans h.now
  ret := k.ret.trans h.ret
  txOut := h.txOut.trans k.txOut
  frxOut := h.frxOut.trans k.frxOut
  dlUp := h.dlUp.trans k.dlUp
  portOut := h.portOut.trans k.portOut

theorem Received.of_reacts {s t : State} (f : Frx) (h : Reacts { s with frx := f } t) : Received s t :=
  ⟨h.mode, h.cfg, h.ports, h.inbox, h.now, h.ret, h.txOut, h.frxOut, h.dlUp, h.portOut⟩

theorem frxRun_received (sink : FrxSink) (q : List Byte) (s : State) : Received s (frxRun sink q s) :=
  frxRun_induct sink Received Received.refl Received.trans
    (fun _ _ => Received.of_reacts _ (deliverFrx_reacts _ _ _)) q s

theorem recvByte_received (now : U32) (b : Byte) (s : State) : Received s (recvByte now s b) := by
  have h := frxRun_received (.dl now) [b] { s with dl := { s.dl with rxBytes := s.dl.rxBytes + 1 } }
  exact ⟨h.mode, h.cfg, h.ports, h.inbox, h.now, h.ret, h.txOut, h.frxOut, h.dlUp, h.portOut⟩

theorem recvBytes_received (now : U32) (bs : List Byte) (s : State) : Received s (recvBytes now bs s) := by
  unfold recvBytes
  induction bs generalizing s with
  | nil => exact Received.refl s
  | cons b bs ih => exact (recvByte_received now b s).trans (ih _)

theorem feedBytes_received (bs : List Byte) (s : State) : Received s (feedBytes bs s) := by
  unfold feedBytes
  induction bs generalizing s with
  | nil => exact Received.refl s
  | cons b bs ih => exact (frxRun_received .out [b] s).trans (ih _)

/-- DL_LL_RECV's loop is the loop of R183, once the command has begun. -/
theorem receives_recvBytes (now : U32) (bs : List Byte) (s : State) (h : SinkReady (.dl now) s) :
    Receives now bs s (recvBytes now bs s) := by
  induction bs generalizing s with
  | nil => exact .done s
  | cons b bs ih =>
    obtain ⟨n, -, hn⟩ := frxRuns_frxRun (.dl now) _ [b] { s with dl := { s.dl with rxBytes := s.dl.rxBytes + 1 } } h le_rfl
    have hr := recvByte_received now b s
    exact .byte hn (ih _ ⟨hr.now.trans h.1, hr.ret.trans h.2⟩)

end Sys2Proof.Machine
end

