-- ==== Sys2Proof/Laws/PerInstr.lean ====
section
/-! SUPPORT. What holds of every instruction as syntax, one lemma per constructor. -/

namespace Sys2Proof.Laws.EncodedLength

open Sys2Proof Sys2Proof.Machine

/-- The length in bytes of an instruction's words: the "record length" column of R91, and R80, R81 for the wire frames. -/
def wordLength : Instr → Nat
  | .frxByte _ => 2
  | .frxReset => 1
  | .ftxData _ _ pl => 8 + pl.length
  | .ftxLink _ _ => 4
  | .fidSub _ _ => 5
  | .fidInc _ => 3
  | .dlSend _ _ pl => 10 + pl.length
  | .dlLlRecv _ bs => 7 + bs.length
  | .dlProcess _ => 5
  | .dlServiceInterval _ => 5
  | .dlReset _ => 5
  | .dlStatus => 1
  | .dlOnFrame _ _ _ pl => 12 + pl.length
  | .dlOnLink _ _ _ => 8
  | .dlOnFramingError _ => 5
  | .tpSend _ _ _ _ pl => 11 + pl.length
  | .tpPortRegister _ _ => 6
  | .tpOnRecv _ pl => 6 + pl.length
  | .tpOnEvent _ => 2
  | .seqPush _ _ _ pl => 7 + pl.length
  | .seqReset _ => 2
  | .wireData _ _ _ pl => 12 + pl.length
  | .wireAckAll _ _ => 8
  | .wireAckOne _ _ => 8
  | .wireNackFrameId _ _ => 8
  | .wireNackFramingError _ _ => 8
  | .wireReset _ _ => 8

/-- The encoder gives the instruction as many bytes as its row of the table says. -/
def Statement (i : Instr) : Prop := ∀ sof : Byte, (encodeWith sof i).length = wordLength i

theorem encodeCounted_length (bs : List Byte) : (encodeCounted bs).length = 2 + bs.length := by
  simp [encodeCounted]

theorem frxByte (b : Byte) : Statement (.frxByte b) := by
  intro sof; rfl

theorem frxReset : Statement .frxReset := by
  intro sof; rfl

theorem ftxData (fid : U16) (m : U24) (pl : List Byte) : Statement (.ftxData fid m pl) := by
  intro sof; simp [encodeWith, wordLength, encodeCounted_length]; omega

theorem ftxLink (t : Byte) (fid : U16) : Statement (.ftxLink t fid) := by
  intro sof; rfl

theorem fidSub (a : U16) (b : U16) : Statement (.fidSub a b) := by
  intro sof; rfl

theorem fidInc (a : U16) : Statement (.fidInc a) := by
  intro sof; rfl

theorem dlSend (now : U32) (m : U24) (pl : List Byte) : Statement (.dlSend now m pl) := by
  intro sof; simp [encodeWith, wordLength, encodeCounted_length]; omega

theorem dlLlRecv (now : U32) (bs : List Byte) : Statement (.dlLlRecv now bs) := by
  intro sof; simp [encodeWith, wordLength, encodeCounted_length]; omega

theorem dlProcess (now : U32) : Statement (.dlProcess now) := by
  intro sof; rfl

theorem dlServiceInterval (now : U32) : Statement (.dlServiceInterval now) := by
  intro sof; rfl

theorem dlReset (now : U32) : Statement (.dlReset now) := by
  intro sof; rfl

theorem dlStatus : Statement .dlStatus := by
  intro sof; rfl

theorem dlOnFrame (now : U32) (fid : U16) (m : U24) (pl : List Byte) : Statement (.dlOnFrame now fid m pl) := by
  intro sof; simp [encodeWith, wordLength, encodeCounted_length]; omega

theorem dlOnLink (now : U32) (t : Byte) (fid : U16) : Statement (.dlOnLink now t fid) := by
  intro sof; rfl

theorem dlOnFramingError (now : U32) : Statement (.dlOnFramingError now) := by
  intro sof; rfl

theorem tpSend (now : U32) (p : Byte) (sq : Byte) (pd : U16) (pl : List Byte) : Statement (.tpSend now p sq pd pl) := by
  intro sof; simp [encodeWith, wordLength, encodeCounted_length]; omega

theorem tpPortRegister (p : Byte) (h : U32) : Statement (.tpPortRegister p h) := by
  intro sof; rfl

theorem tpOnRecv (m : U24) (pl : List Byte) : Statement (.tpOnRecv m pl) := by
  intro sof; simp [encodeWith, wordLength, encodeCounted_length]; omega

theorem tpOnEvent (ev : Byte) : Statement (.tpOnEvent ev) := by
  intro sof; rfl

theorem seqPush (p : Byte) (sq : Byte) (pd : U16) (pl : List Byte) : Statement (.seqPush p sq pd pl) := by
  intro sof; simp [encodeWith, wordLength, encodeCounted_length]; omega

theorem seqReset (p : Byte) : Statement (.seqReset p) := by
  intro sof; rfl

theorem wireData (rsv : BitVec 2) (fid : Fid) (m : U24) (pl : List Byte) : Statement (.wireData rsv fid m pl) := by
  intro sof; simp [encodeWith, wordLength, frameOverhead]

theorem wireAckAll (rsv : BitVec 2) (fid : Fid) : Statement (.wireAckAll rsv fid) := by
  intro sof; rfl

theorem wireAckOne (rsv : BitVec 2) (fid : Fid) : Statement (.wireAckOne rsv fid) := by
  intro sof; rfl

theorem wireNackFrameId (rsv : BitVec 2) (fid : Fid) : Statement (.wireNackFrameId rsv fid) := by
  intro sof; rfl

theorem wireNackFramingError (rsv : BitVec 2) (fid : Fid) : Statement (.wireNackFramingError rsv fid) := by
  intro sof; rfl

theorem wireReset (rsv : BitVec 2) (fid : Fid) : Statement (.wireReset rsv fid) := by
  intro sof; rfl

end Sys2Proof.Laws.EncodedLength
end

