-- ==== Sys2Proof/Machine/Asm.lean ====
section
/-! DEFINITION. The assembly syntax of spec/30_encoding.md R94: one command or pseudo-command a line,
`<instance>: <MNEMONIC> <field>=<value> ...`, values decimal or 0x hex, byte lists in brackets or as hex bytes, `now`
defaulting to the line before, and `;` before a comment. What R94 leaves open is settled as log 25 lists. -/

namespace Sys2Proof.Machine

/-- Why a line is refused (R94). -/
inductive AsmError where
  | noInstance
  | noMnemonic
  | unknownMnemonic (name : String)
  | missingField (name : String)
  | badValue (name : String)
  | unexpectedWord
deriving DecidableEq, Repr

/-! ## Characters, words and numbers -/

/-- The pieces of a text between the characters that satisfy p. -/
def splitWhere (p : Char → Bool) : List Char → List (List Char)
  | [] => [[]]
  | c :: cs =>
    if p c then [] :: splitWhere p cs
    else
      match splitWhere p cs with
      | w :: ws => (c :: w) :: ws
      | [] => [[c]]

/-- The words of a text: what stands between white space. -/
def wordsOf (cs : List Char) : List (List Char) :=
  (splitWhere (fun c => c = ' ' ∨ c = '\t' ∨ c = '\r') cs).filter (fun w => w ≠ [])

/-- The line before a `;` (R94). DESIGN CHOICE (log 25): R94 calls the line `; text` a comment, and here a `;` after a command begins
one too. -/
def uncomment (cs : List Char) : List Char := cs.takeWhile (fun c => c ≠ ';')

/-- A digit's value. -/
def digitOf (c : Char) : Option Nat :=
  if '0' ≤ c ∧ c ≤ '9' then some (c.toNat - '0'.toNat)
  else if 'a' ≤ c ∧ c ≤ 'f' then some (c.toNat - 'a'.toNat + 10)
  else if 'A' ≤ c ∧ c ≤ 'F' then some (c.toNat - 'A'.toNat + 10)
  else none

/-- Digits in a base, most significant first. -/
def digitsOf (base : Nat) (acc : Nat) : List Char → Option Nat
  | [] => some acc
  | c :: cs =>
    match digitOf c with
    | some d => if d < base then digitsOf base (acc * base + d) cs else none
    | none => none

/-- A value, decimal or 0x hex (R94). -/
def numberOf : List Char → Option Nat
  | [] => none
  | ['0', 'x'] => none
  | '0' :: 'x' :: ds => digitsOf 16 0 ds
  | ds => digitsOf 10 0 ds

/-- The two texts around the first character that is c. -/
def cutAt (c : Char) : List Char → Option (List Char × List Char)
  | [] => none
  | x :: xs =>
    if x = c then some ([], xs)
    else
      match cutAt c xs with
      | some (front, back) => some (x :: front, back)
      | none => none

/-! ## Byte lists -/

/-- A byte. -/
def byteOfNumber (n : Nat) : Option Byte := if n < 256 then some (BitVec.ofNat 8 n) else none

/-- An item of a bracketed list: a byte, or `a..b` for the bytes a to b (R94; the ranges of 95_test_vectors.md Part 9). -/
def listItem (w : List Char) : Option (List Byte) :=
  match cutAt '.' w with
  | none => ((numberOf w).bind byteOfNumber).map fun b => [b]
  | some (a, '.' :: b) =>
    match numberOf a, numberOf b with
    | some lo, some hi => if lo ≤ hi ∧ hi < 256 then some ((List.range' lo (hi + 1 - lo)).map (BitVec.ofNat 8)) else none
    | _, _ => none
  | some _ => none

/-- Every piece read, or none. -/
def readAll (f : List Char → Option (List Byte)) : List (List Char) → Option (List Byte)
  | [] => some []
  | w :: ws =>
    match f w, readAll f ws with
    | some a, some rest => some (a ++ rest)
    | _, _ => none

/-- Two hex digits. -/
def hexByte (w : List Char) : Option (List Byte) :=
  if w.length = 2 then (digitsOf 16 0 w).map fun n => [BitVec.ofNat 8 n] else none

/-- The one word of a text: white space may stand around it, and two words are none. -/
def soleWord (cs : List Char) : Option (List Char) :=
  match wordsOf cs with
  | [w] => some w
  | _ => none

/-- A byte list: `[b0, b1, ...]` or hex bytes `55 55 00 ...` (R94). DESIGN CHOICE (log 25): R94 is silent on white space inside the
brackets, and here it may stand around an item and not inside one, so `[1 2, 3]` is refused. -/
def bytesOfWords (ws : List (List Char)) : Option (List Byte) :=
  match (ws.intersperse [' ']).flatten with
  | '[' :: text =>
    if text.getLast? = some ']' then
      if wordsOf text.dropLast = [] then some []
      else readAll (fun item => (soleWord item).bind listItem) (splitWhere (fun c => c = ',') text.dropLast)
    else none
  | _ => readAll hexByte ws

/-! ## Fields -/

/-- A field as written: its name, and the words of its value. -/
abbrev AsmField := List Char × List (List Char)

/-- The words after the mnemonic: those before the first field, and the fields, each with the words up to the next. -/
def groupFields (ws : List (List Char)) : List (List Char) × List AsmField :=
  ws.foldr (fun w acc =>
    match cutAt '=' w with
    | some (name, value) => ([], (name, (if value = [] then acc.1 else value :: acc.1)) :: acc.2)
    | none => (w :: acc.1, acc.2)) ([], [])

/-- The value of a field, as words. -/
def fieldWords (fs : List AsmField) (name : String) : Except AsmError (List (List Char)) :=
  match fs.lookup name.toList with
  | some ws => .ok ws
  | none => .error (.missingField name)

/-- A number that fits w bits (R93). -/
def fieldNumber (w : Nat) (fs : List AsmField) (name : String) : Except AsmError (BitVec w) := do
  match ← fieldWords fs name with
  | [v] =>
    match numberOf v with
    | some n => if n < 2 ^ w then .ok (BitVec.ofNat w n) else .error (.badValue name)
    | none => .error (.badValue name)
  | _ => .error (.badValue name)

/-- A byte list. -/
def fieldBytes (fs : List AsmField) (name : String) : Except AsmError (List Byte) := do
  match bytesOfWords (← fieldWords fs name) with
  | some bs => .ok bs
  | none => .error (.badValue name)

/-- `now`: where it is not written, the `now` of the previous line (R94). -/
def fieldNow (previous : U32) (fs : List AsmField) : Except AsmError U32 :=
  match fs.lookup "now".toList with
  | none => .ok previous
  | some _ => fieldNumber 32 fs "now"

/-- `edit=<i>^<mask>`, optional (R95). -/
def fieldEdit (fs : List AsmField) : Except AsmError (Option (Nat × Byte)) :=
  match fs.lookup "edit".toList with
  | none => .ok none
  | some [v] =>
    match cutAt '^' v with
    | some (i, mask) =>
      match numberOf i, (numberOf mask).bind byteOfNumber with
      | some i, some m => .ok (some (i, m))
      | _, _ => .error (.badValue "edit")
    | none => .error (.badValue "edit")
  | some _ => .error (.badValue "edit")

/-! ## Lines -/

/-- A command by its mnemonic, its fields named as in R91 (the count n is the length of the byte list). -/
def asmCommand (mnemonic : List Char) (previous : U32) (fs : List AsmField) : Except AsmError Instr := do
  let is := fun (m : String) => decide (mnemonic = m.toList)
  if is "FRX_BYTE" then .ok (.frxByte (← fieldNumber 8 fs "b"))
  else if is "FRX_RESET" then .ok .frxReset
  else if is "FTX_DATA" then
    .ok (.ftxData (← fieldNumber 16 fs "frame_id") (← fieldNumber 24 fs "metadata") (← fieldBytes fs "payload"))
  else if is "FTX_LINK" then .ok (.ftxLink (← fieldNumber 8 fs "type") (← fieldNumber 16 fs "frame_id"))
  else if is "FID_SUB" then .ok (.fidSub (← fieldNumber 16 fs "a") (← fieldNumber 16 fs "b"))
  else if is "FID_INC" then .ok (.fidInc (← fieldNumber 16 fs "a"))
  else if is "DL_SEND" then
    .ok (.dlSend (← fieldNow previous fs) (← fieldNumber 24 fs "metadata") (← fieldBytes fs "payload"))
  else if is "DL_LL_RECV" then .ok (.dlLlRecv (← fieldNow previous fs) (← fieldBytes fs "bytes"))
  else if is "DL_PROCESS" then .ok (.dlProcess (← fieldNow previous fs))
  else if is "DL_SERVICE_INTERVAL" then .ok (.dlServiceInterval (← fieldNow previous fs))
  else if is "DL_RESET" then .ok (.dlReset (← fieldNow previous fs))
  else if is "DL_STATUS" then .ok .dlStatus
  else if is "DL_ON_FRAME" then
    .ok (.dlOnFrame (← fieldNow previous fs) (← fieldNumber 16 fs "frame_id") (← fieldNumber 24 fs "metadata")
      (← fieldBytes fs "payload"))
  else if is "DL_ON_LINK" then
    .ok (.dlOnLink (← fieldNow previous fs) (← fieldNumber 8 fs "type") (← fieldNumber 16 fs "frame_id"))
  else if is "DL_ON_FRAMING_ERROR" then .ok (.dlOnFramingError (← fieldNow previous fs))
  else if is "TP_SEND" then
    .ok (.tpSend (← fieldNow previous fs) (← fieldNumber 8 fs "port_id") (← fieldNumber 8 fs "seq")
      (← fieldNumber 16 fs "port_data") (← fieldBytes fs "payload"))
  else if is "TP_PORT_REGISTER" then
    .ok (.tpPortRegister (← fieldNumber 8 fs "port_id") (← fieldNumber 32 fs "handle"))
  else if is "TP_ON_RECV" then .ok (.tpOnRecv (← fieldNumber 24 fs "metadata") (← fieldBytes fs "payload"))
  else if is "TP_ON_EVENT" then .ok (.tpOnEvent (← fieldNumber 8 fs "event"))
  else if is "SEQ_PUSH" then
    .ok (.seqPush (← fieldNumber 8 fs "port_id") (← fieldNumber 8 fs "seq") (← fieldNumber 16 fs "port_data")
      (← fieldBytes fs "payload"))
  else if is "SEQ_RESET" then .ok (.seqReset (← fieldNumber 8 fs "port_id"))
  else .error (.unknownMnemonic (String.ofList mnemonic))

/-- A line's words after its instance: a pseudo-command (R95) or a command; only WIRE has a word before its fields. -/
def asmBody (name : String) (mnemonic : List Char) (previous : U32) (before : List (List Char)) (fs : List AsmField) :
    Except AsmError Line := do
  let is := fun (m : String) => decide (mnemonic = m.toList)
  if is "WIRE" then
    match before with
    | [target] => .ok (.wire name (String.ofList target) (← fieldNow previous fs) (← fieldEdit fs))
    | _ => .error .unexpectedWord
  else if before ≠ [] then .error .unexpectedWord
  else if is "DRAIN" then .ok (.drain name)
  else if is "FRX_FEED" then .ok (.frxFeed name (← fieldBytes fs "bytes"))
  else if is "TP_SEND_MSG" then
    .ok (.tpSendMsg name (← fieldNow previous fs) (← fieldNumber 8 fs "port_id") (← fieldNumber 16 fs "port_data")
      (← fieldBytes fs "payload") (← fieldNumber 16 fs "chunk").toNat)
  else .ok (.command name (← asmCommand mnemonic previous fs))

/-- One line of text; none where it holds nothing but a comment (R94). -/
def asmLine (previous : U32) (text : List Char) : Except AsmError (Option Line) :=
  match wordsOf (uncomment text) with
  | [] => .ok none
  | w :: ws =>
    match cutAt ':' w with
    | some (name, []) =>
      if name = [] then .error .noInstance
      else
        match ws with
        | [] => .error .noMnemonic
        | m :: rest => (asmBody (String.ofList name) m previous (groupFields rest).1 (groupFields rest).2).map some
    | _ => .error .noInstance

/-- The `now` an instruction carries (R180). -/
def instrNow : Instr → Option U32
  | .dlSend now _ _ | .dlLlRecv now _ | .dlProcess now | .dlServiceInterval now | .dlReset now | .dlOnFrame now _ _ _
  | .dlOnLink now _ _ | .dlOnFramingError now | .tpSend now _ _ _ _ => some now
  | .frxByte _ | .frxReset | .ftxData _ _ _ | .ftxLink _ _ | .fidSub _ _ | .fidInc _ | .dlStatus | .tpPortRegister _ _
  | .tpOnRecv _ _ | .tpOnEvent _ | .seqPush _ _ _ _ | .seqReset _ | .wireData _ _ _ _ | .wireAckAll _ _
  | .wireAckOne _ _ | .wireNackFrameId _ _ | .wireNackFramingError _ _ | .wireReset _ _ => none

/-- The `now` a line leaves as the default of the next: its own where it has one (R94). DESIGN CHOICE (log 25): a line without a `now`
hands on the default it got. -/
def lineNow (previous : U32) : Line → U32
  | .command _ i => (instrNow i).getD previous
  | .wire _ _ now _ => now
  | .tpSendMsg _ now _ _ _ _ => now
  | .drain _ => previous
  | .frxFeed _ _ => previous

/-- The lines of a program, from a default `now` on. -/
def asmLines : U32 → List (List Char) → Except AsmError (List Line)
  | _, [] => .ok []
  | previous, text :: rest => do
    match ← asmLine previous text with
    | none => asmLines previous rest
    | some l => .ok (l :: (← asmLines (lineNow previous l) rest))

/-- A program's text: `now` defaults to 0 on its first line (R94). -/
def assemble (text : String) : Except AsmError (List Line) :=
  asmLines 0 (splitWhere (fun c => c = '\n') text.toList)

end Sys2Proof.Machine
end

