-- ==== Sys2Proof/Tests/Slice0.lean ====
section
/-! SUPPORT. The model's own tests: ill-formed terms refused, words written out from the spec's encodings, one or two steps per
instruction with results from spec/95_test_vectors.md and the rules' examples, and a witness for the hypotheses of each statement. -/

namespace Sys2Proof.Tests

set_option Elab.async false

open Sys2Proof Sys2Proof.Machine

/-! ## States the tests start from -/

/-- A block in unit mode of DL, as Part 5 of the vectors uses it. -/
def dlUnit : State := State.initial (.unit .dl) Config.conventions

/-- A stand-alone FRX, as Part 4 of the vectors uses it. -/
def frxUnit : State := State.initial (.unit .frx) Config.conventions

/-- Port 5 has a sequencer with REASM_MAX 4. -/
def seqConfig : Config :=
  { Config.conventions with
    reasmEnable := (Vector.replicate 64 false).set 5 true
    reasmMax := (Vector.replicate 64 1).set 5 4 }

/-- A composed block where port 5 is registered with handle 0x11 and has a sequencer. -/
def withPort : State :=
  { State.initial .composed seqConfig with ports := (Vector.replicate 64 .empty).set 5 (.reg 0x11) }

/-- `withPort` with a sequencer that holds the bytes given. -/
def withPartial (held : List Byte) : State := withPort.setSequencer 5 ⟨true, held, 0x55, 7⟩

/-- G0, G1, G2 of Part 5.2: DATA frames 0, 1, 2 with metadata 0 and payloads [0], [1], [2]. -/
def g0 : List Byte := [0x55, 0x55, 0x00, 0x00, 0x00, 0x00, 0x00, 0x00, 0x00, 0x7E, 0xDF, 0x6C, 0x9D]
def g1 : List Byte := [0x55, 0x55, 0x00, 0x00, 0x01, 0x00, 0x00, 0x00, 0x01, 0x58, 0xC6, 0x0B, 0xD7]
def g2 : List Byte := [0x55, 0x55, 0x00, 0x00, 0x02, 0x00, 0x00, 0x00, 0x02, 0x32, 0xED, 0xA2, 0x09]

/-- A DL in unit mode with frames 0, 1, 2 in flight, sent at 0. -/
def inFlight3 : State :=
  { dlUnit with
    dl := { Dl.reset with
      txFrameId := 3, txBytes := 39, inflight := [⟨0, g0, 0, 1⟩, ⟨1, g1, 0, 1⟩, ⟨2, g2, 0, 1⟩] } }

/-- The next state of an outcome, if it is one. -/
def after (o : Host.Outcome State Fault Refusal) : Option State :=
  match o with
  | .next s => some s
  | .fault _ => none
  | .refused _ => none

/-- The state with one input issued. -/
def issued (s : State) (input : Input) : State := { s with inbox := [input] }

/-! ## Ill-formed instructions -/

/-- 65536 bytes: one more than a u16 counts. -/
def tooMany : List Byte := List.replicate 65536 0

theorem test_countFits_refuses : countFits tooMany = false := by
  rw [countFits, tooMany, List.length_replicate]; rfl
theorem test_countFits_accepts : countFits (List.replicate 65535 0) = true := by
  rw [countFits, List.length_replicate]; rfl
theorem test_ftxData_ill_formed : Instr.wf (.ftxData 0 0 tooMany) = false := test_countFits_refuses
theorem test_dlSend_ill_formed : Instr.wf (.dlSend 0 0 tooMany) = false := test_countFits_refuses
theorem test_dlLlRecv_ill_formed : Instr.wf (.dlLlRecv 0 tooMany) = false := test_countFits_refuses
theorem test_dlOnFrame_ill_formed : Instr.wf (.dlOnFrame 0 0 0 tooMany) = false := test_countFits_refuses
theorem test_tpSend_ill_formed : Instr.wf (.tpSend 0 0 0 0 tooMany) = false := test_countFits_refuses
theorem test_tpOnRecv_ill_formed : Instr.wf (.tpOnRecv 0 tooMany) = false := test_countFits_refuses
theorem test_seqPush_ill_formed : Instr.wf (.seqPush 0 0 0 tooMany) = false := test_countFits_refuses
theorem test_wireData_empty_ill_formed : Instr.wf (.wireData 0 0 0 []) = false := rfl
theorem test_wireData_257_ill_formed : Instr.wf (.wireData 0 0 0 (List.replicate 257 0)) = false := by
  decide +kernel
theorem test_wireData_256_well_formed : Instr.wf (.wireData 0 0 0 (List.replicate 256 0)) = true := by
  decide +kernel

/-! ## Words written out from R91 and R80, R81 -/

theorem test_decode_frxByte : decodeRecord [0x00, 0x7A] = .ok (.frxByte 0x7A) := by decide
theorem test_decode_frxReset : decodeRecord [0x01] = .ok .frxReset := by decide
theorem test_decode_ftxData : decodeRecord [0x10, 0x23, 0x01, 0xC5, 0x34, 0x12, 0x01, 0x00, 0xAB] =
    .ok (.ftxData 0x123 0x1234C5 [0xAB]) := by decide
theorem test_decode_ftxLink : decodeRecord [0x11, 0x06, 0x34, 0x12] = .ok (.ftxLink 6 0x1234) := by decide
theorem test_decode_fidSub : decodeRecord [0x20, 0x00, 0x04, 0xFF, 0x07] = .ok (.fidSub 0x0400 0x07FF) := by decide
theorem test_decode_fidInc : decodeRecord [0x21, 0xFE, 0x07] = .ok (.fidInc 0x07FE) := by decide
theorem test_decode_dlSend : decodeRecord [0x30, 0x04, 0x03, 0x02, 0x01, 0x07, 0x06, 0x05, 0x02, 0x00, 0xAA, 0xBB] =
    .ok (.dlSend 0x01020304 0x050607 [0xAA, 0xBB]) := by decide
theorem test_decode_dlLlRecv : decodeRecord [0x31, 0x0A, 0x00, 0x00, 0x80, 0x03, 0x00, 1, 2, 3] =
    .ok (.dlLlRecv 0x8000000A [1, 2, 3]) := by decide
theorem test_decode_dlProcess : decodeRecord [0x32, 0x4D, 0x04, 0x00, 0x00] = .ok (.dlProcess 1101) := by decide
theorem test_decode_dlServiceInterval : decodeRecord [0x33, 0x1A, 0x04, 0x00, 0x00] = .ok (.dlServiceInterval 1050) := by
  decide
theorem test_decode_dlReset : decodeRecord [0x34, 0x01, 0x02, 0x03, 0x04] = .ok (.dlReset 0x04030201) := by decide
theorem test_decode_dlStatus : decodeRecord [0x35] = .ok .dlStatus := by decide
theorem test_decode_dlOnFrame :
    decodeRecord [0x36, 0x01, 0x00, 0x00, 0x00, 0xFF, 0x07, 0x03, 0x02, 0x01, 0x01, 0x00, 0x42] =
      .ok (.dlOnFrame 1 0x7FF 0x010203 [0x42]) := by decide
theorem test_decode_dlOnLink : decodeRecord [0x37, 0x01, 0x00, 0x00, 0x00, 0x04, 0x09, 0x00] = .ok (.dlOnLink 1 4 9) := by
  decide
theorem test_decode_dlOnFramingError : decodeRecord [0x38, 0x02, 0x00, 0x00, 0x00] = .ok (.dlOnFramingError 2) := by decide
theorem test_decode_tpSend : decodeRecord [0x40, 0x05, 0x00, 0x00, 0x00, 0x3F, 0x03, 0x34, 0x12, 0x01, 0x00, 0xAB] =
    .ok (.tpSend 5 63 3 0x1234 [0xAB]) := by decide
theorem test_decode_tpPortRegister : decodeRecord [0x41, 0x3F, 0x78, 0x56, 0x34, 0x12] =
    .ok (.tpPortRegister 63 0x12345678) := by decide
theorem test_decode_tpOnRecv : decodeRecord [0x42, 0x85, 0x34, 0x12, 0x01, 0x00, 0x09] =
    .ok (.tpOnRecv 0x123485 [9]) := by decide
theorem test_decode_tpOnEvent : decodeRecord [0x43, 0x02] = .ok (.tpOnEvent 2) := by decide
theorem test_decode_seqPush : decodeRecord [0x50, 0x07, 0x01, 0x34, 0x12, 0x01, 0x00, 0xEE] =
    .ok (.seqPush 7 1 0x1234 [0xEE]) := by decide
theorem test_decode_seqReset : decodeRecord [0x51, 0x05] = .ok (.seqReset 5) := by decide
/-- V-FTX-2. -/
theorem test_decode_wireData : decodeWire 0x55
    [0x55, 0x55, 0x00, 0x07, 0x01, 0x02, 0x00, 0x00, 1, 2, 3, 4, 5, 6, 7, 8, 0x9D, 0xDD, 0xE9, 0x35] =
      .ok (.wireData 0 1 2 [1, 2, 3, 4, 5, 6, 7, 8]) := by decide +kernel
/-- V-FRX-13b: reserved bits 0b11. -/
theorem test_decode_wireAckAll_rsv : decodeWire 0x55 [0x55, 0x55, 0x38, 0x02, 0x28, 0xCF, 0x48, 0xB8] =
    .ok (.wireAckAll 3 2) := by decide +kernel
/-- Part 2.2, fid 0x123. -/
theorem test_decode_wireAckOne : decodeWire 0x55 [0x55, 0x55, 0x61, 0x23, 0x6B, 0x39, 0x58, 0x9F] =
    .ok (.wireAckOne 0 0x123) := by decide +kernel
theorem test_decode_wireNackFrameId : decodeWire 0x55 [0x55, 0x55, 0x81, 0x23, 0x87, 0xCA, 0x26, 0xC1] =
    .ok (.wireNackFrameId 0 0x123) := by decide +kernel
theorem test_decode_wireNackFramingError : decodeWire 0x55 [0x55, 0x55, 0xA7, 0xFF, 0x5C, 0xD7, 0x9D, 0x8D] =
    .ok (.wireNackFramingError 0 2047) := by decide +kernel
theorem test_decode_wireReset : decodeWire 0x55 [0x55, 0x55, 0xC0, 0x00, 0xB1, 0xC5, 0x23, 0x8A] =
    .ok (.wireReset 0 0) := by decide +kernel
/-- R84 (a): type code 0b111. -/
theorem test_decode_invalid_type : decodeWire 0x55 [0x55, 0x55, 0xE0, 0, 0, 0, 0, 0] = .error .badFrameType := by decide
theorem test_decode_bad_crc : decodeWire 0x55 [0x55, 0x55, 0x20, 0x02, 0x71, 0x57, 0x53, 0x3B] = .error .badCrc := by
  decide +kernel
/-- The check value of R5: crc32("123456789"). -/
theorem test_crc_check_value : crc32 [0x31, 0x32, 0x33, 0x34, 0x35, 0x36, 0x37, 0x38, 0x39] = 0xCBF43926 := by
  decide +kernel
theorem test_decode_trailing : decodeRecord [0x35, 0x00] = .error .trailingBytes := by decide
theorem test_decode_empty : decodeRecord [] = .error .truncated := by decide

/-! ## FRX -/

theorem test_frxByte_sof : after (exec (.frxByte 0x55) frxUnit) =
    some { frxUnit with frx := { Frx.reset with buf := [0x55], rxState := .searchSof2 } } := by decide +kernel
/-- V-FRX-7: a failed CRC, its replay, and a frame found inside the payload. -/
theorem test_frxByte_replay :
    (after (step (issued frxUnit (.wire [0x55, 0x55, 0x00, 0x07, 0, 0, 0, 0, 0x55, 0x55, 0x20, 0x05, 0xD2, 0xC2, 0x37, 0xA4,
      0x92, 0x3A, 0x65, 0x51])))).map (fun s => (s.frxOut, s.frx)) =
    some ([.framingError, .link .ackAll 5, .framingError],
      { rxState := .searchSof, buf := [], expected := 20, sync := .lost, crcErrors := 1, resync := 2 }) := by
  decide +kernel
/-- V-FRX-12, after the bytes 55 55 00 07. -/
theorem test_frxReset : (after (exec .frxReset
      { frxUnit with frx := { Frx.reset with rxState := .storeHeader, buf := [0x55, 0x55, 0x00, 0x07] } })).map
    (fun s => (s.frxOut, s.frx)) = some ([], Frx.reset) := by decide +kernel

/-! ## FTX and FID -/

/-- V-FTX-5. -/
theorem test_ftxData : (after (exec (.ftxData 0x123 0x1234C5 [0xAB]) State.reset)).map State.ret =
    some (.frame [0x55, 0x55, 0x01, 0x00, 0x23, 0xC5, 0x34, 0x12, 0xAB, 0xD5, 0xD8, 0x7B, 0xE6]) := by decide +kernel
/-- V-FTX-9. -/
theorem test_ftxData_fid_2048 : after (exec (.ftxData 2048 0 [0]) State.reset) =
    some { State.reset with ret := .result .invalidParameter } := by decide +kernel
theorem test_ftxLink : (after (exec (.ftxLink 1 2) State.reset)).map State.ret =
    some (.frame [0x55, 0x55, 0x20, 0x02, 0x71, 0x57, 0x53, 0x3A]) := by decide +kernel
theorem test_ftxLink_type_8 : (after (exec (.ftxLink 8 0) State.reset)).map State.ret =
    some (.result .invalidParameter) := by decide +kernel
/-- V-FID-8, V-FID-9. -/
theorem test_fidSub_midpoint : (after (exec (.fidSub 1024 0) State.reset)).map State.ret = some (.distance (-1024)) ∧
    (after (exec (.fidSub 0 1024) State.reset)).map State.ret = some (.distance 1024) := by decide +kernel
theorem test_fidSub_wrap : (after (exec (.fidSub 0 2047) State.reset)).map State.ret = some (.distance 1) := by
  decide +kernel
theorem test_fidInc_wrap : (after (exec (.fidInc 2047) State.reset)).map State.ret = some (.frameId 0) := by decide +kernel

/-! ## DL -/

/-- V-DL-1. -/
theorem test_dlSend : (after (exec (.dlSend 0 2 [1, 2, 3, 4, 5, 6, 7, 8]) dlUnit)).map
    (fun s => (s.ret, s.txOut, s.dl.txFrameId, s.dl.txBytes)) =
    some (.result .ok, [0x55, 0x55, 0x00, 0x07, 0x00, 0x02, 0x00, 0x00, 1, 2, 3, 4, 5, 6, 7, 8, 0xF2, 0x91, 0x4C, 0xAE],
      1, 20) := by decide +kernel
theorem test_dlSend_empty : after (exec (.dlSend 9 2 []) dlUnit) =
    some { dlUnit with now := 9, ret := .result .invalidParameter } := by decide +kernel
/-- V-DL-2. -/
theorem test_dlLlRecv : (after (exec (.dlLlRecv 0
      [0x55, 0x55, 0x00, 0x07, 0x00, 0x02, 0x00, 0x00, 1, 2, 3, 4, 5, 6, 7, 8, 0xF2, 0x91, 0x4C, 0xAE]) dlUnit)).map
      (fun s => (s.dlUp, s.txOut, s.status)) =
    some ([.recv 2 [1, 2, 3, 4, 5, 6, 7, 8]], [0x55, 0x55, 0x20, 0x00, 0x5D, 0x36, 0x5D, 0xD4],
      [8, 0, 0, 0, 0, 20, 1, 0, 0, 0]) := by decide +kernel
/-- The example of R195. -/
theorem test_dlLlRecv_garbage : (after (exec (.dlLlRecv 0 [0x00]) dlUnit)).map (fun s => (s.txOut, s.frx.resync)) =
    some ([0x55, 0x55, 0xA0, 0x00, 0x16, 0xAE, 0xDE, 0xEF], 1) := by decide +kernel
/-- The example of R192: due at 101 ms, not at 100. -/
theorem test_dlProcess : (after (exec (.dlProcess 100) inFlight3)).map (fun s => s.txOut) = some [] ∧
    (after (exec (.dlProcess 101) inFlight3)).map (fun s => (s.txOut, s.dl.inflight.map InFlight.attempts)) =
      some (g0 ++ g1 ++ g2, [2, 2, 2]) := by decide +kernel
/-- The example of R194 with one send time. -/
theorem test_dlServiceInterval : (after (exec (.dlServiceInterval 50) inFlight3)).map State.ret = some (.millis 51) ∧
    (after (exec (.dlServiceInterval 101) inFlight3)).map State.ret = some (.millis 0) := by decide +kernel
/-- The example of R196. -/
theorem test_dlReset : (after (exec (.dlReset 0) inFlight3)).map (fun s => (s.txOut, s.status, s.dlUp)) =
    some ([0x55, 0x55, 0xC0, 0x00, 0xB1, 0xC5, 0x23, 0x8A], [8, 0, 0, 0, 0, 0, 0, 0, 0, 0], [.event .reset]) := by
  decide +kernel
theorem test_dlStatus : (after (exec .dlStatus inFlight3)).map State.ret =
    some (.status [39, 0, 0, 0, 0, 0, 0, 0, 0, 0]) := by decide +kernel
/-- The example of R184: fid 1 where 0 is expected. -/
theorem test_dlOnFrame_nack : (after (exec (.dlOnFrame 0 1 2 [9]) dlUnit)).map (fun s => (s.dlUp, s.txOut)) =
    some ([], [0x55, 0x55, 0x80, 0x00, 0xB4, 0x8A, 0x5A, 0x7A]) := by decide +kernel
/-- V-DL-3w: across the wrap. -/
theorem test_dlOnFrame_wrap :
    (after (exec (.dlOnFrame 0 2047 0 [1]) { dlUnit with dl := { Dl.reset with rxFrameId := 2047 } })).map
      (fun s => (s.dlUp, s.txOut, s.dl.rxFrameId)) =
    some ([.recv 0 [1]], [0x55, 0x55, 0x27, 0xFF, 0x17, 0x4F, 0x1E, 0xB6], 0) := by decide +kernel
/-- The example of R187: ACK_ONE(1). -/
theorem test_dlOnLink_ackOne : (after (exec (.dlOnLink 0 3 1) inFlight3)).map
    (fun s => (s.dl.inflight.map InFlight.fid, s.dl.txDataFrames)) = some ([0, 2], 1) := by decide +kernel
/-- The example of R186 out of range: ACK_ALL(1024) leaves only 0. -/
theorem test_dlOnLink_ackAll_out_of_range : (after (exec (.dlOnLink 0 1 1024) inFlight3)).map
    (fun s => s.dl.inflight.map InFlight.fid) = some [0] := by decide +kernel
theorem test_dlOnFramingError : (after (exec (.dlOnFramingError 0) dlUnit)).map (fun s => s.txOut) =
    some [0x55, 0x55, 0xA0, 0x00, 0x16, 0xAE, 0xDE, 0xEF] := by decide +kernel

/-! ## TP and SEQ -/

/-- The example of R230. -/
theorem test_tpSend : (after (exec (.tpSend 0 5 3 0x1234 [0xAB]) State.reset)).map (fun s => (s.txOut.drop 5).take 3) =
    some [0xC5, 0x34, 0x12] := by decide +kernel
theorem test_tpSend_port_64 : (after (exec (.tpSend 0 64 3 0 [1]) State.reset)).map State.ret =
    some (.result .invalidParameter) := by decide +kernel
/-- The examples of R233. -/
theorem test_tpPortRegister : (after (execAll [.tpPortRegister 7 0x77, .tpPortRegister 7 0x78] State.reset)).map
    (fun s => (s.ret, s.port 7)) = some (.result .ok, .reg 0x78) := by decide +kernel
theorem test_tpPortRegister_64 : (after (exec (.tpPortRegister 64 1) State.reset)).map State.ret =
    some (.result .invalidParameter) := by decide +kernel
/-- The example of R231, here with a sequencer, which takes the START segment. -/
theorem test_tpOnRecv : (after (exec (.tpOnRecv 0x123485 [9]) withPort)).map (fun s => (s.portOut, s.sequencer 5)) =
    some ([.recv 5 0x11 .start 0x1234 [9]], ⟨true, [9], 0x1234, 0⟩) := by decide +kernel
theorem test_tpOnRecv_dropped : after (exec (.tpOnRecv 0x123486 [9]) withPort) = some withPort := by decide +kernel
/-- The example of R232. -/
theorem test_tpOnEvent : (after (execAll [.tpPortRegister 3 7, .tpPortRegister 1 9, .tpOnEvent 0] State.reset)).map
    (fun s => s.portOut) = some [.event 1 9 .reset, .event 3 7 .reset] := by decide +kernel
/-- The example of R250. -/
theorem test_seqPush : (after (execAll [.seqPush 5 2 0x55 [3], .seqPush 5 0 0 [4, 5], .seqPush 5 1 0 [6]] withPort)).map
    (fun s => (s.portOut, (s.sequencer 5).active)) = some ([.msg 5 0x11 0x55 [3, 4, 5, 6]], false) := by decide +kernel
/-- R250: one byte more than REASM_MAX. -/
theorem test_seqPush_overflow : (after (exec (.seqPush 5 1 0 [4, 5]) (withPartial [1, 2, 3]))).map
    (fun s => (s.portOut, s.sequencer 5)) = some ([], ⟨false, [], 0, 8⟩) := by decide +kernel
/-- The example of R255. -/
theorem test_seqReset : (after (exec (.seqReset 5) (withPartial [1, 2]))).map (fun s => s.sequencer 5) =
    some ⟨false, [], 0, 7⟩ := by decide +kernel

/-! ## Wire frames -/

/-- V-DL-4: ACK_ALL(2). -/
theorem test_wireAckAll : (after (exec (.wireAckAll 0 2) inFlight3)).map (fun s => (s.dl.inflight, s.status)) =
    some ([], [39, 3, 0, 0, 0, 8, 0, 0, 0, 0]) := by decide +kernel
/-- V-DL-5: ACK_ONE(1). -/
theorem test_wireAckOne : (after (exec (.wireAckOne 0 1) inFlight3)).map (fun s => s.dl.inflight.map InFlight.fid) =
    some [0, 2] := by decide +kernel
/-- R188: NACK_FRAME_ID(1) acknowledges 0 and re-sends 1 and 2. -/
theorem test_wireNackFrameId : (after (exec (.wireNackFrameId 0 1) inFlight3)).map
    (fun s => (s.txOut, s.dl.txDataFrames, s.dl.txRetransmissions)) = some (g1 ++ g2, 1, 2) := by decide +kernel
theorem test_wireNackFramingError : (after (exec (.wireNackFramingError 0 2) inFlight3)).map (fun s => s.txOut) =
    some g2 := by decide +kernel
/-- The example of R190. -/
theorem test_wireReset : (after (exec (.wireReset 0 0) inFlight3)).map (fun s => (s.dl, s.txOut, s.dlUp)) =
    some (Dl.reset, [], [.event .reset]) := by decide +kernel
theorem test_wireData : (after (exec (.wireData 0 0 2 [9]) dlUnit)).map (fun s => (s.dlUp, s.dl.rxFrameId)) =
    some ([.recv 2 [9]], 1) := by decide +kernel

/-! ## Steps -/

theorem test_step_idle : step State.reset = .next State.reset := rfl
theorem test_step_refuses_internal : step (issued State.reset (.command [0x38, 0, 0, 0, 0])) =
    .refused (.notIssuableByHost .dl) := by rfl
theorem test_fetchWord_status : (after (step (State.reset.withFetchWord 8 0x35))).map State.ret =
    some (.status [0, 0, 0, 0, 0, 0, 0, 0, 0, 0]) := by decide +kernel
/-- The placed word of an internal command selects its unit mode. -/
theorem test_fetchWord_onFramingError : (after (step (State.reset.withFetchWord 8 0x38))).map (fun s => s.txOut) =
    some [0x55, 0x55, 0xA0, 0x00, 0x16, 0xAE, 0xDE, 0xEF] := by decide +kernel

/-! ## The host's side -/

/-- R94, R95: a line of assembly, run on two instances. -/
theorem test_wire_exchange :
    (runLines [.command "A" (.dlSend 0 0 [0]), .wire "A" "B" 0 none, .wire "B" "A" 0 none]
        [("A", dlUnit), ("B", dlUnit)]).map
      (fun y => y.map fun e => (e.1, e.2.dl.inflight, e.2.dlUp)) =
    some [("A", [], []), ("B", [], [.recv 0 [0]])] := by decide +kernel

/-- Line 4 of P1: the record of an assembled line. -/
theorem test_asm_tpSend :
    (asmLine 0 "A: TP_SEND now=1 port_id=5 seq=3 port_data=0x1234 payload=[0xAB]".toList).map (fun l => l.map fun
      | .command name i => (name, encode i)
      | _ => ("", [])) =
    .ok (some ("A", [0x40, 0x01, 0, 0, 0, 0x05, 0x03, 0x34, 0x12, 0x01, 0x00, 0xAB])) := by decide +kernel

theorem test_asm_byte_list : bytesOfWords (wordsOf "[ 1, 2 ,3]".toList) = some [1, 2, 3] ∧
    bytesOfWords (wordsOf "55 5a 00".toList) = some [0x55, 0x5A, 0x00] ∧
    bytesOfWords (wordsOf "[1 2, 3]".toList) = none ∧ bytesOfWords (wordsOf "[0..3]".toList) = some [0, 1, 2, 3] := by
  decide +kernel

/-! ## Witnesses: a concrete input that meets the hypotheses of each statement, one for each clause -/

/-- FRX holding the bytes given in the state given. -/
def frxAt (st : RxState) (buf : List Byte) (expected : Nat) : State :=
  { frxUnit with frx := { Frx.reset with rxState := st, buf := buf, expected := expected } }

/-- `inFlight3` composed and with an input pending. -/
def running : State := { inFlight3 with mode := .composed, inbox := [.command [0x35]] }

theorem witness_DecodeEncodeRecord :
    Instr.wf (.dlLlRecv 1 (List.replicate 65535 0)) = true ∧ Instr.isWire (.dlLlRecv 1 (List.replicate 65535 0)) = false :=
  ⟨test_countFits_accepts, rfl⟩

theorem witness_DecodeEncodeWire :
    Instr.wf (.wireData 3 2047 5 (List.replicate 256 0)) = true ∧ Instr.isWire (.wireData 3 2047 5 [0]) = true :=
  ⟨test_wireData_256_well_formed, rfl⟩

theorem witness_EncodeDecodeRecord : ∃ i, decodeRecord [0x11, 0x06, 0x34, 0x12] = .ok i := ⟨_, test_decode_ftxLink⟩

theorem witness_EncodeDecodeWire : ∃ i, decodeWire 0x55 [0x55, 0x55, 0xC0, 0x00, 0xB1, 0xC5, 0x23, 0x8A] = .ok i :=
  ⟨_, test_decode_wireReset⟩

theorem witness_TruncatedRecordRefused :
    Instr.wf (.fidSub 1 2) = true ∧ Instr.isWire (.fidSub 1 2) = false ∧ 4 < (encode (.fidSub 1 2)).length ∧
    (issued State.reset (.command ((encode (.fidSub 1 2)).take 4))).inbox =
      .command ((encode (.fidSub 1 2)).take 4) :: [] := by decide

theorem witness_InternalAndUnassignedOpcodes_internal :
    Instr.wf (.tpOnEvent 1) = true ∧ ((∃ m pl, Instr.tpOnEvent 1 = .tpOnRecv m pl) ∨ ∃ ev, Instr.tpOnEvent 1 = .tpOnEvent ev) ∧
    (issued State.reset (.command (encode (.tpOnEvent 1)))).mode = .composed ∧
    (issued (State.initial (.unit .tp) Config.conventions) (.command (encode (.tpOnEvent 1)))).mode = .unit .tp :=
  ⟨rfl, .inr ⟨1, rfl⟩, rfl, rfl⟩

theorem witness_InternalAndUnassignedOpcodes_unassigned :
    ∀ o ∈ ([0x02, 0x0F, 0x12, 0x1F, 0x22, 0x2F, 0x39, 0x3F, 0x44, 0x4F, 0x52, 0xFF] : List Byte),
      0x02 ≤ o.toNat ∧ o.toNat ≤ 0x0F ∨ 0x12 ≤ o.toNat ∧ o.toNat ≤ 0x1F ∨ 0x22 ≤ o.toNat ∧ o.toNat ≤ 0x2F ∨
      0x39 ≤ o.toNat ∧ o.toNat ≤ 0x3F ∨ 0x44 ≤ o.toNat ∧ o.toNat ≤ 0x4F ∨ 0x52 ≤ o.toNat := by decide

theorem witness_StepRunsNextInput_record :
    (issued State.reset (.command [0x35])).inbox = .command [0x35] :: [] ∧ decodeRecord [0x35] = .ok .dlStatus ∧
    Issuable (issued State.reset (.command [0x35])) .dlStatus := ⟨rfl, test_decode_dlStatus, rfl⟩

theorem witness_StepRunsNextInput_wire :
    decodeWire State.reset.cfg.sof [0x55, 0x55, 0xC0, 0x00, 0xB1, 0xC5, 0x23, 0x8A] = .ok (.wireReset 0 0) ∧
    decodeWire State.reset.cfg.sof [0x00] = .error .truncated ∧ State.reset.mode ≠ .unit .frx ∧
    frxUnit.mode = .unit .frx := by decide +kernel

theorem witness_PlacedWordRuns :
    decodeTableWord 8 0x35 = some .dlStatus ∧ decodeTableWord 64 0x3A53577102205555 = some (.wireAckAll 0 2) := by
  decide +kernel

theorem witness_SearchStates_searchSof : frxUnit.frx.Inv frxUnit.cfg.sof ∧ frxUnit.frx.rxState = .searchSof ∧
    (0x55 : Byte) = frxUnit.cfg.sof ∧ (0x54 : Byte) ≠ frxUnit.cfg.sof := ⟨rfl, rfl, rfl, by decide⟩

theorem witness_SearchStates_searchSof2 : (frxAt .searchSof2 [0x55] 0).frx.Inv 0x55 := rfl

theorem witness_SearchStates_searchFrameType : (frxAt .searchFrameType [0x55, 0x55] 0).frx.Inv 0x55 ∧
    kind 0x00 ≠ .invalid ∧ kind 0xDF ≠ .invalid ∧ kind 0xE0 = .invalid ∧ kind 0x5F = .invalid := ⟨rfl, by decide⟩

theorem witness_HeaderStored_short : (frxAt .storeHeader [0x55, 0x55, 0x00] 0).frx.Inv 0x55 ∧
    (frxAt .storeHeader [0x55, 0x55, 0x00] 0).frx.len < 7 :=
  ⟨⟨by decide, by decide, rfl, by decide⟩, by decide⟩

theorem witness_HeaderStored_full : (frxAt .storeHeader (g0.take 7) 0).frx.Inv 0x55 ∧
    (frxAt .storeHeader (g0.take 7) 0).frx.len = 7 ∧ kind (byteAt (g0.take 7) 2) = .data :=
  ⟨⟨by decide, by decide, rfl, by decide⟩, by decide, by decide⟩

/-- The first seven bytes of ACK_ALL(2), and its last byte, right or wrong. -/
theorem witness_LinkFrameComplete :
    let buf : List Byte := [0x55, 0x55, 0x20, 0x02, 0x71, 0x57, 0x53]
    (frxAt .storeHeader buf 0).frx.len = 7 ∧ kind (byteAt buf 2) = .link .ackAll ∧
    (crc32 [0x20, 0x02]).toNat = 0x71 + 2 ^ 8 * 0x57 + 2 ^ 16 * 0x53 + 2 ^ 24 * 0x3A ∧
    (crc32 [0x20, 0x02]).toNat ≠ 0x71 + 2 ^ 8 * 0x57 + 2 ^ 16 * 0x53 + 2 ^ 24 * 0x3B := by decide +kernel

theorem witness_DataFrameComplete : (frxAt .storeRemainder (g0.take 12) 13).frx.Inv 0x55 ∧
    (g0.take 12 ++ [0x9D]).length = 13 ∧ (g0.take 8 ++ [0x7E]).length < 13 ∧
    (crc32 ((g0.drop 2).take 7)).toNat = 0x7E + 2 ^ 8 * 0xDF + 2 ^ 16 * 0x6C + 2 ^ 24 * 0x9D ∧
    (crc32 ((g0.drop 2).take 7)).toNat ≠ 0x7E + 2 ^ 8 * 0xDF + 2 ^ 16 * 0x6C + 2 ^ 24 * 0x9C :=
  ⟨⟨by decide, by decide, by decide, rfl, by decide⟩, by decide +kernel⟩

theorem witness_FrxByteRunsToEnd : (frxAt .storeRemainder (g0.take 12) 13).frx.Inv 0x55 := witness_DataFrameComplete.1

theorem witness_RoundTripFraming : frxUnit.mode = .unit .frx ∧ frxUnit.cfg.wf = true ∧ frxUnit.frx.Searching ∧
    (2047 : U16).toNat ≤ 2047 ∧ (List.replicate 256 (0x55 : Byte)).length ≤ 256 :=
  ⟨rfl, by decide +kernel, ⟨rfl, rfl⟩, by decide, by decide +kernel⟩

theorem witness_ResyncIdempotence : frxUnit.mode = .unit .frx ∧ frxUnit.cfg.wf = true ∧ frxUnit.frx.Searching :=
  ⟨rfl, by decide +kernel, rfl, rfl⟩

/-- Both midpoints, and the largest difference within 1023. -/
theorem witness_FidSubDistance :
    (((1024 : U16).toNat % 2048 : Nat) : Int) - ((0 : U16).toNat % 2048 : Nat) = 1024 ∧
    (((2048 : U16).toNat % 2048 : Nat) : Int) - ((1024 : U16).toNat % 2048 : Nat) = -1024 ∧
    (((1023 : U16).toNat % 2048 : Nat) : Int) - ((0 : U16).toNat % 2048 : Nat) ≠ 1024 := by decide +kernel

theorem witness_DlLlRecvFeeds : ∃ t, exec (.dlLlRecv 0 [0x55]) dlUnit = .next t := ⟨_, rfl⟩

theorem witness_DlOnFrameAcceptsInOrder : (0 : U16).toNat = dlUnit.dl.rxFrameId.toNat ∧
    (2048 : U16).toNat ≠ dlUnit.dl.rxFrameId.toNat := by decide +kernel

theorem inFlight3_inv : inFlight3.dl.Inv inFlight3.cfg := by
  refine ⟨by decide +kernel, by decide +kernel, ?_⟩
  intro f hf
  simp only [inFlight3, List.mem_cons, List.not_mem_nil, or_false] at hf
  rcases hf with rfl | rfl | rfl
  · exact ⟨0, [0], by decide, by decide, by decide +kernel⟩
  · exact ⟨0, [1], by decide, by decide, by decide +kernel⟩
  · exact ⟨0, [2], by decide, by decide, by decide +kernel⟩

theorem inFlight3_consecutive : inFlight3.dl.Consecutive := by
  intro k h
  have h3 : k < 3 := h
  interval_cases k <;> rfl

/-- ACK_ALL on 0, 1, 2: ids 0 and 1023 past the oldest, 1027 within 1023 of the newest, 1024 out of range. -/
theorem witness_AckAllOnConsecutiveList : inFlight3.cfg.wf = true ∧ inFlight3.dl.Inv inFlight3.cfg ∧
    inFlight3.dl.Consecutive ∧ inFlight3.dl.inflight.head? = some ⟨0, g0, 0, 1⟩ ∧
    (∃ t, exec (.dlOnLink 0 1 1024) inFlight3 = .next t) ∧
    ((1023 : Fid) - 0).toNat ≤ 1023 ∧
    (1024 ≤ ((1027 : Fid) - 0).toNat ∧ (inFlight3.dl.txFrameId - 1 - 1027).toNat ≤ 1023) ∧
    (1024 ≤ ((1024 : Fid) - 0).toNat ∧ 1024 ≤ (inFlight3.dl.txFrameId - 1 - 1024).toNat) :=
  ⟨by decide +kernel, inFlight3_inv, inFlight3_consecutive, rfl, ⟨_, rfl⟩, by decide, by decide +kernel, by decide +kernel⟩

theorem witness_NackGoesBack : ((4 : Byte) = 4 ∨ (4 : Byte) = 5) ∧ ((5 : Byte) = 4 ∨ (5 : Byte) = 5) := by decide

theorem witness_RuntimeResets : State.reset.mode ≠ .unit .dl ∧ (running.mode ≠ .unit .dl ∧ running.dl ≠ Dl.reset) := by
  decide +kernel

/-- A retry check that reports, and one that does not. -/
theorem witness_RetryChecked :
    (inFlight3.dl.discReported = false ∧
      ∃ f ∈ [(⟨0, g0, 0, 4⟩ : InFlight)], f.attempts.toNat - 1 > inFlight3.cfg.maxRetries) ∧
    ¬ ∃ f ∈ [(⟨0, g0, 0, 3⟩ : InFlight)], f.attempts.toNat - 1 > inFlight3.cfg.maxRetries := by decide +kernel

theorem witness_ServiceIntervalIsLeastWait : inFlight3.dl.inflight ≠ [] ∧ dlUnit.dl.inflight = [] := by decide +kernel

theorem witness_ServiceIntervalIsExact : ∃ s', inFlight3.cfg.txTimeoutMs.toNat < 2 ^ 32 - 1 ∧ inFlight3.dl.inflight ≠ [] ∧
    exec (.dlServiceInterval 50) inFlight3 = .next s' ∧ s'.ret = .millis 51 :=
  ⟨_, by decide +kernel, by decide +kernel, rfl, by decide +kernel⟩

theorem witness_InternalOperandsRefused :
    (7 : Byte).toNat ∉ [1, 3, 4, 5, 6] ∧ (2 : Byte).toNat ∉ [1, 3, 4, 5, 6] ∧ (3 : Byte).toNat > 2 ∧
    (64 : Byte).toNat > 63 ∧ withPort.reasmEnabled 4 = false ∧
    ((State.initial .composed seqConfig).reasmEnabled 5 = true ∧ (State.initial .composed seqConfig).port 5 = .empty) ∧
    (withPort.reasmEnabled 5 = true ∧ withPort.port 5 = .reg 0x11 ∧ (4 : Byte).toNat > 3) := by decide +kernel

theorem witness_TpSendPacks : ((64 : Byte).toNat > 63 ∨ (0 : Byte).toNat > 3) ∧ (63 : Byte).toNat ≤ 63 ∧
    (3 : Byte).toNat ≤ 3 := by decide

theorem witness_TpOnRecvDelivers :
    withPort.port (BitVec.ofNat 6 ((0x123486 : U24).toNat % 64)) = .empty ∧
    withPort.port (BitVec.ofNat 6 ((0x123485 : U24).toNat % 64)) = .reg 0x11 ∧
    (seqTagCode .start).toNat = (0x123485 : U24).toNat / 64 % 4 ∧ withPort.reasmEnabled 5 = true ∧
    ({ withPort with cfg := Config.conventions } : State).reasmEnabled 5 = false := by decide +kernel

theorem witness_TpPortRegisterBinds : ((64 : Byte).toNat > 63 ∨ (1 : U32) = 0) ∧ (1 : U32) ≠ 0 := by decide

theorem witness_TpOnEventFansOut_refused : (3 : Byte).toNat > 2 := by decide

theorem witness_SeqPushCases_refused : (64 : Byte).toNat > 63 ∧
    (∃ q : PortId, (4 : Byte) = q.setWidth 8 ∧ (withPort.reasmEnabled q = false ∨ withPort.port q = .empty)) :=
  ⟨by decide, 4, by decide, .inl (by decide +kernel)⟩

theorem witness_SeqPushCases : withPort.reasmEnabled 5 = true ∧ withPort.port 5 = .reg 0x11 ∧
    (withPort.sequencer 5).active = false ∧ ((withPartial [1, 2]).sequencer 5).active = true ∧
    (2 + 3 > (withPartial [1, 2]).reasmMax 5 ∧ 2 + 2 ≤ (withPartial [1, 2]).reasmMax 5) ∧
    ((withPartial [1, 2]).reasmEnabled 5 = true ∧ (withPartial [1, 2]).port 5 = .reg 0x11) := by decide +kernel

theorem witness_SeqResetAbandons : (64 : Byte).toNat > 63 := by decide

theorem witness_MessageReassembled : withPort.reasmEnabled 5 = true ∧ withPort.port 5 = .reg 0x11 ∧
    ([1, 2, 3, 4] : List Byte) ≠ [] ∧ ([1, 2, 3, 4] : List Byte).length ≤ withPort.reasmMax 5 := by decide +kernel

theorem witness_WireFrameIsItsBytes : Instr.isWire (.wireAckOne 0 1) = true ∧ inFlight3.mode ≠ .unit .frx ∧
    frxUnit.mode = .unit .frx := by decide +kernel

theorem witness_WireLinkRunsHandler : inFlight3.cfg.wf = true ∧ inFlight3.frx.Searching ∧ inFlight3.mode ≠ .unit .frx ∧
    (frxUnit.cfg.wf = true ∧ frxUnit.frx.Searching ∧ frxUnit.mode = .unit .frx) :=
  ⟨by decide +kernel, ⟨rfl, rfl⟩, by decide +kernel, by decide +kernel, ⟨rfl, rfl⟩, rfl⟩

theorem witness_WireDataRunsHandler : inFlight3.cfg.wf = true ∧ inFlight3.frx.Searching ∧ inFlight3.mode ≠ .unit .frx ∧
    1 ≤ (List.replicate 256 (0 : Byte)).length ∧ (List.replicate 256 (0 : Byte)).length ≤ 256 :=
  ⟨by decide +kernel, ⟨rfl, rfl⟩, by decide +kernel, by decide +kernel, by decide +kernel⟩

theorem witness_WireDataRunsHandler_standAlone : frxUnit.cfg.wf = true ∧ frxUnit.frx.Searching ∧ frxUnit.mode = .unit .frx ∧
    1 ≤ (List.replicate 1 (0 : Byte)).length ∧ (List.replicate 1 (0 : Byte)).length ≤ 256 :=
  ⟨by decide +kernel, ⟨rfl, rfl⟩, rfl, by decide, by decide⟩

theorem witness_PowerOnReset : Config.conventions.wf = true ∧
    ({ Config.conventions with txWindowSize := 1023 } : Config).wf = true ∧
    ({ Config.conventions with txWindowSize := 1024 } : Config).txWindowSize.toNat > 1023 := by decide +kernel

theorem witness_InvAtPowerOn : State.powerOn .composed Config.conventions = some State.reset := by decide +kernel

theorem running_inv : running.Inv where
  cfg := by decide +kernel
  frx := rfl
  dl := inFlight3_inv
  ports := by
    intro p h hp
    simp [State.port, running, inFlight3, dlUnit, State.initial] at hp
  seqs := by
    intro p
    have e : running.sequencer p = Sequencer.reset := by
      simp [State.sequencer, running, inFlight3, dlUnit, State.initial]
    rw [e]
    exact ⟨Nat.zero_le _, fun _ => ⟨rfl, rfl⟩, fun _ => rfl⟩

theorem witness_InvKept : running.Inv ∧ ∃ t, step running = .next t := ⟨running_inv, _, rfl⟩

theorem witness_ConsecutiveKept : inFlight3.cfg.wf = true ∧ inFlight3.dl.Inv inFlight3.cfg ∧ inFlight3.dl.Consecutive ∧
    (receives (.dlProcess 1) = false ∧ ∃ t, exec (.dlProcess 1) inFlight3 = .next t) ∧
    (AckInRange inFlight3 .ackAll 1023 ∧ ∃ t, exec (.dlOnLink 0 ((linkTypeCode .ackAll).setWidth 8) 1023) inFlight3 = .next t) ∧
    AckInRange inFlight3 .ackOne 0 ∧
    (inFlight3.frx.Searching ∧ ∃ t, exec (wireLink .nackFrameId 0 1) inFlight3 = .next t) := by
  refine ⟨by decide +kernel, inFlight3_inv, inFlight3_consecutive, ⟨rfl, _, rfl⟩, ⟨?_, _, rfl⟩, ?_, ⟨⟨rfl, rfl⟩, _, rfl⟩⟩
  · intro o w ho _
    have : o = ⟨0, g0, 0, 1⟩ := by simpa [inFlight3] using ho.symm
    subst this
    exact .inl (by decide)
  · intro f hf h0
    simp only [inFlight3, List.mem_cons, List.not_mem_nil, or_false] at hf
    rcases hf with rfl | rfl | rfl
    · rfl
    · exact absurd h0 (by decide)
    · exact absurd h0 (by decide)

/-- G1 out of order, G0, RESET, G0 again: three frames, of which two are expected. -/
theorem witness_InOrderDelivery : dlUnit.mode = .unit .dl ∧ frxUnit.mode = .unit .frx ∧ frxUnit.frx = dlUnit.frx ∧
    frxUnit.cfg.sof = dlUnit.cfg.sof ∧ (∃ t, exec (.dlOnFrame 0 0 2 [9]) dlUnit = .next t) ∧
    deliveries 0 [.frame 1 0 [1], .frame 0 0 [0], .link .reset 0, .frame 0 0 [0]] =
      [.recv 0 [0], .event .reset, .recv 0 [0]] := ⟨rfl, rfl, rfl, rfl, ⟨_, rfl⟩, by decide⟩

theorem witness_WholeMachineFrame : (∃ t, exec (.tpPortRegister 5 1) State.reset = .next t) ∧
    (receives (.dlReset 0) = false ∧ ∃ t, exec (.dlReset 0) inFlight3 = .next t) ∧
    (frxUnit.mode = .unit .frx ∧ ∃ t, exec (.frxByte 0) frxUnit = .next t) := ⟨⟨_, rfl⟩, ⟨rfl, _, rfl⟩, rfl, _, rfl⟩

theorem witness_FailureChangesNothing : ∃ t, exec (.dlSend 9 2 []) dlUnit = .next t ∧ t.ret = .result .invalidParameter ∧
    Result.invalidParameter ≠ .ok := ⟨_, rfl, by decide +kernel, by decide⟩

theorem witness_WorkBounds : running.Inv := running_inv

theorem witness_HostCommandsComplete : (∀ now t fid, Instr.frxReset ≠ .dlOnLink now t fid) ∧
    (∀ ev, Instr.frxReset ≠ .tpOnEvent ev) ∧ (∀ p sq pd pl, Instr.frxReset ≠ .seqPush p sq pd pl) := by
  refine ⟨?_, ?_, ?_⟩ <;> intros <;> simp

theorem witness_WireMovesBytes : ({ State.reset with txOut := g0 } : State).txOut.length < 2 ^ 16 ∧
    ∃ b', exec (.dlLlRecv 0 g0) dlUnit = .next b' := ⟨by decide +kernel, _, rfl⟩

theorem witness_OneFrameExchanged : State.reset.cfg.wf = true ∧ dlUnit.cfg.wf = true ∧ dlUnit.cfg.sof = State.reset.cfg.sof ∧
    State.reset.frx.Searching ∧ dlUnit.frx.Searching ∧
    dlUnit.dl.rxFrameId = State.reset.dl.txFrameId ∧ State.reset.dl.inflight = [] ∧ State.reset.txOut = [] ∧
    dlUnit.txOut = [] ∧ 12 + (List.replicate 256 (0 : Byte)).length ≤ State.reset.cfg.txBufferSize.toNat ∧
    dlUnit.mode = .unit .dl :=
  ⟨by decide +kernel, by decide +kernel, rfl, ⟨rfl, rfl⟩, ⟨rfl, rfl⟩, rfl, rfl, rfl, rfl, by decide +kernel, rfl⟩

/-- A composed receiver with port 5 registered, for the metadata 0x1234C5 of R230's example; port 6 is not registered. -/
theorem witness_OneFrameExchanged_composed : withPort.cfg.wf = true ∧ withPort.cfg.sof = State.reset.cfg.sof ∧
    withPort.frx.Searching ∧ withPort.dl.rxFrameId = State.reset.dl.txFrameId ∧ withPort.txOut = [] ∧
    withPort.mode ≠ .unit .dl ∧ withPort.port (BitVec.ofNat 6 ((0x1234C5 : U24).toNat % 64)) = .reg 0x11 ∧
    (seqTagCode .single).toNat = (0x1234C5 : U24).toNat / 64 % 4 ∧
    withPort.port (BitVec.ofNat 6 ((0x1234C6 : U24).toNat % 64)) = .empty :=
  ⟨by decide +kernel, rfl, ⟨rfl, rfl⟩, rfl, rfl, by decide +kernel, by decide +kernel, by decide +kernel, by decide +kernel⟩

end Sys2Proof.Tests
end

/-! ## How a step runs its input (spec/00_scope.md R10, spec/20_memory.md R62, R67) -/

section
namespace Sys2Proof.Machine

/-- With nothing issued the block holds its state (R284; log 2). -/
theorem step_of_inbox_nil {s : State} (h : s.inbox = []) : step s = .next s := by
  simp only [step, takeInput, h]

/-- The oldest input leaves the inbox and runs whole (R10, R67). -/
theorem step_of_inbox_cons {s : State} {input : Input} {rest : List Input} (h : s.inbox = input :: rest) :
    step s = runInput input { s with inbox := rest } := by
  simp only [step, takeInput, h]

/-- A record runs as its instruction where the host may issue it (R92). -/
theorem runRecord_of_issuable {record : List Byte} {i : Instr} {s : State} (hd : decodeRecord record = .ok i)
    (hi : Issuable s i) : runRecord record s = exec i s := by
  have hn : notIssuable s.mode i = none := hi
  simp only [runRecord, hd, hn]

/-- Wire bytes that are one frame run as that frame (log 9). -/
theorem runWire_of_frame {bytes : List Byte} {i : Instr} {s : State} (hd : decodeWire s.cfg.sof bytes = .ok i) :
    runWire bytes s = exec i s := by
  simp only [runWire, hd]

/-- Wire bytes that are not one frame are received as they are (R62). -/
theorem runWire_of_no_frame {bytes : List Byte} {e : DecodeError} {s : State}
    (hd : decodeWire s.cfg.sof bytes = .error e) : runWire bytes s = .next (receiveWire bytes s.begin) := by
  simp only [runWire, hd]

/-- Wire bytes that are not one frame reach DL as DL_LL_RECV at the host's current `now`, unless FRX stands alone (log 9). -/
theorem runWire_eq_dlLlRecv {bytes : List Byte} {e : DecodeError} {s : State}
    (hd : decodeWire s.cfg.sof bytes = .error e) (hm : s.mode ≠ .unit .frx) :
    runWire bytes s = exec (.dlLlRecv s.now bytes) s := by
  have hdl : receiveWire bytes s.begin = recvBytes s.now bytes s.begin := if_neg hm
  rw [runWire_of_no_frame hd, hdl]
  rfl

/-- Where nothing is answered yet, the start of a command changes nothing. -/
theorem State.begin_of_ret_none {s : State} (h : s.ret = .none) : s.begin = s := by
  rw [State.begin, ← h]

/-- FRX_BYTE of a stand-alone FRX emits into its own event channel (R130). -/
theorem exec_frxByte_of_frx {s : State} (hm : s.mode = .unit .frx) (hr : s.ret = .none) (b : Byte) :
    exec (.frxByte b) s = .next (frxByte .out b s) := by
  have hsink : frxSink s = .out := if_pos hm
  show Host.Outcome.next (frxByte (frxSink s) b s.begin) = _
  rw [hsink, State.begin_of_ret_none hr]

/-- FRX_BYTE commands one after another are FRX_FEED (R95): each leaves the mode and the empty answer in which the next
begins. -/
theorem execAll_frxBytes {s : State} (hm : s.mode = .unit .frx) (hr : s.ret = .none) (bytes : List Byte) :
    execAll (bytes.map .frxByte) s = .next (feedBytes bytes s) := by
  induction bytes generalizing s with
  | nil => rfl
  | cons b bs ih =>
    have hb : Received s (frxByte .out b s) := feedBytes_received [b] s
    have hrest := ih (hb.mode.trans hm) (hb.ret.trans hr)
    simp only [List.map_cons, execAll, exec_frxByte_of_frx hm hr, hrest]
    rfl

/-- Wire bytes that are not one frame reach a stand-alone FRX as FRX_BYTE commands (log 9). -/
theorem runWire_eq_execAll_frxBytes {bytes : List Byte} {e : DecodeError} {s : State}
    (hd : decodeWire s.cfg.sof bytes = .error e) (hm : s.mode = .unit .frx) :
    runWire bytes s = execAll (bytes.map .frxByte) s.begin := by
  have hfrx : receiveWire bytes s.begin = feedBytes bytes s.begin := if_pos hm
  rw [runWire_of_no_frame hd, hfrx, execAll_frxBytes (s := s.begin) hm rfl]

/-- Settles O8, one clause per kind of input: the step takes the input from the inbox, and the rule for that input names
what runs. -/
theorem stepRunsNextInput : Obligations.StepRunsNextInput := by
  intro s rest
  refine ⟨step_of_inbox_nil, ?record, ?frame, ?bytes⟩
  case record =>
    intro record i hin hd hi
    rw [step_of_inbox_cons hin]
    exact runRecord_of_issuable hd hi
  case frame =>
    intro bytes i hin hd
    rw [step_of_inbox_cons hin]
    exact runWire_of_frame hd
  case bytes =>
    intro bytes e hin hd
    rw [step_of_inbox_cons hin]
    exact ⟨fun hm => runWire_eq_dlLlRecv hd hm, fun hm => runWire_eq_execAll_frxBytes hd hm⟩

end Sys2Proof.Machine
end

/-! ## FRX's buffer through one step (spec/10_state.md R24, R25) -/

section
namespace Sys2Proof.Machine

/-- The invariant of FRX does not speak of the two counters (R24, R25). -/
theorem Frx.Inv.of_counters {sof : Byte} {f g : Frx} (hf : f.Inv sof)
    (hg : g = { f with crcErrors := g.crcErrors, resync := g.resync }) : g.Inv sof := by
  rw [hg]
  exact hf

theorem stepSearchSof_inv {sof b : Byte} {f : Frx} (hs : f.rxState = .searchSof) (hb : f.buf = []) :
    (stepSearchSof sof b f).frx.Inv sof := by
  unfold stepSearchSof
  split
  · next h => simp [Frx.Inv, h]
  · simp [Frx.Inv, desyncStep, hs, hb]

theorem stepSearchSof2_inv {sof b : Byte} {f : Frx} (hb : f.buf = [sof]) :
    (stepSearchSof2 sof b f).frx.Inv sof := by
  unfold stepSearchSof2
  split
  · next h => simp [Frx.Inv, h, hb]
  · simp [Frx.Inv, desyncStep]

theorem stepSearchFrameType_inv {sof b : Byte} {f : Frx} (hs : f.rxState = .searchFrameType) (hb : f.buf = [sof, sof]) :
    (stepSearchFrameType sof b f).frx.Inv sof := by
  have hstored (hk : kind b ≠ .invalid) :
      ({ f with buf := f.buf.take 2 ++ [b], rxState := .storeHeader } : Frx).Inv sof := by
    simp [Frx.Inv, Frx.len, hb, byteAt, hk]
  unfold stepSearchFrameType
  split
  · simp [Frx.Inv, hs, hb]
  · split
    · simp [Frx.Inv, desyncStep]
    · next hk => exact hstored (by simp [hk])
    · next hk => exact hstored (by simp [hk])

theorem byteAt_append_left {buf rest : List Byte} {i : Nat} (h : i < buf.length) : byteAt (buf ++ rest) i = byteAt buf i := by
  simp [byteAt, List.getElem?_append_left h]

theorem stepStoreHeader_inv {sof b : Byte} {f : Frx} (hs : f.rxState = .storeHeader) (h3 : 3 ≤ f.buf.length)
    (h7 : f.buf.length ≤ 7) (ht : f.buf.take 2 = [sof, sof]) (hk : kind (byteAt f.buf 2) ≠ .invalid) :
    (stepStoreHeader b f).frx.Inv sof := by
  have ht' : (f.buf ++ [b]).take 2 = [sof, sof] := by rw [List.take_append_of_le_length (by omega), ht]
  have hk' : byteAt (f.buf ++ [b]) 2 = byteAt f.buf 2 := byteAt_append_left h3
  have hl : (f.buf ++ [b]).length = f.buf.length + 1 := List.length_append
  simp only [stepStoreHeader, Frx.len, headerLen, hl, hk']
  split
  · next h8 => simpa [Frx.Inv, Frx.len, hs, hk', hk, ht'] using ⟨by omega, by omega⟩
  · next h8 =>
    split
    · next hd => simpa [Frx.Inv, Frx.len, hk', hd, ht', frameOverhead] using ⟨by omega, by omega⟩
    · unfold checkLink
      split <;> rfl
    · next hi => exact absurd hi hk

theorem stepStoreRemainder_inv {sof b : Byte} {f : Frx} (hs : f.rxState = .storeRemainder) (h8 : 8 ≤ f.buf.length)
    (he : f.expected = frameOverhead + ((byteAt f.buf 3).toNat + 1)) (ht : f.buf.take 2 = [sof, sof])
    (hk : kind (byteAt f.buf 2) = .data) : (stepStoreRemainder b f).frx.Inv sof := by
  have hat (i : Nat) (hi : i < 8) : byteAt (f.buf ++ [b]) i = byteAt f.buf i := byteAt_append_left (by omega)
  simp only [stepStoreRemainder]
  split
  · next hlt =>
    simp only [Frx.Inv, hs, hat 2 (by decide), hat 3 (by decide)]
    refine ⟨?_, hlt, he, ?_, hk⟩
    · simp only [Frx.len, List.length_append]
      omega
    · rw [List.take_append_of_le_length (by omega), ht]
  · simp only [checkData]
    split <;> rfl

/-- One step of FRX keeps its invariant (R24, R25, R122 to R128). -/
theorem frxStep_inv {sof b : Byte} {f : Frx} (h : f.Inv sof) : (frxStep sof b f).frx.Inv sof := by
  unfold frxStep
  unfold Frx.Inv at h
  cases hs : f.rxState with
  | searchSof => exact stepSearchSof_inv hs (by simpa only [hs] using h)
  | searchSof2 => exact stepSearchSof2_inv (by simpa only [hs] using h)
  | searchFrameType => exact stepSearchFrameType_inv hs (by simpa only [hs] using h)
  | storeHeader =>
    simp only [hs] at h
    obtain ⟨h3, h7, ht, hk⟩ := h
    exact stepStoreHeader_inv hs h3 h7 ht hk
  | storeRemainder =>
    simp only [hs] at h
    obtain ⟨h8, -, he, ht, hk⟩ := h
    exact stepStoreRemainder_inv hs h8 he ht hk

end Sys2Proof.Machine
end

/-! ## The sequencers and the in-flight list (spec/10_state.md R36, R43) -/

section
namespace Sys2Proof.Machine

/-! ### Sequencers -/

theorem Sequencer.clear_inv {enabled : Bool} (max : Nat) (q : Sequencer) (he : enabled = true) :
    q.clear.Inv enabled max :=
  ⟨Nat.zero_le _, fun _ => ⟨rfl, rfl⟩, by simp [he]⟩

theorem Sequencer.Inv.countError {enabled : Bool} {max : Nat} {q : Sequencer} (h : q.Inv enabled max)
    (he : enabled = true) : q.countError.Inv enabled max := by
  obtain ⟨hlen, hempty, -⟩ := h
  exact ⟨hlen, hempty, by simp [he]⟩

theorem Sequencer.inv_of_active {enabled : Bool} {max : Nat} {q : Sequencer} (ha : q.active = true)
    (hl : q.abuf.length ≤ max) (he : enabled = true) : q.Inv enabled max :=
  ⟨hl, by simp [ha], by simp [he]⟩

theorem seqAppend_inv {enabled : Bool} {max : Nat} {q : Sequencer} (pl : List Byte) (h : q.Inv enabled max)
    (he : enabled = true) : (seqAppend max pl q).1.Inv enabled max := by
  unfold seqAppend
  split
  · next ha =>
    split
    · exact (q.clear_inv max he).countError he
    · next hfit => exact Sequencer.inv_of_active ha (by simpa using hfit) he
  · exact h.countError he

/-- SEQ_PUSH keeps the invariant of the sequencer it pushes to (R43, R250). -/
theorem seqSegment_inv {enabled : Bool} {max : Nat} {q : Sequencer} (tag : SeqTag) (pd : U16) (pl : List Byte)
    (h : q.Inv enabled max) (he : enabled = true) : (seqSegment max tag pd pl q).1.Inv enabled max := by
  have hclear := q.clear_inv max he
  cases tag with
  | middle => exact seqAppend_inv pl h he
  | stop =>
    have happend := seqAppend_inv pl h he
    simp only [seqSegment]
    split
    · next heq => rwa [heq] at happend
    · exact Sequencer.clear_inv max _ he
  | start =>
    have hstart : (if q.active then q.clear.countError else q.clear).Inv enabled max := by
      split
      · exact hclear.countError he
      · exact hclear
    simp only [seqSegment]
    split
    · exact hstart.countError he
    · next hfit => exact Sequencer.inv_of_active rfl (by simpa using hfit) he
  | single =>
    simp only [seqSegment]
    split
    · exact hclear.countError he
    · exact h

/-- The part of the invariant that speaks of the sequencers (R43). -/
def State.SeqsInv (s : State) : Prop := ∀ p, (s.sequencer p).Inv (s.reasmEnabled p) (s.reasmMax p)

theorem State.SeqsInv.setSequencer {s : State} {p : PortId} {q : Sequencer} (h : s.SeqsInv)
    (hq : q.Inv (s.reasmEnabled p) (s.reasmMax p)) : (s.setSequencer p q).SeqsInv := by
  intro p'
  rw [State.sequencer_setSequencer]
  split
  · next hp => exact hp ▸ hq
  · exact h p'

theorem seqPush_seqsInv {s : State} {p : PortId} (h : s.SeqsInv) (he : s.reasmEnabled p = true) (handle : U32)
    (tag : SeqTag) (pd : U16) (pl : List Byte) : (seqPush p handle tag pd pl s).SeqsInv := by
  rw [seqPush_eq]
  exact h.setSequencer (seqSegment_inv tag pd pl (h p) he)

theorem seqReset_seqsInv {s : State} (h : s.SeqsInv) (p : PortId) : (seqReset p s).SeqsInv := by
  unfold seqReset
  split
  · next he => exact h.setSequencer (Sequencer.clear_inv _ _ he)
  · exact h

theorem seqResetAll_seqsInv {s : State} (h : s.SeqsInv) : (seqResetAll s).SeqsInv := by
  have hfold (ps : List PortId) : (ps.foldl (fun s p => seqReset p s) s).SeqsInv := by
    induction ps generalizing s with
    | nil => exact h
    | cons p ps ih => exact ih (seqReset_seqsInv h p)
  exact hfold allPorts

theorem tpOnRecv_seqsInv {s : State} (h : s.SeqsInv) (m : U24) (pl : List Byte) : (tpOnRecv m pl s).SeqsInv := by
  simp only [tpOnRecv]
  split
  · exact h
  · split
    · next he => exact seqPush_seqsInv (s := emitPort _ s) h he _ _ _ _
    · exact h

theorem tpOnEvent_seqsInv {s : State} (h : s.SeqsInv) (ev : LinkEvent) : (tpOnEvent ev s).SeqsInv := by
  have hreset : (if ev = .reset then seqResetAll s else s).SeqsInv := by
    split
    · exact seqResetAll_seqsInv h
    · exact h
  exact hreset

/-! ### The in-flight list -/

/-- What the invariant of DL reads of the in-flight entries: their ids and frames (R36). -/
def Dl.entries (d : Dl) : List (Fid × List Byte) := d.inflight.map fun f => (f.fid, f.frame)

theorem Dl.entries_length (d : Dl) : d.entries.length = d.inflight.length := List.length_map ..

theorem Dl.bufferedBytes_eq (d : Dl) : bufferedBytes d.inflight = (d.entries.map fun e => e.2.length).sum := by
  simp [bufferedBytes, Dl.entries, Function.comp_def]

/-- Entries that only leave the list, or are stamped anew, keep the invariant of DL (R36). -/
theorem Dl.Inv.of_sublist {cfg : Config} {d e : Dl} (h : d.Inv cfg) (hsub : e.entries.Sublist d.entries) : e.Inv cfg := by
  obtain ⟨hwindow, hbytes, hframes⟩ := h
  refine ⟨?_, ?_, ?_⟩
  · have := hsub.length_le
    rw [Dl.entries_length, Dl.entries_length] at this
    exact this.trans hwindow
  · rw [Dl.bufferedBytes_eq] at hbytes ⊢
    exact (List.Sublist.sum_le_sum (hsub.map _) (fun _ _ => Nat.zero_le _)).trans hbytes
  · intro f hf
    have hmem : (f.fid, f.frame) ∈ d.entries := hsub.subset (List.mem_map_of_mem hf)
    obtain ⟨g, hg, heq⟩ := List.mem_map.mp hmem
    obtain ⟨m, pl, h1, h2, hframe⟩ := hframes g hg
    obtain ⟨hfid, hfr⟩ := Prod.mk.inj heq
    exact ⟨m, pl, h1, h2, by rw [← hfr, ← hfid, hframe]⟩

end Sys2Proof.Machine
end

/-! ## What a DL handler may touch (spec/43_data_link.md R183, spec/60_exceptions.md R272) -/

section
namespace Sys2Proof.Machine

/-- A reaction that puts nothing on FRX_OUT, and on DL_UP only in unit mode of DL (R272). -/
structure Confined (s t : State) : Prop extends Reacts s t where
  frxOut_eq : t.frxOut = s.frxOut
  dlUp_eq : s.mode ≠ .unit .dl → t.dlUp = s.dlUp

/-- What every DL handler does at most: a confined reaction in which in-flight entries only leave or are stamped anew, and
the sequencers keep their invariant. -/
structure Handled (s t : State) : Prop extends Confined s t where
  entries : t.dl.entries.Sublist s.dl.entries
  seqs : s.SeqsInv → t.SeqsInv

theorem Confined.trans {s t u : State} (h : Confined s t) (k : Confined t u) : Confined s u where
  toReacts := h.toReacts.trans k.toReacts
  frxOut_eq := k.frxOut_eq.trans h.frxOut_eq
  dlUp_eq hm := (k.dlUp_eq (h.mode ▸ hm)).trans (h.dlUp_eq hm)

theorem Handled.refl (s : State) : Handled s s :=
  ⟨⟨Reacts.refl s, rfl, fun _ => rfl⟩, List.Sublist.refl _, id⟩

theorem Handled.trans {s t u : State} (h : Handled s t) (k : Handled t u) : Handled s u where
  toConfined := h.toConfined.trans k.toConfined
  entries := k.entries.trans h.entries
  seqs := k.seqs ∘ h.seqs

/-- A change of DL's state in which entries only leave the list or are stamped anew. -/
theorem Handled.dl (s : State) {d : Dl} (h : d.entries.Sublist s.dl.entries) : Handled s { s with dl := d } :=
  ⟨⟨Reacts.dl s d, rfl, fun _ => rfl⟩, h, id⟩

/-- A change of DL's state that keeps the in-flight list. -/
theorem Handled.dl_of_inflight_eq (s : State) (d : Dl) (h : d.inflight = s.dl.inflight := by rfl) :
    Handled s { s with dl := d } :=
  Handled.dl s (by rw [Dl.entries, h, Dl.entries])

theorem txPut_handled (bs : List Byte) (s : State) : Handled s (txPut bs s) :=
  ⟨⟨txPut_reacts bs s, rfl, fun _ => rfl⟩, List.Sublist.refl _, id⟩

/-- A change of sequencers and of PORT_OUT alone, which grows; the sequencers keep their invariant. -/
theorem Handled.port (s : State) {q : Vector Sequencer 64} {out : List PortItem} (hout : s.portOut <+: out)
    (h : s.SeqsInv → ({ s with seqs := q, portOut := out } : State).SeqsInv) :
    Handled s { s with seqs := q, portOut := out } :=
  ⟨⟨⟨rfl, rfl, rfl, rfl, rfl, rfl, rfl, List.prefix_rfl, List.prefix_rfl, List.prefix_rfl, hout⟩, rfl, fun _ => rfl⟩,
    List.Sublist.refl _, h⟩

theorem tpOnRecv_handled (m : U24) (pl : List Byte) (s : State) : Handled s (tpOnRecv m pl s) := by
  have hseqs := fun h : s.SeqsInv => tpOnRecv_seqsInv h m pl
  obtain ⟨q, items, h⟩ := tpOnRecv_eq m pl s
  rw [h] at hseqs ⊢
  exact .port s (List.prefix_append _ _) hseqs

theorem tpOnEvent_handled (ev : LinkEvent) (s : State) : Handled s (tpOnEvent ev s) := by
  have hseqs := fun h : s.SeqsInv => tpOnEvent_seqsInv h ev
  obtain ⟨q, items, h⟩ := tpOnEvent_eq ev s
  rw [h] at hseqs ⊢
  exact .port s (List.prefix_append _ _) hseqs

theorem emitUp_handled {s : State} (hm : s.mode = .unit .dl) (i : DlUpItem) : Handled s (emitUp i s) :=
  ⟨⟨⟨rfl, rfl, rfl, rfl, rfl, rfl, rfl, List.prefix_rfl, List.prefix_rfl, List.prefix_append _ _, List.prefix_rfl⟩, rfl,
    fun hn => absurd hm hn⟩, List.Sublist.refl _, id⟩

theorem upwardRecv_handled (m : U24) (pl : List Byte) (s : State) : Handled s (upwardRecv m pl s) := by
  unfold upwardRecv
  split
  · next hm => exact emitUp_handled hm _
  · exact tpOnRecv_handled m pl s

theorem upwardEvent_handled (ev : LinkEvent) (s : State) : Handled s (upwardEvent ev s) := by
  unfold upwardEvent
  split
  · next hm => exact emitUp_handled hm _
  · exact tpOnEvent_handled ev s

theorem upwardRecv_dl (m : U24) (pl : List Byte) (s : State) : (upwardRecv m pl s).dl = s.dl := by
  obtain ⟨-, h, -⟩ := upwardRecv_reacts m pl s
  exact h

theorem upwardEvent_dl (ev : LinkEvent) (s : State) : (upwardEvent ev s).dl = s.dl := by
  obtain ⟨-, h, -⟩ := upwardEvent_reacts ev s
  exact h

theorem sendLink_handled (t : LinkType) (fid : Fid) (s : State) : Handled s (sendLink t fid s) := txPut_handled _ s

theorem ackRemove_handled (acked : InFlight → Bool) (s : State) : Handled s (ackRemove acked s) :=
  Handled.dl s (List.filter_sublist.map _)

/-- A retransmission stamps entries and changes no id and no frame (R191). -/
theorem map_resent_eq {α : Type} (g : InFlight → α) (hg : ∀ now f, g (f.resent now) = g f) (due : InFlight → Bool)
    (now : U32) (fs : List InFlight) : (fs.map fun f => if due f then f.resent now else f).map g = fs.map g := by
  rw [List.map_map]
  refine List.map_congr_left fun f _ => ?_
  simp only [Function.comp_apply]
  split
  · exact hg now f
  · rfl

theorem retransmitWhere_handled (due : InFlight → Bool) (now : U32) (s : State) :
    Handled s (retransmitWhere due now s) := by
  have hr := retransmitWhere_reacts due now s
  have hentries := map_resent_eq (fun f => (f.fid, f.frame)) (fun _ _ => rfl) due now s.dl.inflight
  rw [retransmitWhere_eq] at hr ⊢
  exact ⟨⟨hr, rfl, fun _ => rfl⟩, by rw [Dl.entries, hentries, Dl.entries], id⟩

theorem retryCheck_handled (s : State) : Handled s (retryCheck s) := by
  obtain h | ⟨-, -, h⟩ := retryCheck_cases s <;> rw [h]
  · exact Handled.refl s
  · exact (Handled.dl_of_inflight_eq s _).trans (upwardEvent_handled _ _)

theorem linkReset_handled (send : Bool) (s : State) : Handled s (linkReset send s) := by
  have hclear : Handled s { s with dl := Dl.reset, frx := { s.frx with crcErrors := 0, resync := 0 } } :=
    ⟨⟨⟨rfl, rfl, rfl, rfl, rfl, rfl, rfl, List.prefix_rfl, List.prefix_rfl, List.prefix_rfl, List.prefix_rfl⟩, rfl,
      fun _ => rfl⟩, List.nil_sublist _, id⟩
  cases send with
  | false => exact hclear.trans (upwardEvent_handled _ _)
  | true => exact (hclear.trans (sendLink_handled _ _ _)).trans (upwardEvent_handled _ _)

theorem onFrame_handled (fid : U16) (m : U24) (pl : List Byte) (s : State) : Handled s (onFrame fid m pl s) := by
  unfold onFrame
  split
  · exact (((Handled.dl_of_inflight_eq s _).trans (upwardRecv_handled _ _ _)).trans
      (Handled.dl_of_inflight_eq _ _)).trans (sendLink_handled _ _ _)
  · exact sendLink_handled _ _ _

theorem goBack_handled (now : U32) (fid : U16) (s : State) : Handled s (goBack now fid s) :=
  ((ackRemove_handled _ _).trans (retransmitWhere_handled _ _ _)).trans (retryCheck_handled _)

theorem processTimeouts_handled (now : U32) (s : State) : Handled s (processTimeouts now s) :=
  (retransmitWhere_handled _ _ _).trans (retryCheck_handled _)

theorem onLink_handled (now : U32) (t : LinkType) (fid : U16) (s : State) : Handled s (onLink now t fid s) := by
  cases t with
  | ackAll | ackOne => exact ackRemove_handled _ _
  | nackFrameId | nackFramingError => exact goBack_handled _ _ _
  | reset => exact linkReset_handled _ _

theorem onFrxEvent_handled (now : U32) (e : FrxEvent) (s : State) : Handled s (onFrxEvent now e s) := by
  cases e with
  | framingError => exact sendLink_handled _ _ _
  | link t fid => exact onLink_handled _ _ _ _
  | frame fid m pl => exact onFrame_handled _ _ _ _

end Sys2Proof.Machine
end

/-! ## Received bytes, sends and registrations (spec/10_state.md R24 to R43) -/

section
namespace Sys2Proof.Machine

/-! ### What received bytes may touch -/

/-- Bytes received by DL put nothing on FRX_OUT, and on DL_UP only in unit mode of DL (R183, R272). -/
structure ReceivedByDl (s t : State) : Prop extends Received s t where
  frxOut_eq : t.frxOut = s.frxOut
  dlUp_eq : s.mode ≠ .unit .dl → t.dlUp = s.dlUp

/-- Bytes received by a stand-alone FRX reach neither DL nor its channels (R130, R272). -/
structure ReceivedAlone (s t : State) : Prop extends Received s t where
  dl_eq : t.dl = s.dl
  txOut_eq : t.txOut = s.txOut
  dlUp_eq : t.dlUp = s.dlUp

theorem ReceivedByDl.refl (s : State) : ReceivedByDl s s := ⟨Received.refl s, rfl, fun _ => rfl⟩

theorem ReceivedByDl.trans {s t u : State} (h : ReceivedByDl s t) (k : ReceivedByDl t u) : ReceivedByDl s u where
  toReceived := h.toReceived.trans k.toReceived
  frxOut_eq := k.frxOut_eq.trans h.frxOut_eq
  dlUp_eq hm := (k.dlUp_eq (h.mode ▸ hm)).trans (h.dlUp_eq hm)

theorem ReceivedAlone.refl (s : State) : ReceivedAlone s s := ⟨Received.refl s, rfl, rfl, rfl⟩

theorem ReceivedAlone.trans {s t u : State} (h : ReceivedAlone s t) (k : ReceivedAlone t u) : ReceivedAlone s u where
  toReceived := h.toReceived.trans k.toReceived
  dl_eq := k.dl_eq.trans h.dl_eq
  txOut_eq := k.txOut_eq.trans h.txOut_eq
  dlUp_eq := k.dlUp_eq.trans h.dlUp_eq

theorem deliverFrx_dl_handled (now : U32) (e : Option FrxEvent) (s : State) : Handled s (deliverFrx (.dl now) e s) := by
  cases e with
  | none => exact Handled.refl s
  | some e => exact onFrxEvent_handled now e s

theorem frxRun_receivedByDl (now : U32) (q : List Byte) (s : State) : ReceivedByDl s (frxRun (.dl now) q s) := by
  refine frxRun_induct (.dl now) ReceivedByDl .refl .trans (fun x s => ?_) q s
  have h := deliverFrx_dl_handled now (frxStep s.cfg.sof x s.frx).event
    { s with frx := (frxStep s.cfg.sof x s.frx).frx }
  exact ⟨.of_reacts _ h.toReacts, h.frxOut_eq, h.dlUp_eq⟩

theorem frxRun_receivedAlone (q : List Byte) (s : State) : ReceivedAlone s (frxRun .out q s) := by
  refine frxRun_induct .out ReceivedAlone .refl .trans (fun x s => ?_) q s
  have h := deliverFrx_reacts .out (frxStep s.cfg.sof x s.frx).event { s with frx := (frxStep s.cfg.sof x s.frx).frx }
  cases he : (frxStep s.cfg.sof x s.frx).event <;> exact ⟨.of_reacts _ (he ▸ h), rfl, rfl, rfl⟩

theorem recvBytes_receivedByDl (now : U32) (bs : List Byte) (s : State) : ReceivedByDl s (recvBytes now bs s) := by
  unfold recvBytes
  induction bs generalizing s with
  | nil => exact .refl s
  | cons b bs ih =>
    have hb := frxRun_receivedByDl now [b] { s with dl := { s.dl with rxBytes := s.dl.rxBytes + 1 } }
    exact ReceivedByDl.trans ⟨recvByte_received now b s, hb.frxOut_eq, hb.dlUp_eq⟩ (ih _)

theorem feedBytes_receivedAlone (bs : List Byte) (s : State) : ReceivedAlone s (feedBytes bs s) := by
  unfold feedBytes
  induction bs generalizing s with
  | nil => exact .refl s
  | cons b bs ih => exact (frxRun_receivedAlone [b] s).trans (ih _)

/-! ### The invariant through handlers and received bytes -/

/-- A DL handler keeps the invariant. -/
theorem State.Inv.of_handled {s t : State} (hs : s.Inv) (h : Handled s t) : t.Inv where
  cfg := h.cfg ▸ hs.cfg
  frx := h.cfg ▸ hs.frx.of_counters h.frx
  dl := h.cfg ▸ hs.dl.of_sublist h.entries
  ports p handle hp := hs.ports p handle (State.port_congr h.ports p ▸ hp)
  seqs := h.seqs hs.seqs

theorem deliverFrx_inv {s : State} (hs : s.Inv) (sink : FrxSink) (e : Option FrxEvent) : (deliverFrx sink e s).Inv := by
  cases sink with
  | out => cases e <;> exact ⟨hs.cfg, hs.frx, hs.dl, hs.ports, hs.seqs⟩
  | dl now => exact hs.of_handled (deliverFrx_dl_handled now e s)

theorem frxRun_inv {s : State} (hs : s.Inv) (sink : FrxSink) (q : List Byte) : (frxRun sink q s).Inv := by
  refine frxRun_induct sink (fun s t => s.Inv → t.Inv) (fun _ => id) (fun h k => k ∘ h) (fun x s hs => ?_) q s hs
  have hstep : ({ s with frx := (frxStep s.cfg.sof x s.frx).frx } : State).Inv :=
    ⟨hs.cfg, frxStep_inv hs.frx, hs.dl, hs.ports, hs.seqs⟩
  exact deliverFrx_inv hstep _ _

theorem recvBytes_inv {s : State} (hs : s.Inv) (now : U32) (bs : List Byte) : (recvBytes now bs s).Inv := by
  unfold recvBytes
  induction bs generalizing s with
  | nil => exact hs
  | cons b bs ih =>
    have hcount : ({ s with dl := { s.dl with rxBytes := s.dl.rxBytes + 1 } } : State).Inv :=
      hs.of_handled (.dl_of_inflight_eq s _)
    exact ih (frxRun_inv hcount (.dl now) [b])

theorem feedBytes_inv {s : State} (hs : s.Inv) (bs : List Byte) : (feedBytes bs s).Inv := by
  unfold feedBytes
  induction bs generalizing s with
  | nil => exact hs
  | cons b bs ih => exact ih (frxRun_inv hs .out [b])

theorem receiveWire_inv {s : State} (hs : s.Inv) (bs : List Byte) : (receiveWire bs s).Inv := by
  unfold receiveWire
  split
  · exact feedBytes_inv hs bs
  · exact recvBytes_inv hs _ bs

theorem frxReset_inv {s : State} (hs : s.Inv) : (frxReset s).Inv := ⟨hs.cfg, rfl, hs.dl, hs.ports, hs.seqs⟩

/-- An accepted DL_SEND keeps the invariant: its checks leave room for the frame (R36, R182). -/
theorem sendFrame_inv {s : State} {pl : List Byte} (hs : s.Inv) (hc : sendCheck pl s = .ok) (now : U32) (m : U24) :
    (sendFrame now m pl s).Inv := by
  obtain ⟨h1, h256, hwindow, hbytes⟩ := (sendCheck_ok_iff pl s).mp hc
  obtain ⟨-, -, hframes⟩ := hs.dl
  rw [sendFrame_eq]
  refine ⟨hs.cfg, hs.frx, ⟨?_, ?_, ?_⟩, hs.ports, hs.seqs⟩
  · simpa using hwindow
  · simpa [bufferedBytes] using hbytes
  · intro f hf
    rcases List.mem_append.mp hf with hold | hnew
    · exact hframes f hold
    · rw [List.mem_singleton.mp hnew]
      exact ⟨m, pl, h1, h256, rfl⟩

/-- A registration writes one port and at most the sequencers (R233). -/
theorem registerPort_eq (p : PortId) (handle : U32) (s : State) :
    ∃ q, registerPort p handle s = { s with ports := s.ports.set p.toNat (.reg handle) p.isLt, seqs := q } :=
  ⟨_, seqReset_eq p (s.setPort p (.reg handle))⟩

/-- A registration with a handle that is not null keeps the invariant (R41, R233). -/
theorem registerPort_inv {s : State} (hs : s.Inv) (p : PortId) {handle : U32} (hh : handle ≠ 0) :
    (registerPort p handle s).Inv := by
  have hseqs : (registerPort p handle s).SeqsInv := seqReset_seqsInv (s := s.setPort p (.reg handle)) hs.seqs p
  obtain ⟨q, hq⟩ := registerPort_eq p handle s
  rw [hq] at hseqs ⊢
  refine ⟨hs.cfg, hs.frx, hs.dl, fun p' k hp' => ?_, hseqs⟩
  replace hp' : (s.setPort p (.reg handle)).port p' = .reg k := hp'
  rw [State.port_setPort] at hp'
  split at hp'
  · cases hp'
    exact hh
  · exact hs.ports p' k hp'

end Sys2Proof.Machine
end

/-! ## Consecutive ids (spec/10_state.md R36, spec/42_frame_id.md R172) -/

section
namespace Sys2Proof.Machine

/-- A legal window holds at most 1023 frames (R6, R36). -/
theorem Dl.Inv.length_le {cfg : Config} {d : Dl} (hc : cfg.wf = true) (h : d.Inv cfg) : d.inflight.length ≤ 1023 := by
  simp only [Config.wf, Bool.and_eq_true, decide_eq_true_eq, inflightMax] at hc
  obtain ⟨hwindow, -, -⟩ := h
  omega

theorem Dl.consecutive_of_nil {d : Dl} (h : d.inflight = []) : d.Consecutive := by
  intro k hk
  simp [h] at hk

/-- What is left of consecutive ids after the first k have gone is consecutive and ends as before. -/
theorem Dl.Consecutive.drop {d e : Dl} (h : d.Consecutive) (k : Nat) (htx : e.txFrameId = d.txFrameId)
    (hids : e.inflight.map InFlight.fid = (d.inflight.map InFlight.fid).drop k) : e.Consecutive := by
  intro j hj
  have hl : e.inflight.length = d.inflight.length - k := by simpa using congrArg List.length hids
  have hj' : k + j < d.inflight.length := by omega
  have hfid : e.inflight[j].fid = d.inflight[k + j].fid := by
    have := congrArg (fun l => l[j]?) hids
    simpa [hj, hj'] using this
  rw [hfid, h _ hj', htx, hl, Nat.sub_sub]

theorem Dl.Consecutive.of_ids_eq {d e : Dl} (h : d.Consecutive) (htx : e.txFrameId = d.txFrameId)
    (hids : e.inflight.map InFlight.fid = d.inflight.map InFlight.fid) : e.Consecutive :=
  h.drop 0 htx hids

/-- The frame DL_SEND appends has the id that follows the newest one (R182). -/
theorem sendFrame_consecutive {s : State} (h : s.dl.Consecutive) (now : U32) (m : U24) (pl : List Byte) :
    (sendFrame now m pl s).dl.Consecutive := by
  rw [sendFrame_eq]
  intro k hk
  simp only [List.length_append, List.length_singleton] at hk ⊢
  rw [List.getElem_append]
  split
  · next hlt =>
    rw [h k hlt, show s.dl.inflight.length + 1 - k = s.dl.inflight.length - k + 1 by omega, BitVec.ofNat_add]
    bv_omega
  · next hge =>
    obtain rfl : k = s.dl.inflight.length := by omega
    simp

/-- The id at place k, by arithmetic: it lies as far before tx_frame_id as the place lies before the list's end. -/
theorem Dl.Consecutive.toNat_fid {d : Dl} (h : d.Consecutive) {k : Nat} (hk : k < d.inflight.length) :
    (d.inflight[k].fid.toNat + (d.inflight.length - k)) % 2048 = d.txFrameId.toNat := by
  have htx := d.txFrameId.isLt
  rw [h k hk, BitVec.toNat_sub, BitVec.toNat_ofNat]
  omega

/-- FID_SUB gives a distance below the midpoint exactly (R170). -/
theorem fidSub_eq {a b : Fid} {v : Int} (hmod : (a.toNat : Int) % 2048 = (b.toNat + v) % 2048) (hlo : -1023 ≤ v)
    (hhi : v ≤ 1023) : fidSub a.toNat b.toNat = v := by
  have ha := a.isLt
  have hb := b.isLt
  simp only [fidSub, frameIdSpace]
  split <;> [skip; split] <;> omega

/-- The id x stands at place D of the list, counted from its oldest entry; D may lie before the list or past it. -/
def Dl.AtPlace (d : Dl) (x : Fid) (D : Int) : Prop :=
  ((x.toNat : Int) + (d.inflight.length - D)) % 2048 = d.txFrameId.toNat

theorem Dl.Consecutive.atPlace {d : Dl} (h : d.Consecutive) {k : Nat} (hk : k < d.inflight.length) :
    d.AtPlace d.inflight[k].fid k := by
  have := h.toNat_fid hk
  unfold Dl.AtPlace
  omega

/-- FID_SUB compares places, where these are within 1023 of each other (R170, R172). -/
theorem Dl.AtPlace.fidSub {d : Dl} {x y : Fid} {D E : Int} (hx : d.AtPlace x D) (hy : d.AtPlace y E)
    (hlo : -1023 ≤ D - E) (hhi : D - E ≤ 1023) : fidSub x.toNat y.toNat = D - E := by
  unfold Dl.AtPlace at hx hy
  exact fidSub_eq (by omega) hlo hhi

/-- Two in-flight ids differ. -/
theorem Dl.Consecutive.fid_inj {d : Dl} (h : d.Consecutive) (hn : d.inflight.length ≤ 1023) {j k : Nat}
    (hj : j < d.inflight.length) (hk : k < d.inflight.length) (heq : d.inflight[j].fid = d.inflight[k].fid) : j = k := by
  have hjk := (h.atPlace hj).fidSub (h.atPlace hk) (by omega) (by omega)
  have hkk := (h.atPlace hk).fidSub (h.atPlace hk) (by omega) (by omega)
  rw [heq] at hjk
  omega

theorem fid_add_sub (a b : Fid) : (a.toNat + (b - a).toNat) % 2048 = b.toNat := by
  bv_omega

/-- An id in range stands at a place within 1023 of every entry's (R36). -/
theorem Dl.InRange.exists_atPlace {d : Dl} {x : Fid} (hr : d.InRange x) (h : d.Consecutive)
    (hn : d.inflight.length ≤ 1023) :
    ∃ D : Int, d.AtPlace x D ∧ ∀ k < d.inflight.length, -1023 ≤ k - D ∧ k - D ≤ 1023 := by
  have hplace (k : Nat) (hk : k < d.inflight.length) := h.atPlace hk
  have htx := d.txFrameId.isLt
  unfold Dl.AtPlace at hplace ⊢
  rcases Nat.eq_zero_or_pos d.inflight.length with hempty | hpos
  · exact ⟨x.toNat - d.txFrameId.toNat, by omega, fun k hk => by omega⟩
  have holdest : d.inflight.head? = some d.inflight[0] := by simp [List.head?_eq_getElem?, hpos]
  have hnewest : d.inflight.getLast? = some d.inflight[d.inflight.length - 1] := by
    simp [List.getLast?_eq_getElem?, hpos]
  rcases hr _ _ holdest hnewest with hpast | hbehind
  · have hsum := fid_add_sub d.inflight[0].fid x
    have hfirst := hplace 0 hpos
    replace hpast : _ ≤ 1023 := hpast
    exact ⟨(x - d.inflight[0].fid).toNat, by omega, fun k hk => by omega⟩
  · have hsum := fid_add_sub x d.inflight[d.inflight.length - 1].fid
    have hlast := hplace (d.inflight.length - 1) (by omega)
    replace hbehind : _ ≤ 1023 := hbehind
    exact ⟨d.inflight.length - 1 - (d.inflight[d.inflight.length - 1].fid - x).toNat, by omega, fun k hk => by omega⟩

/-- Every comparison with an id in range is one of places, within 1023 (R36, R172). -/
theorem Dl.InRange.exists_place {d : Dl} {x : Fid} (hr : d.InRange x) (h : d.Consecutive)
    (hn : d.inflight.length ≤ 1023) : ∃ D : Int, ∀ k (hk : k < d.inflight.length),
      fidSub d.inflight[k].fid.toNat x.toNat = k - D ∧ -1023 ≤ k - D ∧ k - D ≤ 1023 := by
  obtain ⟨D, hD, hnear⟩ := hr.exists_atPlace h hn
  refine ⟨D, fun k hk => ?_⟩
  obtain ⟨hlo, hhi⟩ := hnear k hk
  exact ⟨(h.atPlace hk).fidSub hD hlo hhi, hlo, hhi⟩

/-- An acknowledgement that covers exactly the first k entries removes those and no more. -/
theorem filter_not_eq_drop {α : Type} {acked : α → Bool} {l : List α} {k : Nat}
    (h : ∀ j (hj : j < l.length), acked l[j] = decide (j < k)) : l.filter (fun f => !acked f) = l.drop k := by
  have htake : (l.take k).filter (fun f => !acked f) = [] := by
    refine List.filter_eq_nil_iff.mpr fun f hf => ?_
    obtain ⟨j, hj, rfl⟩ := List.mem_iff_getElem.mp hf
    simp only [List.length_take, Nat.lt_min] at hj
    simp [h j hj.2, hj.1]
  have hdrop : (l.drop k).filter (fun f => !acked f) = l.drop k := by
    refine List.filter_eq_self.mpr fun f hf => ?_
    obtain ⟨j, hj, rfl⟩ := List.mem_iff_getElem.mp hf
    simp only [List.length_drop] at hj
    simp [h (k + j) (by omega)]
  calc l.filter (fun f => !acked f)
      = (l.take k ++ l.drop k).filter (fun f => !acked f) := by rw [List.take_append_drop]
    _ = l.drop k := by rw [List.filter_append, htake, hdrop, List.nil_append]

/-! ### Link frames on consecutive ids -/

/-- The newest id stays, and of the in-flight ids at most the first k are gone, for some k. -/
structure Dl.DropsPrefix (d e : Dl) : Prop where
  txFrameId : e.txFrameId = d.txFrameId
  ids : ∃ k, e.inflight.map InFlight.fid = (d.inflight.map InFlight.fid).drop k

theorem Dl.DropsPrefix.consecutive {d e : Dl} (h : d.DropsPrefix e) (hc : d.Consecutive) : e.Consecutive := by
  obtain ⟨htx, k, hids⟩ := h
  exact hc.drop k htx hids

theorem ackRemove_dropsPrefix {s : State} {acked : InFlight → Bool} {k : Nat}
    (h : ∀ j (hj : j < s.dl.inflight.length), acked s.dl.inflight[j] = decide (j < k)) :
    s.dl.DropsPrefix (ackRemove acked s).dl := by
  refine ⟨rfl, k, ?_⟩
  show (s.dl.inflight.filter fun f => !acked f).map InFlight.fid = _
  rw [filter_not_eq_drop h, List.map_drop]

/-- Retransmission and the retry check change no id (R191, R193). -/
theorem retry_keeps_ids (due : InFlight → Bool) (now : U32) (s : State) :
    (retryCheck (retransmitWhere due now s)).dl.txFrameId = s.dl.txFrameId ∧
      (retryCheck (retransmitWhere due now s)).dl.inflight.map InFlight.fid = s.dl.inflight.map InFlight.fid := by
  obtain ⟨hdl, -, -⟩ := retryCheck_keeps (retransmitWhere due now s)
  rw [hdl, retransmitWhere_eq]
  exact ⟨rfl, map_resent_eq InFlight.fid (fun _ _ => rfl) due now s.dl.inflight⟩

theorem goBack_dropsPrefix {s : State} {now : U32} {fid : U16} {k : Nat}
    (h : ∀ j (hj : j < s.dl.inflight.length), decide (fidSub s.dl.inflight[j].fid.toNat fid.toNat < 0) = decide (j < k)) :
    s.dl.DropsPrefix (goBack now fid s).dl := by
  obtain ⟨htx, k, hids⟩ := ackRemove_dropsPrefix (acked := fun f => decide (fidSub f.fid.toNat fid.toNat < 0)) h
  obtain ⟨htx', hids'⟩ := retry_keeps_ids (fun _ => true) now
    (ackRemove (fun f => decide (fidSub f.fid.toNat fid.toNat < 0)) s)
  exact ⟨htx'.trans htx, k, hids'.trans hids⟩

theorem linkReset_inflight (send : Bool) (s : State) : (linkReset send s).dl.inflight = [] := by
  unfold linkReset
  cases send <;> rw [upwardEvent_dl] <;> rfl

theorem toNat_setWidth_fid (x : Fid) : (x.setWidth 16).toNat = x.toNat :=
  BitVec.toNat_setWidth_of_le (by decide)

/-- ACK_ONE of the oldest entry covers that entry alone, and of no entry none (R36, R187). -/
theorem exists_prefix_of_ackOne {s : State} {x : Fid} (h : s.dl.Consecutive) (hn : s.dl.inflight.length ≤ 1023)
    (hr : AckInRange s .ackOne x) : ∃ k, ∀ j (hj : j < s.dl.inflight.length), s.dl.inflight[j].fid = x ↔ j < k := by
  by_cases hx : ∃ f ∈ s.dl.inflight, f.fid = x
  · obtain ⟨f, hf, hfx⟩ := hx
    obtain ⟨hpos, h0⟩ := List.getElem?_eq_some_iff.mp (List.head?_eq_getElem? ▸ hr f hf hfx)
    refine ⟨1, fun j hj => ⟨fun hjx => ?_, fun hlt => ?_⟩⟩
    · have := h.fid_inj hn hj hpos (by rw [hjx, h0, hfx])
      omega
    · obtain rfl : j = 0 := by omega
      rw [h0, hfx]
  · exact ⟨0, fun j hj => ⟨fun hjx => absurd ⟨_, List.getElem_mem hj, hjx⟩ hx, fun hlt => by omega⟩⟩

/-- A link frame other than RESET whose id is in range removes consecutive ids from the front alone (R36). -/
theorem onLink_dropsPrefix {s : State} {t : LinkType} {x : Fid} (now : U32) (h : s.dl.Consecutive)
    (hn : s.dl.inflight.length ≤ 1023) (hr : AckInRange s t x) (ht : t ≠ .reset) :
    s.dl.DropsPrefix (onLink now t (x.setWidth 16) s).dl := by
  cases t with
  | ackAll =>
    obtain ⟨D, hD⟩ := Dl.InRange.exists_place hr h hn
    refine ackRemove_dropsPrefix (k := (D + 1).toNat) fun j hj => ?_
    obtain ⟨hplace, -, -⟩ := hD j hj
    rw [toNat_setWidth_fid, hplace]
    exact decide_eq_decide.mpr (by omega)
  | ackOne =>
    obtain ⟨k, hk⟩ := exists_prefix_of_ackOne h hn hr
    refine ackRemove_dropsPrefix (k := k) fun j hj => ?_
    rw [toNat_setWidth_fid]
    exact decide_eq_decide.mpr (BitVec.toNat_inj.trans (hk j hj))
  | nackFrameId | nackFramingError =>
    obtain ⟨D, hD⟩ := Dl.InRange.exists_place hr h hn
    refine goBack_dropsPrefix (k := D.toNat) fun j hj => ?_
    obtain ⟨hplace, -, -⟩ := hD j hj
    rw [toNat_setWidth_fid, hplace]
    exact decide_eq_decide.mpr (by omega)
  | reset => exact absurd rfl ht

end Sys2Proof.Machine
end

/-! ## What an instruction can do (spec/30_encoding.md R91) -/

section
namespace Sys2Proof.Machine

/-- TP's and SEQ's commands other than TP_SEND: they work on the ports alone (R20). -/
def servesPorts : Instr → Bool
  | .tpPortRegister _ _ | .tpOnRecv _ _ | .tpOnEvent _ | .seqPush _ _ _ _ | .seqReset _ => true
  | .frxByte _ | .frxReset | .ftxData _ _ _ | .ftxLink _ _ | .fidSub _ _ | .fidInc _ | .dlSend _ _ _ | .dlLlRecv _ _
  | .dlProcess _ | .dlServiceInterval _ | .dlReset _ | .dlStatus | .dlOnFrame _ _ _ _ | .dlOnLink _ _ _
  | .dlOnFramingError _ | .tpSend _ _ _ _ _ | .wireData _ _ _ _ | .wireAckAll _ _ | .wireAckOne _ _
  | .wireNackFrameId _ _ | .wireNackFramingError _ _ | .wireReset _ _ => false

/-- The effects an instruction that answers a next state can have, one constructor per shape. -/
inductive Effect (s : State) : Instr → State → Prop
  /-- An answer, or a DL handler's run; only DL_ON_LINK can disturb consecutive ids. -/
  | handled {i : Instr} {t : State} (now : U32) (r : Ret) (hi : receives i = false) (hp : servesPorts i = false)
      (h : Handled { s with now := now, ret := r } t)
      (ids : (∀ now type fid, i ≠ .dlOnLink now type fid) → s.dl.Consecutive → t.dl.Consecutive) : Effect s i t
  /-- A frame sent (R182). -/
  | sent {i : Instr} {pl : List Byte} (now : U32) (m : U24) (hi : receives i = false) (hp : servesPorts i = false)
      (hc : sendCheck pl s = .ok) : Effect s i ((sendFrame now m pl (s.beginAt now)).answer (.result .ok))
  /-- Work on the ports alone, or its refusal (R231 to R233, R250, R255). -/
  | served {i : Instr} {t : State} (r : Ret) (hi : receives i = false) (h : Handled { s with ret := r } t)
      (dl : t.dl = s.dl) (frx : t.frx = s.frx) (txOut : t.txOut = s.txOut) : Effect s i t
  /-- A registration (R233). -/
  | registered {b : Byte} {handle : U32} (p : PortId) (hh : handle ≠ 0) :
      Effect s (.tpPortRegister b handle) ((registerPort p handle s.begin).answer (.result .ok))
  /-- FRX_RESET (R131). -/
  | frxReset : Effect s .frxReset (frxReset s.begin)
  /-- Bytes to a stand-alone FRX (R130, log 9). -/
  | fed {i : Instr} (bs : List Byte) (hi : receives i = true) (hm : s.mode = .unit .frx) :
      Effect s i (feedBytes bs s.begin)
  /-- Bytes to DL (R183, log 9). -/
  | received {i : Instr} (now : U32) (bs : List Byte) (hi : receives i = true)
      (hm : s.mode = .unit .frx → ¬ ((∃ b, i = .frxByte b) ∨ i.isWire = true)) :
      Effect s i (recvBytes now bs (s.beginAt now))
  /-- FRX_BYTE outside a stand-alone FRX (log 8). -/
  | stepped (b : Byte) (hm : s.mode ≠ .unit .frx) : Effect s (.frxByte b) (frxRun (.dl s.now) [b] s.begin)

/-- An instruction that only answers. -/
theorem Effect.answered {s : State} {i : Instr} (now : U32) (r : Ret) (hi : receives i = false)
    (hp : servesPorts i = false) : Effect s i { s with now := now, ret := r } :=
  .handled now r hi hp (.refl _) fun _ => id

/-- DL_SEND's two outcomes (R182). -/
theorem effect_dlSend {s : State} {i : Instr} (now : U32) (m : U24) (pl : List Byte) (hi : receives i = false)
    (hp : servesPorts i = false) : Effect s i (dlSend now m pl (s.beginAt now)) := by
  obtain ⟨-, h⟩ | ⟨hc, h⟩ := dlSend_cases now m pl (s.beginAt now) <;> rw [h]
  · exact .answered now _ hi hp
  · exact .sent now m hi hp hc

/-- The FRX_BYTE command by who takes the byte (R130, log 8). -/
theorem effect_frxByte (s : State) (b : Byte) : Effect s (.frxByte b) (frxByte (frxSink s) b s.begin) := by
  unfold frxSink
  split
  · next hm => exact .fed [b] rfl hm
  · next hm => exact .stepped b hm

/-- A wire frame is its bytes received (log 9). -/
theorem exec_of_isWire {i : Instr} (hi : i.isWire = true) (s : State) : exec i s = .next (receiveFrame i s) := by
  cases i with
  | wireData | wireAckAll | wireAckOne | wireNackFrameId | wireNackFramingError | wireReset => rfl
  | _ => cases hi

theorem receives_of_isWire {i : Instr} (hi : i.isWire = true) : receives i = true := by
  cases i with
  | wireData | wireAckAll | wireAckOne | wireNackFrameId | wireNackFramingError | wireReset => rfl
  | _ => cases hi

theorem effect_of_isWire {i : Instr} (hi : i.isWire = true) (s : State) : Effect s i (receiveFrame i s) := by
  unfold receiveFrame receiveWire
  split
  · next hm => exact .fed _ (receives_of_isWire hi) hm
  · next hm => exact .received s.now _ (receives_of_isWire hi) fun hm' => absurd hm' hm

/-! ### Ids through the handlers that remove nothing -/

theorem processTimeouts_consecutive {s : State} (h : s.dl.Consecutive) (now : U32) :
    (processTimeouts now s).dl.Consecutive := by
  obtain ⟨htx, hids⟩ := retry_keeps_ids (isDue s.cfg.txTimeoutMs now) now s
  exact h.of_ids_eq htx hids

theorem linkReset_consecutive (send : Bool) (s : State) : (linkReset send s).dl.Consecutive :=
  Dl.consecutive_of_nil (linkReset_inflight send s)

theorem onFrame_consecutive {s : State} (h : s.dl.Consecutive) (fid : U16) (m : U24) (pl : List Byte) :
    (onFrame fid m pl s).dl.Consecutive := by
  unfold onFrame
  split
  · refine h.of_ids_eq ?_ ?_ <;> simp only [sendLink, txPut_dl, upwardRecv_dl]
  · exact h

theorem effect_answerFrame {s : State} {i : Instr} (bytes : Option (List Byte)) (hi : receives i = false)
    (hp : servesPorts i = false) : Effect s i (answerFrame bytes s.begin) := by
  cases bytes with
  | none => exact .answered s.now _ hi hp
  | some bs => exact .answered s.now _ hi hp

theorem effect_tpOnRecv (m : U24) (pl : List Byte) (s : State) : Effect s (.tpOnRecv m pl) (tpOnRecv m pl s.begin) := by
  obtain ⟨q, items, h⟩ := tpOnRecv_eq m pl s.begin
  exact .served _ rfl (tpOnRecv_handled m pl s.begin) (by rw [h]; rfl) (by rw [h]; rfl) (by rw [h]; rfl)

theorem effect_tpOnEvent (b : Byte) (ev : LinkEvent) (s : State) : Effect s (.tpOnEvent b) (tpOnEvent ev s.begin) := by
  obtain ⟨q, items, h⟩ := tpOnEvent_eq ev s.begin
  exact .served _ rfl (tpOnEvent_handled ev s.begin) (by rw [h]; rfl) (by rw [h]; rfl) (by rw [h]; rfl)

theorem effect_seqPush {s : State} {p : PortId} (b sq : Byte) (pd : U16) (pl : List Byte) (he : s.reasmEnabled p = true)
    (handle : U32) (tag : SeqTag) : Effect s (.seqPush b sq pd pl) (seqPush p handle tag pd pl s.begin) := by
  have hseqs := fun h : s.begin.SeqsInv => seqPush_seqsInv h he handle tag pd pl
  rw [seqPush_eq] at hseqs ⊢
  exact .served _ rfl (.port _ (List.prefix_append _ _) hseqs) rfl rfl rfl

theorem effect_seqReset (b : Byte) (p : PortId) (s : State) : Effect s (.seqReset b) (seqReset p s.begin) := by
  have hseqs := fun h : s.begin.SeqsInv => seqReset_seqsInv h p
  rw [seqReset_eq] at hseqs ⊢
  exact .served _ rfl (.port _ List.prefix_rfl hseqs) rfl rfl rfl

/-- Every instruction that answers a next state has one of the effects. -/
theorem exec_effect {i : Instr} {s t : State} (h : exec i s = .next t) : Effect s i t := by
  cases i with
  | wireData | wireAckAll | wireAckOne | wireNackFrameId | wireNackFramingError | wireReset =>
    rw [exec_of_isWire rfl] at h
    cases h
    exact effect_of_isWire rfl s
  | frxByte b =>
    cases h
    exact effect_frxByte s b
  | frxReset =>
    cases h
    exact .frxReset
  | ftxData | ftxLink =>
    cases h
    exact effect_answerFrame _ rfl rfl
  | fidSub | fidInc | dlStatus =>
    cases h
    exact .answered s.now _ rfl rfl
  | dlServiceInterval now =>
    cases h
    exact .answered now _ rfl rfl
  | dlSend now m pl =>
    cases h
    exact effect_dlSend now m pl rfl rfl
  | dlLlRecv now bs =>
    cases h
    exact .received now bs rfl fun _ => by simp [Instr.isWire]
  | dlProcess now =>
    cases h
    exact .handled now _ rfl rfl (processTimeouts_handled now _) fun _ hc =>
      processTimeouts_consecutive (s := s.beginAt now) hc now
  | dlReset now =>
    cases h
    exact .handled now _ rfl rfl (linkReset_handled true _) fun _ _ => linkReset_consecutive true _
  | dlOnFrame now fid m pl =>
    cases h
    exact .handled now _ rfl rfl (onFrame_handled fid m pl _) fun _ hc =>
      onFrame_consecutive (s := s.beginAt now) hc fid m pl
  | dlOnLink now type fid =>
    simp only [exec, execDlOnLink] at h
    split at h
    · cases h
      exact .handled now _ rfl rfl (onLink_handled now _ fid _) fun hne => absurd rfl (hne now type fid)
    · cases h
  | dlOnFramingError now =>
    cases h
    exact .handled now _ rfl rfl (sendLink_handled _ _ _) fun _ => id
  | tpSend now p sq pd pl =>
    simp only [exec, execTpSend] at h
    split at h
    · cases h
      exact effect_dlSend now _ pl rfl rfl
    · cases h
      exact .answered now _ rfl rfl
  | tpPortRegister b handle =>
    simp only [exec, execTpPortRegister] at h
    split at h
    · cases h
      exact .served _ rfl (.refl _) rfl rfl rfl
    · split at h
      · cases h
        exact .served _ rfl (.refl _) rfl rfl rfl
      · next hh =>
        cases h
        exact .registered _ hh
  | tpOnRecv m pl =>
    cases h
    exact effect_tpOnRecv m pl s
  | tpOnEvent b =>
    simp only [exec, execTpOnEvent] at h
    split at h
    · cases h
      exact effect_tpOnEvent b _ s
    · cases h
  | seqPush b sq pd pl =>
    simp only [exec, execSeqPush] at h
    split at h
    · cases h
    · split at h
      · next he =>
        split at h
        · cases h
        · cases h
        · cases h
          exact effect_seqPush b sq pd pl he _ _
      · cases h
  | seqReset b =>
    simp only [exec, execSeqReset] at h
    split at h
    · cases h
      exact .served _ rfl (.refl _) rfl rfl rfl
    · cases h
      exact effect_seqReset b _ s

end Sys2Proof.Machine
end

/-! ## The invariants at power-on and through a step (spec/10_state.md R24 to R43) -/

section
namespace Sys2Proof.Machine

/-! ### The invariant through instructions and steps -/

/-- The invariant does not speak of the model's own fields. -/
theorem State.Inv.of_fields {s : State} (hs : s.Inv) (inbox : List Input) (now : U32) (r : Ret) :
    ({ s with inbox := inbox, now := now, ret := r } : State).Inv :=
  ⟨hs.cfg, hs.frx, hs.dl, hs.ports, hs.seqs⟩

/-- Every effect of an instruction keeps the invariant. -/
theorem Effect.inv {i : Instr} {s t : State} (h : Effect s i t) (hs : s.Inv) : t.Inv := by
  cases h with
  | handled now r _ _ h _ => exact (hs.of_fields s.inbox now r).of_handled h
  | sent now m _ _ hc =>
    have h := sendFrame_inv (s := s.beginAt now) (hs.of_fields s.inbox now .none) hc now m
    exact h.of_fields _ _ _
  | served r _ h => exact (hs.of_fields s.inbox s.now r).of_handled h
  | registered p hh =>
    have h := registerPort_inv (s := s.begin) (hs.of_fields s.inbox s.now .none) p hh
    exact h.of_fields _ _ _
  | frxReset => exact frxReset_inv (s := s.begin) (hs.of_fields s.inbox s.now .none)
  | fed bs => exact feedBytes_inv (s := s.begin) (hs.of_fields s.inbox s.now .none) bs
  | received now bs => exact recvBytes_inv (s := s.beginAt now) (hs.of_fields s.inbox now .none) now bs
  | stepped b => exact frxRun_inv (s := s.begin) (hs.of_fields s.inbox s.now .none) _ [b]

/-- An input that answers a next state keeps the invariant. -/
theorem runInput_inv {input : Input} {s t : State} (hs : s.Inv) (h : runInput input s = .next t) : t.Inv := by
  cases input with
  | command record =>
    simp only [runInput, runRecord] at h
    split at h
    · cases h
    · split at h
      · cases h
      · exact (exec_effect h).inv hs
  | wire bytes =>
    simp only [runInput, runWire] at h
    split at h
    · exact (exec_effect h).inv hs
    · cases h
      exact receiveWire_inv (s := s.begin) (hs.of_fields s.inbox s.now .none) bytes

/-- Settles O48: each effect an input can have keeps the invariant. -/
theorem invKept : Obligations.InvKept := by
  intro s t hs h
  cases hin : s.inbox with
  | nil =>
    rw [step_of_inbox_nil hin] at h
    cases h
    exact hs
  | cons input rest =>
    rw [step_of_inbox_cons hin] at h
    exact runInput_inv (hs.of_fields rest s.now s.ret) h

/-! ### The invariant at power-on -/

/-- A sequencer just created meets its invariant (R300). -/
theorem Sequencer.reset_inv (enabled : Bool) (max : Nat) : Sequencer.reset.Inv enabled max :=
  ⟨Nat.zero_le _, fun _ => ⟨rfl, rfl⟩, fun _ => rfl⟩

theorem State.initial_inv (mode : Mode) {cfg : Config} (h : cfg.wf = true) : (State.initial mode cfg).Inv where
  cfg := h
  frx := rfl
  dl := ⟨Nat.zero_le _, Nat.zero_le _, by simp [State.initial, Dl.reset]⟩
  ports p handle hp := by simp [State.port, State.initial] at hp
  seqs p := by simpa [State.sequencer, State.initial] using Sequencer.reset_inv _ _

/-- Settles O47: power-on leaves every part empty, and State.reset's configuration is legal. -/
theorem invAtPowerOn : Obligations.InvAtPowerOn := by
  refine ⟨fun mode cfg s h => ?_, State.initial_inv .composed (by decide +kernel)⟩
  unfold State.powerOn at h
  split at h
  · next hwf =>
    cases h
    exact ⟨State.initial_inv mode hwf, Dl.consecutive_of_nil rfl⟩
  · cases h

/-! ### The ids through instructions -/

/-- An instruction that receives nothing and is not DL_ON_LINK keeps the ids consecutive. -/
theorem Effect.consecutive {i : Instr} {s t : State} (h : Effect s i t) (hi : receives i = false)
    (hne : ∀ now type fid, i ≠ .dlOnLink now type fid) (hc : s.dl.Consecutive) : t.dl.Consecutive := by
  cases h with
  | handled _ _ _ _ _ ids => exact ids hne hc
  | sent now m => exact sendFrame_consecutive (s := s.beginAt now) hc now m _
  | served _ _ _ dl => rwa [dl]
  | @registered _ handle p _ =>
    obtain ⟨q, hq⟩ := registerPort_eq p handle s.begin
    rw [hq]
    exact hc
  | frxReset => exact hc
  | fed _ hr => simp [hi] at hr
  | received _ _ hr => simp [hi] at hr
  | stepped => cases hi

/-- DL_ON_LINK with the code of a link type runs that type's handler (R185). -/
theorem exec_dlOnLink (now : U32) (t : LinkType) (fid : U16) (s : State) :
    exec (.dlOnLink now ((linkTypeCode t).setWidth 8) fid) s = .next (onLink now t fid (s.beginAt now)) := by
  simp only [exec, execDlOnLink, linkTypeOfByte_code]

/-- A link frame that arrives while FRX searches runs its handler, outside a stand-alone FRX (R127, R183). -/
theorem receiveFrame_wireLink {s : State} (hw : s.cfg.wf = true) (hs : s.frx.Searching) (hm : s.mode ≠ .unit .frx)
    (t : LinkType) (rsv : BitVec 2) (x : Fid) :
    receiveFrame (wireLink t rsv x) s = onLink s.now t (x.setWidth 16)
      { s.begin with frx := s.frx.afterLink, dl := { s.dl with rxBytes := s.dl.rxBytes + 8 } } := by
  obtain ⟨front, last, g, hbytes, hquiet, hlast⟩ := linkFrame_received s.cfg.sof 0 rsv t x s.frx hs (kind_sof_of_wf hw)
  replace hbytes : linkFrame s.cfg.sof rsv t x = front ++ [last] := hbytes
  have henc : encodeWith s.cfg.sof (wireLink t rsv x) = linkFrame s.cfg.sof rsv t x := by cases t <;> rfl
  have hdl : receiveFrame (wireLink t rsv x) s = recvBytes s.now (encodeWith s.cfg.sof (wireLink t rsv x)) s.begin :=
    if_neg hm
  rw [hdl, henc, recvBytes_frame (s := s.begin) s.now hbytes hquiet hlast]
  rfl

/-- A handler of a link frame in range keeps the ids consecutive (R36); RESET empties the list. -/
theorem onLink_consecutive {s : State} {t : LinkType} {x : Fid} (now : U32) (h : s.dl.Consecutive)
    (hn : s.dl.inflight.length ≤ 1023) (hr : AckInRange s t x) : (onLink now t (x.setWidth 16) s).dl.Consecutive := by
  by_cases ht : t = .reset
  · rw [ht]
    exact linkReset_consecutive false s
  · exact (onLink_dropsPrefix now h hn hr ht).consecutive h

theorem onLink_ids_drop {s : State} {t : LinkType} {x : Fid} (now : U32) (h : s.dl.Consecutive)
    (hn : s.dl.inflight.length ≤ 1023) (hr : AckInRange s t x) :
    ∃ k, (onLink now t (x.setWidth 16) s).dl.inflight.map (fun f => f.fid) = (s.dl.inflight.map fun f => f.fid).drop k := by
  by_cases ht : t = .reset
  · have hnil : (onLink now t (x.setWidth 16) s).dl.inflight = [] := by
      rw [ht]
      exact linkReset_inflight false s
    exact ⟨s.dl.inflight.length, by simp [hnil]⟩
  · exact (onLink_dropsPrefix now h hn hr ht).ids

/-- An id in range is compared within 1023 (R36, R172). -/
theorem Dl.InRange.fidSub_bounds {d : Dl} {x : Fid} (hr : d.InRange x) (h : d.Consecutive)
    (hn : d.inflight.length ≤ 1023) (f : InFlight) (hf : f ∈ d.inflight) :
    -1023 ≤ fidSub f.fid.toNat x.toNat ∧ fidSub f.fid.toNat x.toNat ≤ 1023 := by
  obtain ⟨D, hD⟩ := hr.exists_place h hn
  obtain ⟨k, hk, rfl⟩ := List.mem_iff_getElem.mp hf
  obtain ⟨heq, hlo, hhi⟩ := hD k hk
  rw [heq]
  exact ⟨hlo, hhi⟩

/-- Two in-flight ids are within 1022 of each other (R36). -/
theorem Dl.Consecutive.fidSub_bounds {d : Dl} (h : d.Consecutive) (hn : d.inflight.length ≤ 1023) (f : InFlight)
    (hf : f ∈ d.inflight) (g : InFlight) (hg : g ∈ d.inflight) :
    -1022 ≤ fidSub f.fid.toNat g.fid.toNat ∧ fidSub f.fid.toNat g.fid.toNat ≤ 1022 := by
  obtain ⟨j, hj, rfl⟩ := List.mem_iff_getElem.mp hf
  obtain ⟨k, hk, rfl⟩ := List.mem_iff_getElem.mp hg
  rw [(h.atPlace hj).fidSub (h.atPlace hk) (by omega) (by omega)]
  omega

theorem wireLink_isWire (t : LinkType) (rsv : BitVec 2) (x : Fid) : (wireLink t rsv x).isWire = true := by
  cases t <;> rfl

/-- A link frame on the wire keeps the ids as its handler does; a stand-alone FRX does not touch them. -/
theorem receiveFrame_wireLink_consecutive {s : State} (hw : s.cfg.wf = true) (hs : s.frx.Searching) (t : LinkType)
    (rsv : BitVec 2) {x : Fid} (h : s.dl.Consecutive) (hn : s.dl.inflight.length ≤ 1023) (hr : AckInRange s t x) :
    (receiveFrame (wireLink t rsv x) s).dl.Consecutive := by
  by_cases hm : s.mode = .unit .frx
  · have hfed : receiveFrame (wireLink t rsv x) s = feedBytes (encodeWith s.cfg.sof (wireLink t rsv x)) s.begin := if_pos hm
    rw [hfed, (feedBytes_receivedAlone _ s.begin).dl_eq]
    exact h
  · rw [receiveFrame_wireLink hw hs hm]
    exact onLink_consecutive _ h hn (by cases t <;> exact hr)

/-- Settles O49: an acknowledgement removes ids from the front alone, as the places they stand at show. -/
theorem consecutiveKept : Obligations.ConsecutiveKept := by
  intro s t hw hinv hc
  have hn := hinv.length_le hw
  refine ⟨fun i hi hne h => (exec_effect h).consecutive hi hne hc, ?handler, ?wire, hc.fidSub_bounds hn⟩
  case handler =>
    intro now lt x hr h
    rw [exec_dlOnLink] at h
    cases h
    have hr' : AckInRange (s.beginAt now) lt x := by cases lt <;> exact hr
    refine ⟨onLink_consecutive now hc hn hr', onLink_ids_drop now hc hn hr', fun h1 h2 => ?_⟩
    have hrange : s.dl.InRange x := by
      cases lt with
      | ackAll | nackFrameId | nackFramingError => exact hr
      | ackOne => exact absurd rfl h2
      | reset => exact absurd rfl h1
    exact hrange.fidSub_bounds hc hn
  case wire =>
    intro lt rsv x hs hr h
    rw [exec_of_isWire (wireLink_isWire lt rsv x)] at h
    cases h
    exact receiveFrame_wireLink_consecutive hw hs lt rsv hc hn hr

end Sys2Proof.Machine
end

/-! ## What no instruction touches (spec/10_state.md R20, R32, R41) -/

section
namespace Sys2Proof.Machine

/-- Configuration, mode and pending inputs as before, and every channel only grown (R32, R272). -/
structure Grown (s t : State) : Prop where
  cfg : t.cfg = s.cfg
  mode : t.mode = s.mode
  inbox : t.inbox = s.inbox
  txOut : s.txOut <+: t.txOut
  frxOut : s.frxOut <+: t.frxOut
  dlUp : s.dlUp <+: t.dlUp
  portOut : s.portOut <+: t.portOut

theorem Reacts.grown {s t : State} {now : U32} {r : Ret} (h : Reacts { s with now := now, ret := r } t) : Grown s t :=
  ⟨h.cfg, h.mode, h.inbox, h.txOut, h.frxOut, h.dlUp, h.portOut⟩

theorem Received.grown {s t : State} {now : U32} {r : Ret} (h : Received { s with now := now, ret := r } t) : Grown s t :=
  ⟨h.cfg, h.mode, h.inbox, h.txOut, h.frxOut, h.dlUp, h.portOut⟩

/-- What instruction i leaves alone between s and t (R20, R41, R301). -/
structure InstrFrame (i : Instr) (s t : State) : Prop extends Grown s t where
  ports : (∀ p h, i ≠ .tpPortRegister p h) → t.ports = s.ports
  frx : receives i = false → i ≠ .frxReset → t.frx = { s.frx with crcErrors := t.frx.crcErrors, resync := t.frx.resync }
  frxOut_eq : s.mode ≠ .unit .frx → t.frxOut = s.frxOut
  dlUp_eq : s.mode ≠ .unit .dl → t.dlUp = s.dlUp
  alone : s.mode = .unit .frx → (∃ b, i = .frxByte b) ∨ i.isWire = true → t.dl = s.dl ∧ t.txOut = s.txOut
  served : servesPorts i = true → t.dl = s.dl ∧ t.frx = s.frx ∧ t.txOut = s.txOut

theorem receives_of_frxByte_or_isWire {i : Instr} (h : (∃ b, i = .frxByte b) ∨ i.isWire = true) : receives i = true := by
  rcases h with ⟨b, rfl⟩ | hw
  · rfl
  · exact receives_of_isWire hw

theorem servesPorts_of_receives {i : Instr} (hi : receives i = true) : servesPorts i = false := by
  cases i with
  | frxByte | dlLlRecv | wireData | wireAckAll | wireAckOne | wireNackFrameId | wireNackFramingError | wireReset => rfl
  | _ => cases hi

/-- An instruction that receives nothing frames as its reaction does, from the state its command began in. -/
theorem Confined.instrFrame {i : Instr} {s t : State} {now : U32} {r : Ret} (h : Confined { s with now := now, ret := r } t)
    (hi : receives i = false) (served : servesPorts i = true → t.dl = s.dl ∧ t.frx = s.frx ∧ t.txOut = s.txOut) :
    InstrFrame i s t where
  toGrown := h.grown
  ports _ := h.ports
  frx _ _ := h.frx
  frxOut_eq _ := h.frxOut_eq
  dlUp_eq := h.dlUp_eq
  alone _ hb := by simp [receives_of_frxByte_or_isWire hb] at hi
  served := served

/-- An instruction that gives bytes to DL: none that a stand-alone FRX takes. -/
theorem ReceivedByDl.instrFrame {i : Instr} {s t : State} {now : U32} {r : Ret}
    (h : ReceivedByDl { s with now := now, ret := r } t) (hi : receives i = true)
    (hm : s.mode = .unit .frx → ¬ ((∃ b, i = .frxByte b) ∨ i.isWire = true)) : InstrFrame i s t where
  toGrown := h.grown
  ports _ := h.ports
  frx hn := by simp [hi] at hn
  frxOut_eq _ := h.frxOut_eq
  dlUp_eq := h.dlUp_eq
  alone hf hb := absurd hb (hm hf)
  served hp := by simp [servesPorts_of_receives hi] at hp

/-- An instruction that gives bytes to a stand-alone FRX. -/
theorem ReceivedAlone.instrFrame {i : Instr} {s t : State} (h : ReceivedAlone s.begin t) (hi : receives i = true)
    (hm : s.mode = .unit .frx) : InstrFrame i s t where
  toGrown := h.grown
  ports _ := h.ports
  frx hn := by simp [hi] at hn
  frxOut_eq hn := absurd hm hn
  dlUp_eq _ := h.dlUp_eq
  alone _ _ := ⟨h.dl_eq, h.txOut_eq⟩
  served hp := by simp [servesPorts_of_receives hi] at hp

theorem registerPort_instrFrame (b : Byte) (p : PortId) (handle : U32) (s : State) :
    InstrFrame (.tpPortRegister b handle) s ((registerPort p handle s.begin).answer (.result .ok)) := by
  obtain ⟨q, hq⟩ := registerPort_eq p handle s.begin
  rw [hq]
  exact ⟨⟨rfl, rfl, rfl, List.prefix_rfl, List.prefix_rfl, List.prefix_rfl, List.prefix_rfl⟩,
    fun hne => absurd rfl (hne b handle), fun _ _ => rfl, fun _ => rfl, fun _ => rfl, fun _ _ => ⟨rfl, rfl⟩,
    fun _ => ⟨rfl, rfl, rfl⟩⟩

theorem frxReset_instrFrame (s : State) : InstrFrame .frxReset s (frxReset s.begin) :=
  ⟨⟨rfl, rfl, rfl, List.prefix_rfl, List.prefix_rfl, List.prefix_rfl, List.prefix_rfl⟩,
    fun _ => rfl, fun _ hne => absurd rfl hne, fun _ => rfl, fun _ => rfl, fun _ _ => ⟨rfl, rfl⟩, fun hp => by cases hp⟩

/-- A frame sent and answered puts its bytes and changes DL, no more (R182). -/
theorem sendFrame_confined (now : U32) (m : U24) (pl : List Byte) (s : State) (r : Ret) :
    Confined { s with now := now, ret := r } ((sendFrame now m pl (s.beginAt now)).answer r) := by
  rw [sendFrame_eq]
  exact ⟨⟨rfl, rfl, rfl, rfl, rfl, rfl, rfl, List.prefix_append _ _, List.prefix_rfl, List.prefix_rfl, List.prefix_rfl⟩,
    rfl, fun _ => rfl⟩

theorem Effect.instrFrame {i : Instr} {s t : State} (h : Effect s i t) : InstrFrame i s t := by
  cases h with
  | handled now r hi hp h _ => exact h.toConfined.instrFrame hi (by simp [hp])
  | sent now m hi hp _ => exact (sendFrame_confined now m _ s _).instrFrame hi (by simp [hp])
  | served r hi h dl frx txOut => exact h.toConfined.instrFrame (s := s) (now := s.now) hi fun _ => ⟨dl, frx, txOut⟩
  | registered p _ => exact registerPort_instrFrame _ p _ s
  | frxReset => exact frxReset_instrFrame s
  | fed bs hi hm => exact (feedBytes_receivedAlone bs s.begin).instrFrame hi hm
  | received now bs hi hm => exact (recvBytes_receivedByDl now bs (s.beginAt now)).instrFrame hi hm
  | stepped b hm =>
    exact (frxRun_receivedByDl s.now [b] s.begin).instrFrame (s := s) (now := s.now) rfl fun hf => absurd hf hm

/-- Settles O51: the frame of each effect an instruction can have. -/
theorem wholeMachineFrame : Obligations.WholeMachineFrame := by
  intro i s t h
  have hf := (exec_effect h).instrFrame
  refine ⟨hf.cfg, hf.mode, hf.inbox, hf.txOut, hf.frxOut, hf.dlUp, hf.portOut, hf.ports, hf.frx, hf.frxOut_eq, hf.dlUp_eq,
    hf.alone, fun hports => hf.served ?_⟩
  rcases hports with ⟨_, _, rfl⟩ | ⟨_, _, rfl⟩ | ⟨_, rfl⟩ | ⟨_, _, _, _, rfl⟩ | ⟨_, rfl⟩ <;> rfl

end Sys2Proof.Machine
end

/-! ## Wire frames as received bytes (spec/20_memory.md R62, spec/43_data_link.md R183) -/

section
namespace Sys2Proof.Machine

/-- A wire frame is received byte by byte at the host's current `now`, unless FRX stands alone (log 9, log 4). -/
theorem receiveFrame_receives {s : State} (hm : s.mode ≠ .unit .frx) (i : Instr) :
    Receives s.now (encodeWith s.cfg.sof i) s.begin (receiveFrame i s) := by
  have hdl : receiveFrame i s = recvBytes s.now (encodeWith s.cfg.sof i) s.begin := if_neg hm
  rw [hdl]
  exact receives_recvBytes s.now _ s.begin ⟨rfl, rfl⟩

/-- A wire frame reaches a stand-alone FRX as one FRX_BYTE per byte (log 9). -/
theorem execAll_frxBytes_receiveFrame {s : State} (hm : s.mode = .unit .frx) (i : Instr) :
    execAll ((encodeWith s.cfg.sof i).map .frxByte) s.begin = .next (receiveFrame i s) := by
  have hfrx : receiveFrame i s = feedBytes (encodeWith s.cfg.sof i) s.begin := if_pos hm
  rw [hfrx, execAll_frxBytes (s := s.begin) hm rfl]

/-- Settles O43: the frame's reception is the state both sides reach, by DL's loop or by FRX_BYTE commands. -/
theorem wireFrameIsItsBytes : Obligations.WireFrameIsItsBytes := by
  intro i s hi
  have hexec := exec_of_isWire hi s
  exact ⟨fun hm => ⟨_, receiveFrame_receives hm i, hexec⟩, fun hm => ⟨_, execAll_frxBytes_receiveFrame hm i, hexec⟩⟩

end Sys2Proof.Machine
end

/-! ## Commands that complete in every state (spec/60_exceptions.md R274, R279) -/

section
namespace Sys2Proof.Machine

/-- TP_SEND answers whether or not its port and segment tag are in range (R230). -/
theorem execTpSend_completes (now : U32) (portId seq : Byte) (portData : U16) (payload : List Byte) (s : State) :
    ∃ t, execTpSend now portId seq portData payload s = .next t := by
  unfold execTpSend
  split
  · exact ⟨_, rfl⟩
  · exact ⟨_, rfl⟩

/-- TP_PORT_REGISTER answers for every port and handle, the null handle included (R233). -/
theorem execTpPortRegister_completes (portId : Byte) (handle : U32) (s : State) :
    ∃ t, execTpPortRegister portId handle s = .next t := by
  unfold execTpPortRegister
  split
  · exact ⟨_, rfl⟩
  · split
    · exact ⟨_, rfl⟩
    · exact ⟨_, rfl⟩

/-- SEQ_RESET completes for every port, whether or not a sequencer stands there (R255). -/
theorem execSeqReset_completes (portId : Byte) (s : State) : ∃ t, execSeqReset portId s = .next t := by
  unfold execSeqReset
  split
  · exact ⟨_, rfl⟩
  · exact ⟨_, rfl⟩

/-- Settles O54: a wire frame is received, three commands complete on each branch of their operand checks, and every other
meaning is a next state outright. -/
theorem hostCommandsComplete : Obligations.HostCommandsComplete := by
  intro i s hlink hevent hpush
  cases i with
  | dlOnLink now type fid => exact absurd rfl (hlink now type fid)
  | tpOnEvent ev => exact absurd rfl (hevent ev)
  | seqPush p sq pd pl => exact absurd rfl (hpush p sq pd pl)
  | wireData | wireAckAll | wireAckOne | wireNackFrameId | wireNackFramingError | wireReset =>
    exact ⟨_, exec_of_isWire rfl s⟩
  | tpSend now p sq pd pl => exact execTpSend_completes now p sq pd pl s
  | tpPortRegister p handle => exact execTpPortRegister_completes p handle s
  | seqReset p => exact execSeqReset_completes p s
  | frxByte | frxReset | ftxData | ftxLink | fidSub | fidInc | dlSend | dlLlRecv | dlProcess | dlServiceInterval | dlReset
  | dlStatus | dlOnFrame | dlOnFramingError | tpOnRecv => exact ⟨_, rfl⟩

end Sys2Proof.Machine
end

/-! ## Records decode to their commands and back (spec/30_encoding.md R90, R91) -/

section
namespace Sys2Proof

open Machine

/-- Reads in sequence that succeed: each of them did. -/
theorem except_bind_ok_iff {ε α β : Type} {x : Except ε α} {f : α → Except ε β} {b : β} :
    x >>= f = .ok b ↔ ∃ a, x = .ok a ∧ f a = .ok b := by
  cases x with
  | error e => exact ⟨nofun, nofun⟩
  | ok a => exact ⟨fun h => ⟨a, rfl, h⟩, by rintro ⟨_, ⟨⟩, h⟩; exact h⟩

/-- What stands after an opcode's byte is read as that opcode's operand fields (R91). -/
@[simp] theorem decodeCommand_opcodeByte_cons (o : Opcode) (bytes : List Byte) :
    decodeCommand (opcodeByte o :: bytes) = decodeFields o bytes := by
  simp only [decodeCommand, opcodeOfByte_opcodeByte]

/-- A record's first byte is its opcode's, and its operand fields take back what stands after it (R91). -/
theorem decodeCommand_encode_append {i : Instr} (hwf : i.wf = true) (hw : i.isWire = false) (rest : List Byte) :
    decodeCommand (encode i ++ rest) = .ok (i, rest) := by
  cases i with
  | wireData | wireAckAll | wireAckOne | wireNackFrameId | wireNackFramingError | wireReset => cases hw
  | ftxData | dlSend | dlLlRecv | dlOnFrame | tpSend | tpOnRecv | seqPush =>
    have hcount := readCounted_append hwf rest
    simp [encode, encodeWith, decodeFields, hcount, except_bind_ok_iff]
  | _ => simp [encode, encodeWith, decodeFields, except_bind_ok_iff]

/-- Operand fields that are read are those of a well-formed command, whose record stands in front of the rest (R91). -/
theorem decodeFields_ok {o : Opcode} {bytes rest : List Byte} {i : Instr} (h : decodeFields o bytes = .ok (i, rest)) :
    i.wf = true ∧ i.isWire = false ∧ encode i ++ rest = opcodeByte o :: bytes := by
  cases o <;>
    simp only [decodeFields, except_bind_ok_iff, Prod.exists, readByte_iff, readU16_iff, readU24_iff, readU32_iff,
      readCounted_iff, Except.ok.injEq, Prod.mk.injEq] at h
  case frxReset | dlStatus =>
    obtain ⟨rfl, rfl⟩ := h
    exact ⟨rfl, rfl, rfl⟩
  case frxByte | fidInc | dlProcess | dlServiceInterval | dlReset | dlOnFramingError | tpOnEvent | seqReset =>
    obtain ⟨a, r, rfl, rfl, rfl⟩ := h
    exact ⟨rfl, rfl, by simp [encode, encodeWith]⟩
  case ftxLink | fidSub | tpPortRegister =>
    obtain ⟨a, r, rfl, b, r, rfl, rfl, rfl⟩ := h
    exact ⟨rfl, rfl, by simp [encode, encodeWith]⟩
  case dlOnLink =>
    obtain ⟨a, r, rfl, b, r, rfl, c, r, rfl, rfl, rfl⟩ := h
    exact ⟨rfl, rfl, by simp [encode, encodeWith]⟩
  case dlLlRecv | tpOnRecv =>
    obtain ⟨a, r, rfl, pl, r, ⟨rfl, hcount⟩, rfl, rfl⟩ := h
    exact ⟨hcount, rfl, by simp [encode, encodeWith]⟩
  case ftxData | dlSend =>
    obtain ⟨a, r, rfl, b, r, rfl, pl, r, ⟨rfl, hcount⟩, rfl, rfl⟩ := h
    exact ⟨hcount, rfl, by simp [encode, encodeWith]⟩
  case dlOnFrame | seqPush =>
    obtain ⟨a, r, rfl, b, r, rfl, c, r, rfl, pl, r, ⟨rfl, hcount⟩, rfl, rfl⟩ := h
    exact ⟨hcount, rfl, by simp [encode, encodeWith]⟩
  case tpSend =>
    obtain ⟨a, r, rfl, b, r, rfl, c, r, rfl, d, r, rfl, pl, r, ⟨rfl, hcount⟩, rfl, rfl⟩ := h
    exact ⟨hcount, rfl, by simp [encode, encodeWith]⟩

/-- What is read as a command is the record of that command, well-formed, and the bytes after it (R90). -/
theorem decodeCommand_ok {bytes rest : List Byte} {i : Instr} (h : decodeCommand bytes = .ok (i, rest)) :
    i.wf = true ∧ i.isWire = false ∧ encode i ++ rest = bytes := by
  cases bytes with
  | nil => cases h
  | cons b bytes =>
    simp only [decodeCommand] at h
    cases ho : opcodeOfByte b with
    | none => simp [ho] at h
    | some o =>
      rw [ho] at h
      rw [opcodeByte_of_opcodeOfByte ho]
      exact decodeFields_ok h

/-- Settles O1: the record is read back with nothing after it. -/
theorem decodeEncodeRecord : Obligations.DecodeEncodeRecord := by
  intro i hwf hw
  have h := decodeCommand_encode_append hwf hw []
  rw [List.append_nil] at h
  rw [decodeRecord, h]
  rfl

/-- Settles O3: nothing stands after a record that is read exactly. -/
theorem encodeDecodeRecord : Obligations.EncodeDecodeRecord := by
  intro record i h
  obtain ⟨hwf, hw, henc⟩ := decodeCommand_ok (exactly_ok h)
  exact ⟨hwf, hw, by rwa [List.append_nil] at henc⟩

/-! ### Records cut short -/

/-- The read fails in no other way than for want of bytes (R90). -/
def OnlyTruncated {α : Type} (x : Except DecodeError α) : Prop := ∀ e, x = .error e → e = .truncated

theorem OnlyTruncated.ok {α : Type} (a : α) : OnlyTruncated (.ok a) := nofun

theorem OnlyTruncated.truncated {α : Type} : OnlyTruncated (.error .truncated : Except DecodeError α) := by
  rintro e ⟨⟩
  rfl

theorem OnlyTruncated.bind {α β : Type} {x : Except DecodeError α} {f : α → Except DecodeError β}
    (hx : OnlyTruncated x) (hf : ∀ a, OnlyTruncated (f a)) : OnlyTruncated (x >>= f) := by
  cases x with
  | error e =>
    rw [hx e rfl]
    exact .truncated
  | ok a => exact hf a

/-! A record is read field by field: the reads after a field are given the field and the bytes after it. -/

section
variable {α : Type} {bytes : List Byte}

theorem OnlyTruncated.afterByte {f : Byte × List Byte → Except DecodeError α} (hf : ∀ p, OnlyTruncated (f p)) :
    OnlyTruncated (readByte bytes >>= f) := by
  refine .bind ?_ hf
  unfold readByte
  split
  exacts [.ok _, .truncated]

theorem onlyTruncated_readU16 (bytes : List Byte) : OnlyTruncated (readU16 bytes) := by
  unfold readU16
  split
  exacts [.ok _, .truncated]

theorem OnlyTruncated.afterU16 {f : U16 × List Byte → Except DecodeError α} (hf : ∀ p, OnlyTruncated (f p)) :
    OnlyTruncated (readU16 bytes >>= f) :=
  .bind (onlyTruncated_readU16 bytes) hf

theorem OnlyTruncated.afterU24 {f : U24 × List Byte → Except DecodeError α} (hf : ∀ p, OnlyTruncated (f p)) :
    OnlyTruncated (readU24 bytes >>= f) := by
  refine .bind ?_ hf
  unfold readU24
  split
  exacts [.ok _, .truncated]

theorem OnlyTruncated.afterU32 {f : U32 × List Byte → Except DecodeError α} (hf : ∀ p, OnlyTruncated (f p)) :
    OnlyTruncated (readU32 bytes >>= f) := by
  refine .bind ?_ hf
  unfold readU32
  split
  exacts [.ok _, .truncated]

theorem OnlyTruncated.afterCounted {f : List Byte × List Byte → Except DecodeError α}
    (hf : ∀ p, OnlyTruncated (f p)) : OnlyTruncated (readCounted bytes >>= f) := by
  refine .bind ?_ hf
  unfold readCounted
  split
  · next e he =>
    rw [onlyTruncated_readU16 bytes e he]
    exact .truncated
  · split
    exacts [.ok _, .truncated]

end

/-- Operand fields are refused for want of bytes alone (R90, R93). -/
theorem onlyTruncated_decodeFields (o : Opcode) (bytes : List Byte) : OnlyTruncated (decodeFields o bytes) := by
  cases o with
  | frxReset | dlStatus => exact .ok _
  | frxByte | tpOnEvent | seqReset => exact .afterByte fun _ => .ok _
  | fidInc => exact .afterU16 fun _ => .ok _
  | dlProcess | dlServiceInterval | dlReset | dlOnFramingError => exact .afterU32 fun _ => .ok _
  | ftxLink => exact .afterByte fun _ => .afterU16 fun _ => .ok _
  | fidSub => exact .afterU16 fun _ => .afterU16 fun _ => .ok _
  | tpPortRegister => exact .afterByte fun _ => .afterU32 fun _ => .ok _
  | dlOnLink => exact .afterU32 fun _ => .afterByte fun _ => .afterU16 fun _ => .ok _
  | dlLlRecv => exact .afterU32 fun _ => .afterCounted fun _ => .ok _
  | tpOnRecv => exact .afterU24 fun _ => .afterCounted fun _ => .ok _
  | ftxData => exact .afterU16 fun _ => .afterU24 fun _ => .afterCounted fun _ => .ok _
  | dlSend => exact .afterU32 fun _ => .afterU24 fun _ => .afterCounted fun _ => .ok _
  | dlOnFrame => exact .afterU32 fun _ => .afterU16 fun _ => .afterU24 fun _ => .afterCounted fun _ => .ok _
  | seqPush => exact .afterByte fun _ => .afterByte fun _ => .afterU16 fun _ => .afterCounted fun _ => .ok _
  | tpSend =>
    exact .afterU32 fun _ => .afterByte fun _ => .afterByte fun _ => .afterU16 fun _ => .afterCounted fun _ => .ok _

/-- A record begins with its opcode's byte (R90). -/
theorem exists_encode_eq_cons {i : Instr} (hw : i.isWire = false) : ∃ o tail, encode i = opcodeByte o :: tail := by
  cases i with
  | wireData | wireAckAll | wireAckOne | wireNackFrameId | wireNackFramingError | wireReset => cases hw
  | _ => exact ⟨_, _, rfl⟩

theorem onlyTruncated_decodeCommand_take {i : Instr} (hw : i.isWire = false) (n : Nat) :
    OnlyTruncated (decodeCommand ((encode i).take n)) := by
  obtain ⟨o, tail, henc⟩ := exists_encode_eq_cons hw
  rw [henc]
  cases n with
  | zero => exact .truncated
  | succ n =>
    rw [List.take_succ_cons, decodeCommand_opcodeByte_cons]
    exact onlyTruncated_decodeFields o _

/-- No proper front of a record is read as a command: that command's record would be a front of this one, and a record is read
in one way. -/
theorem decodeCommand_take_encode_ne_ok {i : Instr} (hwf : i.wf = true) (hw : i.isWire = false) {n : Nat}
    (hn : n < (encode i).length) (p : Instr × List Byte) : decodeCommand ((encode i).take n) ≠ .ok p := by
  intro h
  obtain ⟨j, rest⟩ := p
  obtain ⟨hwfj, hwj, henc⟩ := decodeCommand_ok h
  have hfront : encode j ++ (rest ++ (encode i).drop n) = encode i ++ [] := by
    rw [← List.append_assoc, henc, List.take_append_drop, List.append_nil]
  have hj := decodeCommand_encode_append hwfj hwj (rest ++ (encode i).drop n)
  rw [hfront, decodeCommand_encode_append hwf hw [], Except.ok.injEq, Prod.mk.injEq] at hj
  obtain ⟨-, hrest⟩ := hj
  obtain ⟨-, hnil⟩ := List.append_eq_nil_iff.mp hrest.symm
  exact absurd (List.drop_eq_nil_iff.mp hnil) (by omega)

/-- A record cut short is refused as truncated (R90, R273). -/
theorem decodeRecord_take_encode {i : Instr} (hwf : i.wf = true) (hw : i.isWire = false) {n : Nat}
    (hn : n < (encode i).length) : decodeRecord ((encode i).take n) = .error .truncated := by
  cases h : decodeCommand ((encode i).take n) with
  | ok p => exact absurd h (decodeCommand_take_encode_ne_ok hwf hw hn p)
  | error e =>
    rw [decodeRecord, h, onlyTruncated_decodeCommand_take hw n e h]
    rfl

end Sys2Proof
end

/-! ## Wire frames decode and back (spec/30_encoding.md R80 to R86) -/

section
namespace Sys2Proof

open Machine

/-- A wire frame is a DATA frame or a link frame (R80, R81). -/
theorem exists_of_isWire {i : Instr} (h : i.isWire = true) :
    (∃ rsv fid m pl, i = .wireData rsv fid m pl) ∨ ∃ t rsv fid, i = wireLink t rsv fid := by
  cases i with
  | wireData rsv fid m pl => exact .inl ⟨rsv, fid, m, pl, rfl⟩
  | wireAckAll rsv fid => exact .inr ⟨.ackAll, rsv, fid, rfl⟩
  | wireAckOne rsv fid => exact .inr ⟨.ackOne, rsv, fid, rfl⟩
  | wireNackFrameId rsv fid => exact .inr ⟨.nackFrameId, rsv, fid, rfl⟩
  | wireNackFramingError rsv fid => exact .inr ⟨.nackFramingError, rsv, fid, rfl⟩
  | wireReset rsv fid => exact .inr ⟨.reset, rsv, fid, rfl⟩
  | _ => cases h

@[simp] theorem encodeWith_wireLink (sof : Byte) (t : LinkType) (rsv : BitVec 2) (fid : Fid) :
    encodeWith sof (wireLink t rsv fid) = linkFrame sof rsv t fid := by
  cases t <;> rfl

theorem wireLink_wf (t : LinkType) (rsv : BitVec 2) (fid : Fid) : (wireLink t rsv fid).wf = true := by
  cases t <;> rfl

theorem framePayloadFits_iff {pl : List Byte} :
    framePayloadFits pl = true ↔ 1 ≤ pl.length ∧ pl.length ≤ maxPayload := by
  simp only [framePayloadFits, Bool.and_eq_true, decide_eq_true_eq]

/-- A link frame is read back (R81, R83, R86). -/
theorem decodeFrame_linkFrame_append (sof : Byte) (t : LinkType) (rsv : BitVec 2) (fid : Fid) (rest : List Byte) :
    decodeFrame sof (linkFrame sof rsv t fid ++ rest) = .ok (wireLink t rsv fid, rest) := by
  simp [linkFrame, linkBody, toLe32, decodeFrame]

/-- A DATA frame is read back: its length byte gives the payload's length, and its CRC is that of the bytes covered (R80,
R86). -/
theorem decodeFrame_dataFrame_append (sof : Byte) (rsv : BitVec 2) (fid : Fid) (m : U24) {pl : List Byte}
    (h : framePayloadFits pl = true) (rest : List Byte) :
    decodeFrame sof (dataFrame sof rsv fid m pl ++ rest) = .ok (.wireData rsv fid m pl, rest) := by
  obtain ⟨h1, h2⟩ := framePayloadFits_iff.mp h
  simp only [dataFrame, dataBody, toLe24, List.cons_append, List.nil_append, List.append_assoc, decodeFrame,
    decodeDataFrame, and_self, if_true, kind_packByte2, frameKindOfCode_data, lengthByte _ h1 h2, splitBytes_append,
    readU32_append, rsvOf_packByte2, unpackFid_packByte2, fromLe24_bytes]

/-- A well-formed wire frame is read back from the front of the bytes. -/
theorem decodeFrame_encodeWith_append (sof : Byte) {i : Instr} (hwf : i.wf = true) (hw : i.isWire = true)
    (rest : List Byte) : decodeFrame sof (encodeWith sof i ++ rest) = .ok (i, rest) := by
  obtain ⟨rsv, fid, m, pl, rfl⟩ | ⟨t, rsv, fid, rfl⟩ := exists_of_isWire hw
  · exact decodeFrame_dataFrame_append sof rsv fid m hwf rest
  · rw [encodeWith_wireLink]
    exact decodeFrame_linkFrame_append sof t rsv fid rest

/-- Settles O2: the frame is read back with nothing after it. -/
theorem decodeEncodeWire : Obligations.DecodeEncodeWire := by
  intro sof i hwf hw
  have h := decodeFrame_encodeWith_append sof hwf hw []
  rw [List.append_nil] at h
  rw [decodeWire, h]
  rfl

/-- A payload one byte longer than its length byte says has that length byte (R80, R85). -/
theorem ofNat_length_sub_one {b : Byte} {pl : List Byte} (h : pl.length = b.toNat + 1) :
    BitVec.ofNat 8 (pl.length - 1) = b := by
  rw [h, Nat.add_sub_cancel, BitVec.ofNat_toNat, BitVec.setWidth_eq]

/-- Byte 2 of a link frame is its type's code, its reserved bits and the top of its id (R82). -/
theorem packByte2_of_kind_link {b2 : Byte} (low : Byte) {t : LinkType} (h : kind b2 = .link t) :
    packByte2 (linkTypeCode t) (rsvOf b2) (unpackFid b2 low) = b2 := by
  rw [← frameKindOfCode_link h, packByte2_fields]

/-- Byte 2 of a DATA frame has code 0 (R82). -/
theorem packByte2_of_kind_data {b2 : Byte} (low : Byte) (h : kind b2 = .data) :
    packByte2 0b000 (rsvOf b2) (unpackFid b2 low) = b2 := by
  rw [← frameKindOfCode_eq_data h, packByte2_fields]

/-- Bytes read as a DATA frame are that frame's, the CRC included (R80, R85, R86). -/
theorem decodeDataFrame_ok (sof : Byte) {b2 b3 b4 b5 b6 b7 : Byte} {bytes rest : List Byte} {i : Instr} (hk : kind b2 = .data)
    (h : decodeDataFrame b2 b3 b4 b5 b6 b7 bytes = .ok (i, rest)) :
    i.wf = true ∧ i.isWire = true ∧
      encodeWith sof i ++ rest = sof :: sof :: b2 :: b3 :: b4 :: b5 :: b6 :: b7 :: bytes := by
  unfold decodeDataFrame at h
  split at h
  · cases h
  · next pl tail hsplit =>
    obtain ⟨rfl, hlen⟩ := splitBytes_some hsplit
    split at h
    · cases h
    · next crc after hcrc =>
      split at h
      · next heq =>
        cases h
        refine ⟨framePayloadFits_iff.mpr ⟨by omega, hlen ▸ Nat.succ_le_of_lt b3.isLt⟩, rfl, ?_⟩
        have hbody : dataBody (rsvOf b2) (unpackFid b2 b4) (fromLe24 b5 b6 b7) pl = b2 :: b3 :: b4 :: b5 :: b6 :: b7 :: pl := by
          simp only [dataBody, packByte2_of_kind_data b4 hk, ofNat_length_sub_one hlen, fidLow_unpackFid, toLe24_fromLe24,
            List.cons_append, List.nil_append]
        simp only [encodeWith, dataFrame, hbody, heq, readU32_ok hcrc, List.cons_append, List.append_assoc]
      · cases h

/-- Bytes read as a wire frame are that frame's, the reserved bits included (R80 to R86). -/
theorem decodeFrame_ok {sof : Byte} {bytes rest : List Byte} {i : Instr} (h : decodeFrame sof bytes = .ok (i, rest)) :
    i.wf = true ∧ i.isWire = true ∧ encodeWith sof i ++ rest = bytes := by
  unfold decodeFrame at h
  split at h
  · next s1 s2 b2 b3 b4 b5 b6 b7 tail =>
    split at h
    · next hsof =>
      obtain ⟨rfl, rfl⟩ := hsof
      split at h
      · cases h
      · next t hk =>
        split at h
        · next hcrc =>
          cases h
          refine ⟨wireLink_wf t _ _, wireLink_isWire t _ _, ?_⟩
          simp only [encodeWith_wireLink, linkFrame, linkBody, packByte2_of_kind_link b3 hk, fidLow_unpackFid, hcrc,
            toLe32_fromLe32, List.cons_append, List.nil_append]
        · cases h
      · next hk => exact decodeDataFrame_ok _ hk h
    · cases h
  · cases h

/-- Settles O4: nothing stands after a frame that is read exactly. -/
theorem encodeDecodeWire : Obligations.EncodeDecodeWire := by
  intro sof frame i h
  obtain ⟨hwf, hw, henc⟩ := decodeFrame_ok (exactly_ok h)
  exact ⟨hwf, hw, by rwa [List.append_nil] at henc⟩

/-- Settles O7: the words are small and closed, and the kernel computes the three CRCs. -/
theorem specWordsDecode : Obligations.SpecWordsDecode :=
  ⟨by decide, by decide, by decide, by decide, by decide, by decide, by decide,
    by decide +kernel, by decide +kernel, by decide +kernel⟩

end Sys2Proof
end

/-! ## What becomes of a record the host issues (spec/30_encoding.md R92, spec/60_exceptions.md R273) -/

section
namespace Sys2Proof.Machine

/-- A malformed record is refused before any rule runs (R273). -/
theorem runRecord_of_error {record : List Byte} {e : DecodeError} {s : State} (hd : decodeRecord record = .error e) :
    runRecord record s = .refused (.malformedRecord e) := by
  simp only [runRecord, hd]

/-- Settles O5: the next input is a record cut short. -/
theorem truncatedRecordRefused : Obligations.TruncatedRecordRefused := by
  intro i n s rest hwf hw hn hin
  rw [step_of_inbox_cons hin]
  exact runRecord_of_error (decodeRecord_take_encode hwf hw hn)

/-- A well-formed command's record runs as the command where the host may issue it (R92). -/
theorem runRecord_encode {i : Instr} (hwf : i.wf = true) (hw : i.isWire = false) {s : State} (hi : Issuable s i) :
    runRecord (encode i) s = exec i s :=
  runRecord_of_issuable (decodeEncodeRecord i hwf hw) hi

/-- In unit mode of its sub-block an internal command is the host's to issue (R92). -/
theorem issuable_of_unitOnly {i : Instr} {b : SubBlock} {s : State} (hu : unitOnly i = some b) (hm : s.mode = .unit b) :
    Issuable s i := by
  simp only [Issuable, notIssuable, hu, hm, if_true]

/-- A composed block gives no internal command to the host (R92). -/
theorem runRecord_of_composed {record : List Byte} {i : Instr} {b : SubBlock} {s : State} (hd : decodeRecord record = .ok i)
    (hu : unitOnly i = some b) (hm : s.mode = .composed) : runRecord record s = .refused (.notIssuableByHost b) := by
  simp only [runRecord, hd, notIssuable, hu, hm, if_neg (nofun : Mode.composed ≠ .unit b)]

/-- No opcode of the table lies in the ranges R92 leaves unassigned. -/
theorem opcodeOfByte_eq_none {b : Byte}
    (h : 0x02 ≤ b.toNat ∧ b.toNat ≤ 0x0F ∨ 0x12 ≤ b.toNat ∧ b.toNat ≤ 0x1F ∨ 0x22 ≤ b.toNat ∧ b.toNat ≤ 0x2F ∨
      0x39 ≤ b.toNat ∧ b.toNat ≤ 0x3F ∨ 0x44 ≤ b.toNat ∧ b.toNat ≤ 0x4F ∨ 0x52 ≤ b.toNat) : opcodeOfByte b = none := by
  cases ho : opcodeOfByte b with
  | none => rfl
  | some o =>
    rw [opcodeByte_of_opcodeOfByte ho] at h
    exact absurd h (by cases o <;> decide)

theorem decodeRecord_of_unassigned {b : Byte} (tail : List Byte) (h : opcodeOfByte b = none) :
    decodeRecord (b :: tail) = .error (.unassignedOpcode b) := by
  simp only [decodeRecord, decodeCommand, h, exactly]

/-- Settles O6: an internal command's record decodes, so the mode alone decides, and a byte that is no opcode ends decoding
before any field is read. -/
theorem internalAndUnassignedOpcodes : Obligations.InternalAndUnassignedOpcodes := by
  refine ⟨?internal, ?unassigned⟩
  case internal =>
    intro i b s rest hwf hi hin
    have hinternal : unitOnly i = some b ∧ i.isWire = false := by
      rcases hi with ⟨⟨_, _, _, _, rfl⟩ | ⟨_, _, _, rfl⟩ | ⟨_, rfl⟩, rfl⟩ | ⟨⟨_, _, rfl⟩ | ⟨_, rfl⟩, rfl⟩ |
        ⟨⟨_, _, _, _, rfl⟩, rfl⟩ <;> exact ⟨rfl, rfl⟩
    obtain ⟨hu, hw⟩ := hinternal
    rw [step_of_inbox_cons hin]
    exact ⟨fun hm => runRecord_of_composed (decodeEncodeRecord i hwf hw) hu hm,
      fun hm => runRecord_encode hwf hw (issuable_of_unitOnly hu hm)⟩
  case unassigned =>
    intro o tail s rest ho hin
    rw [step_of_inbox_cons hin]
    exact runRecord_of_error (decodeRecord_of_unassigned tail (opcodeOfByte_eq_none ho))

end Sys2Proof.Machine
end

/-! ## Placed words, and commands issued on a line (spec/30_encoding.md R91, R92, R95) -/

section
namespace Sys2Proof.Machine

/-- A table word that decodes is a well-formed instruction (log 26). -/
theorem wf_of_decodeTableWord {nbits w : Nat} {i : Instr} (h : decodeTableWord nbits w = some i) : i.wf = true := by
  unfold decodeTableWord at h
  split at h
  · next hc =>
    cases h
    exact (decodeCommand_ok hc).1
  · split at h
    · next hf =>
      cases h
      exact (decodeFrame_ok hf).1
    · cases h

/-- The host may issue an instruction in the mode chosen for it (R92; log 1). -/
theorem notIssuable_issuingMode (i : Instr) (mode : Mode) : notIssuable (issuingMode i mode) i = none := by
  unfold notIssuable issuingMode
  cases unitOnly i with
  | none => rfl
  | some b => exact if_pos rfl

/-- An instruction placed for the next step is the one that step runs (log 1). -/
theorem step_placeInstr {i : Instr} (hwf : i.wf = true) (s : State) :
    step (s.placeInstr i) = exec i { s with mode := issuingMode i s.mode } := by
  rw [step_of_inbox_cons (s := s.placeInstr i) rfl]
  cases hw : i.isWire with
  | false => exact runRecord_encode hwf hw (notIssuable_issuingMode i s.mode)
  | true => exact runWire_of_frame (decodeEncodeWire s.cfg.sof i hwf hw)

/-- Settles O9: a word that decodes is placed as its instruction. -/
theorem placedWordRuns : Obligations.PlacedWordRuns := by
  intro s nbits w i h
  have hplace : s.withFetchWord nbits w = s.placeInstr i := by
    simp only [State.withFetchWord, State.placeWord, h]
  rw [hplace, step_placeInstr (wf_of_decodeTableWord h)]

/-- WIRE between two instances: the target gets the source's bytes in one command, and the source's sink is emptied (R95). -/
theorem runLine_wire {a b b' : State} {now : U32} (h : issueCommand (wireCommand now none a) b = .next b') :
    runLine [("A", a), ("B", b)] (.wire "A" "B" now none) = some [("A", a.takeTx a.txOut.length), ("B", b')] := by
  simp [runLine, System.get?, System.after, System.put, List.lookup, h]

/-- Settles O55: fewer than 2^16 pending bytes fit one DL_LL_RECV record, which the host may issue in every mode. -/
theorem wireMovesBytes : Obligations.WireMovesBytes := by
  intro a b b' now hlen hexec
  have hwf : (Instr.dlLlRecv now a.txOut).wf = true := decide_eq_true hlen
  have hissue : issueCommand (wireCommand now none a) b = .next b' :=
    (runRecord_encode hwf rfl rfl).trans hexec
  rw [runLine_wire hissue, State.takeTx, List.drop_length]

end Sys2Proof.Machine
end

/-! ## FRX_BYTE by what its step does (spec/40_framer_rx.md R121 to R131) -/

section
namespace Sys2Proof.Machine

/-! ### The command, for each thing a step can give -/

/-- A step that only moves FRX is the whole command. -/
theorem exec_frxByte_of_quiet {b : Byte} {s : State} {g : Frx} (h : frxStep s.cfg.sof b s.frx = { frx := g }) :
    exec (.frxByte b) s = .next { s with frx := g, ret := .none } := by
  rw [exec_frxByte_of_no_replay b s (by rw [h]), h]
  rfl

/-- A step that emits an event ends the command with that event (R130). -/
theorem exec_frxByte_emits {b : Byte} {s : State} {g : Frx} {e : FrxEvent}
    (h : frxStep s.cfg.sof b s.frx = { frx := g, event := some e }) :
    ∃ u, Emits (frxSink s) e { s with frx := g, ret := .none } u ∧ exec (.frxByte b) s = .next u := by
  refine ⟨_, emits_deliverFrx (sinkReady_frxSink s g) e, ?_⟩
  rw [exec_frxByte_of_no_replay b s (by rw [h]), h]

/-- A step that ends in `desync()` ends the command with it (R121). -/
theorem exec_frxByte_desyncs {b : Byte} {s : State} {g : Frx} (h : frxStep s.cfg.sof b s.frx = desyncStep g) :
    ∃ t, Desyncs (frxSink s) { s with frx := g, ret := .none } t ∧ exec (.frxByte b) s = .next t := by
  refine ⟨_, desyncs_deliverFrx (sinkReady_frxSink s g), ?_⟩
  rw [exec_frxByte_of_no_replay b s (by rw [h]; rfl), h]
  rfl

/-- A step that gives bytes back runs the loop of R130 on them (R129). -/
theorem exec_frxByte_replays {b : Byte} {s : State} {g : Frx} {r : List Byte}
    (h : frxStep s.cfg.sof b s.frx = { frx := g, replay := r }) :
    ∃ n u, FrxRuns (frxSink s) n r { s with frx := g, ret := .none } u ∧ exec (.frxByte b) s = .next u := by
  obtain ⟨n, -, hn⟩ := frxRuns_frxRun (frxSink s) _ r _ (sinkReady_frxSink s g) le_rfl
  refine ⟨n, _, hn, ?_⟩
  rw [exec_frxByte b s, h]
  rfl

/-! ### The search states -/

/-- R122 as a command. -/
theorem exec_frxByte_searchSof {b : Byte} {s : State} (hs : s.frx.rxState = .searchSof) :
    (b = s.cfg.sof →
      exec (.frxByte b) s = .next { s with frx := { s.frx with buf := [b], rxState := .searchSof2 }, ret := .none }) ∧
    (b ≠ s.cfg.sof → ∃ t, Desyncs (frxSink s) { s with ret := .none } t ∧ exec (.frxByte b) s = .next t) := by
  have hstep : frxStep s.cfg.sof b s.frx = stepSearchSof s.cfg.sof b s.frx := by rw [frxStep, hs]
  exact ⟨fun hb => exec_frxByte_of_quiet (hstep.trans (if_pos hb)),
    fun hb => exec_frxByte_desyncs (hstep.trans (if_neg hb))⟩

/-- R123 as a command. -/
theorem exec_frxByte_searchSof2 {b : Byte} {s : State} (hs : s.frx.rxState = .searchSof2) (hbuf : s.frx.buf = [s.cfg.sof]) :
    (b = s.cfg.sof →
      exec (.frxByte b) s =
        .next { s with frx := { s.frx with buf := [s.cfg.sof, b], rxState := .searchFrameType }, ret := .none }) ∧
    (b ≠ s.cfg.sof → ∃ t,
      Desyncs (frxSink s) { s with frx := { s.frx with buf := [], rxState := .searchSof }, ret := .none } t ∧
        exec (.frxByte b) s = .next t) := by
  have hstep : frxStep s.cfg.sof b s.frx = stepSearchSof2 s.cfg.sof b s.frx := by rw [frxStep, hs]
  refine ⟨fun hb => exec_frxByte_of_quiet (hstep.trans ?_), fun hb => exec_frxByte_desyncs (hstep.trans (if_neg hb))⟩
  rw [stepSearchSof2, if_pos hb, hbuf]
  rfl

/-- R124 at a byte of a valid type. -/
theorem stepSearchFrameType_of_valid {sof b : Byte} {f : Frx} (hb : b ≠ sof) (hk : kind b ≠ .invalid) :
    stepSearchFrameType sof b f = { frx := { f with buf := f.buf.take 2 ++ [b], rxState := .storeHeader } } := by
  rw [stepSearchFrameType, if_neg hb]
  cases hkb : kind b with
  | invalid => exact absurd hkb hk
  | data | link => rfl

/-- R124 at a byte of an invalid type. -/
theorem stepSearchFrameType_of_invalid {sof b : Byte} {f : Frx} (hb : b ≠ sof) (hk : kind b = .invalid) :
    stepSearchFrameType sof b f = desyncStep { f with buf := [], rxState := .searchSof } := by
  rw [stepSearchFrameType, if_neg hb, hk]

/-- R124 as a command. -/
theorem exec_frxByte_searchFrameType {b : Byte} {s : State} (hs : s.frx.rxState = .searchFrameType)
    (hbuf : s.frx.buf = [s.cfg.sof, s.cfg.sof]) :
    (b = s.cfg.sof → exec (.frxByte b) s = .next { s with ret := .none }) ∧
    (b ≠ s.cfg.sof → kind b ≠ .invalid →
      exec (.frxByte b) s =
        .next { s with frx := { s.frx with buf := [s.cfg.sof, s.cfg.sof, b], rxState := .storeHeader }, ret := .none }) ∧
    (b ≠ s.cfg.sof → kind b = .invalid → ∃ t,
      Desyncs (frxSink s) { s with frx := { s.frx with buf := [], rxState := .searchSof }, ret := .none } t ∧
        exec (.frxByte b) s = .next t) := by
  have hstep : frxStep s.cfg.sof b s.frx = stepSearchFrameType s.cfg.sof b s.frx := by rw [frxStep, hs]
  refine ⟨fun hb => exec_frxByte_of_quiet (hstep.trans (if_pos hb)), fun hb hk => exec_frxByte_of_quiet (hstep.trans ?_),
    fun hb hk => exec_frxByte_desyncs (hstep.trans (stepSearchFrameType_of_invalid hb hk))⟩
  rw [stepSearchFrameType_of_valid hb hk, hbuf]
  rfl

/-- Settles O10: one rule per search state, where the invariant says what the buffer holds. -/
theorem searchStates : Obligations.SearchStates := by
  intro b s hinv
  unfold Frx.Inv at hinv
  refine ⟨exec_frxByte_searchSof, fun hs => ?_, fun hs => ?_⟩
  · exact exec_frxByte_searchSof2 hs (by simpa only [hs] using hinv)
  · exact exec_frxByte_searchFrameType hs (by simpa only [hs] using hinv)

/-! ### The header -/

@[simp] theorem byteAt_concat_length (buf : List Byte) (b : Byte) : byteAt (buf ++ [b]) buf.length = b := by
  simp [byteAt]

theorem stepStoreHeader_of_short {b : Byte} {f : Frx} (h : f.len < 7) :
    stepStoreHeader b f = { frx := { f with buf := f.buf ++ [b] } } := by
  have hlen : (f.buf ++ [b]).length < headerLen := by
    rw [List.length_append]
    exact Nat.succ_lt_succ h
  exact if_pos hlen

/-- The eighth byte completes the header: the type byte, stored before, selects R126 or R127 (R125). -/
theorem stepStoreHeader_of_full {b : Byte} {f : Frx} (h : f.len = 7) :
    (kind (byteAt f.buf 2) = .data → stepStoreHeader b f =
      { frx := { f with
          buf := f.buf ++ [b]
          expected := frameOverhead + ((byteAt f.buf 3).toNat + 1)
          rxState := .storeRemainder } }) ∧
    (∀ t, kind (byteAt f.buf 2) = .link t → stepStoreHeader b f = checkLink t { f with buf := f.buf ++ [b] }) := by
  have hlen : ¬ (f.buf ++ [b]).length < headerLen := by simp [h]
  have hat (i : Nat) (hi : i < 7) : byteAt (f.buf ++ [b]) i = byteAt f.buf i := byteAt_append_left (hi.trans_eq h.symm)
  simp only [stepStoreHeader, Frx.len, if_neg hlen, hat 2 (by decide), hat 3 (by decide)]
  exact ⟨fun hk => by rw [hk], fun t hk => by rw [hk]⟩

/-- Settles O11: a short header is stored, and a full DATA header fixes the length. -/
theorem headerStored : Obligations.HeaderStored := by
  intro b s _ hs
  have hstep : frxStep s.cfg.sof b s.frx = stepStoreHeader b s.frx := by rw [frxStep, hs]
  exact ⟨fun hlen => exec_frxByte_of_quiet (hstep.trans (stepStoreHeader_of_short hlen)),
    fun hlen hk => exec_frxByte_of_quiet (hstep.trans ((stepStoreHeader_of_full hlen).1 hk))⟩

/-! ### The last byte of a frame -/

/-- A sequence of bytes is CRC-checked by its number and the sum R8 gives (R86). -/
theorem crc32_eq_fromLe32_iff {bytes : List Byte} {b0 b1 b2 b3 : Byte} :
    crc32 bytes = fromLe32 b0 b1 b2 b3 ↔
      (crc32 bytes).toNat = b0.toNat + 2 ^ 8 * b1.toNat + 2 ^ 16 * b2.toNat + 2 ^ 24 * b3.toNat := by
  rw [← fromLe32_toNat, BitVec.toNat_inj]

/-- buf[1..k] is everything behind the first byte, where no byte stands past k. -/
theorem slice_one {buf : List Byte} {k : Nat} (h : buf.length ≤ k + 1) : slice buf 1 k = buf.drop 1 :=
  List.take_of_length_le (by simpa using h)

theorem slice_two_three : ∀ {buf : List Byte}, 4 ≤ buf.length → slice buf 2 3 = [byteAt buf 2, byteAt buf 3]
  | _ :: _ :: _ :: _ :: _, _ => rfl

/-- Settles O12: the eighth byte's step is R127's check, whose two outcomes are an event and a replay. -/
theorem linkFrameComplete : Obligations.LinkFrameComplete := by
  intro b t s hs hlen hk buf crc fid
  have hbuf : buf.length = 7 + 1 := by simp [buf, hlen]
  have hlast : byteAt buf 7 = b := hlen ▸ byteAt_concat_length s.frx.buf b
  have hstep : frxStep s.cfg.sof b s.frx = checkLink t { s.frx with buf := buf } := by
    rw [frxStep, hs]
    exact (stepStoreHeader_of_full hlen).2 t hk
  have hcheck : (crc32 (slice buf 2 3) = fromLe32 (byteAt buf 4) (byteAt buf 5) (byteAt buf 6) (byteAt buf 7)) ↔
      (crc32 [byteAt buf 2, byteAt buf 3]).toNat = crc := by
    rw [crc32_eq_fromLe32_iff, slice_two_three (by omega), hlast]
  refine ⟨fun hcrc => exec_frxByte_emits (hstep.trans ?_), fun hcrc => exec_frxByte_replays (hstep.trans ?_)⟩
  · rw [checkLink, if_pos (hcheck.mpr hcrc), unpackFid_eq]
    rfl
  · rw [checkLink, if_neg (mt hcheck.mp hcrc), slice_one hbuf.le]
    rfl

/-- Settles O13: a short frame is stored, and the last byte's step is R128's check, whose two outcomes are an event and a
replay. -/
theorem dataFrameComplete : Obligations.DataFrameComplete := by
  intro b s _ hs buf l crc fid metadata
  have hstep : frxStep s.cfg.sof b s.frx =
      if buf.length < s.frx.expected then { frx := { s.frx with buf := buf } } else checkData { s.frx with buf := buf } := by
    rw [frxStep, hs]
    rfl
  have hfull (h : buf.length = s.frx.expected) : frxStep s.cfg.sof b s.frx = checkData { s.frx with buf := buf } :=
    hstep.trans (if_neg h.not_lt)
  have hbody : slice buf 2 (7 + l) = (buf.drop 2).take (6 + l) := by
    rw [slice, show 7 + l + 1 - 2 = 6 + l by omega]
  have hpayload : slice buf 8 (7 + l) = (buf.drop 8).take l := by
    rw [slice, show 7 + l + 1 - 8 = l by omega]
  have hcheck : (crc32 (slice buf 2 (7 + l)) =
        fromLe32 (byteAt buf (8 + l)) (byteAt buf (9 + l)) (byteAt buf (10 + l)) (byteAt buf (11 + l))) ↔
      (crc32 ((buf.drop 2).take (6 + l))).toNat = crc := by
    rw [crc32_eq_fromLe32_iff, hbody]
  refine ⟨fun hlen => exec_frxByte_of_quiet (hstep.trans (if_pos hlen)),
    fun hlen hcrc => exec_frxByte_emits ((hfull hlen).trans ?_),
    fun hlen hcrc => exec_frxByte_replays ((hfull hlen).trans ?_)⟩
  · exact (if_pos (hcheck.mpr hcrc)).trans (by rw [unpackFid_eq, fromLe24_eq, hpayload]; rfl)
  · have hlast : buf.length ≤ s.frx.expected - 1 + 1 := by omega
    exact (if_neg (mt hcheck.mp hcrc)).trans (by rw [slice_one hlast]; rfl)

/-! ### The loop and the reset -/

/-- FRX never holds a whole frame of the longest kind between commands (R24, R88). -/
theorem Frx.Inv.len_lt {sof : Byte} {f : Frx} (h : f.Inv sof) : f.len < rxBufLen := by
  unfold Frx.Inv at h
  simp only [Frx.len, rxBufLen, frameOverhead] at h ⊢
  cases hs : f.rxState with
  | searchSof | searchSof2 | searchFrameType =>
    simp only [hs] at h
    simp [h]
  | storeHeader =>
    simp only [hs] at h
    obtain ⟨-, h7, -⟩ := h
    omega
  | storeRemainder =>
    simp only [hs] at h
    obtain ⟨-, hlt, he, -⟩ := h
    have := (byteAt f.buf 3).isLt
    omega

/-- R129's bound: the measure of one queued byte is at most 269 × 268. -/
theorem replayMeasure_one_le {len : Nat} (h : len < rxBufLen) : replayMeasure len 1 ≤ 269 * 268 := by
  have hmono := triangle_mono (show len + 1 ≤ 268 from h)
  unfold replayMeasure
  omega

/-- Settles O14: the model's loop is the loop of R130 within the measure, and the invariant bounds the measure. -/
theorem frxByteRunsToEnd : Obligations.FrxByteRunsToEnd := by
  intro b s
  obtain ⟨n, hn, hrun⟩ := frxRuns_frxRun (frxSink s) (replayMeasure s.frx.len 1) [b] { s with ret := .none }
    (sinkReady_frxSink s s.frx) le_rfl
  exact ⟨n, _, hrun, rfl, fun hinv => hn.trans (replayMeasure_one_le hinv.len_lt)⟩

/-- Settles O15: FRX_RESET is the update R131 writes. -/
theorem frxResetSearches : Obligations.FrxResetSearches := fun _ => rfl

end Sys2Proof.Machine
end

/-! ## Whole frames through FRX (spec/40_framer_rx.md R127, R128, R132, spec/43_data_link.md R183) -/

section
namespace Sys2Proof.Machine

/-! ### Frames fed to a stand-alone FRX -/

/-- FRX_BYTE commands one after another are FRX_FEED (R95); the first of them clears what the command before answered. -/
theorem execAll_frxBytes_of_ne_nil {s : State} (hm : s.mode = .unit .frx) {bytes : List Byte} (hne : bytes ≠ []) :
    execAll (bytes.map .frxByte) s = .next (feedBytes bytes s.begin) := by
  cases bytes with
  | nil => exact absurd rfl hne
  | cons b bs => exact execAll_frxBytes (s := s.begin) hm rfl (b :: bs)

/-- A link frame behind any number of SOF bytes, fed to an FRX that searches, emits its event (R127, R132, R133). -/
theorem feedBytes_linkFrame {s : State} (hwf : s.cfg.wf = true) (hs : s.frx.Searching) (k : Nat) (rsv : BitVec 2)
    (t : LinkType) (fid : Fid) :
    feedBytes (List.replicate k s.cfg.sof ++ linkFrame s.cfg.sof rsv t fid) s =
      { s with frx := s.frx.afterLink, frxOut := s.frxOut ++ [.link t fid] } := by
  obtain ⟨front, last, g, hb, hq, hl⟩ := linkFrame_received s.cfg.sof k rsv t fid s.frx hs (kind_sof_of_wf hwf)
  exact feedBytes_frame hb hq hl

/-- A DATA frame behind any number of SOF bytes, fed to an FRX that searches, emits its event (R128, R132, R133). -/
theorem feedBytes_dataFrame {s : State} (hwf : s.cfg.wf = true) (hs : s.frx.Searching) (k : Nat) (rsv : BitVec 2)
    (fid : Fid) (m : U24) {pl : List Byte} (h1 : 1 ≤ pl.length) (h256 : pl.length ≤ maxPayload) :
    feedBytes (List.replicate k s.cfg.sof ++ dataFrame s.cfg.sof rsv fid m pl) s =
      { s with frx := s.frx.afterData pl.length, frxOut := s.frxOut ++ [.frame fid m pl] } := by
  obtain ⟨front, last, g, hb, hq, hl⟩ :=
    dataFrame_received s.cfg.sof k rsv fid m pl s.frx hs (kind_sof_of_wf hwf) h1 h256
  exact feedBytes_frame hb hq hl

/-- The same as FRX_BYTE commands, for a link frame. -/
theorem execAll_linkFrame {s : State} (hm : s.mode = .unit .frx) (hwf : s.cfg.wf = true) (hs : s.frx.Searching) (k : Nat)
    (rsv : BitVec 2) (t : LinkType) (fid : Fid) :
    execAll ((List.replicate k s.cfg.sof ++ linkFrame s.cfg.sof rsv t fid).map .frxByte) s =
      .next { s with frx := s.frx.afterLink, frxOut := s.frxOut ++ [.link t fid], ret := .none } := by
  rw [execAll_frxBytes_of_ne_nil hm (by simp [linkFrame])]
  exact congrArg _ (feedBytes_linkFrame (s := s.begin) hwf hs k rsv t fid)

/-- The same as FRX_BYTE commands, for a DATA frame. -/
theorem execAll_dataFrame {s : State} (hm : s.mode = .unit .frx) (hwf : s.cfg.wf = true) (hs : s.frx.Searching) (k : Nat)
    (rsv : BitVec 2) (fid : Fid) (m : U24) {pl : List Byte} (h1 : 1 ≤ pl.length) (h256 : pl.length ≤ maxPayload) :
    execAll ((List.replicate k s.cfg.sof ++ dataFrame s.cfg.sof rsv fid m pl).map .frxByte) s =
      .next { s with frx := s.frx.afterData pl.length, frxOut := s.frxOut ++ [.frame fid m pl], ret := .none } := by
  rw [execAll_frxBytes_of_ne_nil hm (by simp [dataFrame])]
  exact congrArg _ (feedBytes_dataFrame (s := s.begin) hwf hs k rsv fid m h1 h256)

/-! ### What the constructors give -/

/-- FTX_DATA of legal operands answers the frame with its reserved bits 0 (R160). -/
theorem exec_ftxData_of_legal {fid : U16} {m : U24} {pl : List Byte} {s : State} (hfid : fid.toNat ≤ 2047)
    (h1 : 1 ≤ pl.length) (h256 : pl.length ≤ maxPayload) :
    exec (.ftxData fid m pl) s = .next { s with ret := .frame (dataFrame s.cfg.sof 0 (fid.setWidth 11) m pl) } := by
  have hlen : ¬ (pl.length = 0 ∨ pl.length > maxPayload) := by omega
  have hftx : ftxData s.cfg.sof fid m pl = some (dataFrame s.cfg.sof 0 (fid.setWidth 11) m pl) := by
    rw [ftxData, if_neg hlen, fidOfU16_some hfid]
  show Host.Outcome.next (answerFrame (ftxData s.cfg.sof fid m pl) s.begin) = _
  rw [hftx]
  rfl

/-- FTX_LINK of a link code and a legal id answers the frame with its reserved bits 0 (R161). -/
theorem exec_ftxLink_of_legal (t : LinkType) {fid : U16} {s : State} (hfid : fid.toNat ≤ 2047) :
    exec (.ftxLink ((linkTypeCode t).setWidth 8) fid) s =
      .next { s with ret := .frame (linkFrame s.cfg.sof 0 t (fid.setWidth 11)) } := by
  have hftx : ftxLink s.cfg.sof ((linkTypeCode t).setWidth 8) fid = some (linkFrame s.cfg.sof 0 t (fid.setWidth 11)) := by
    rw [ftxLink, linkTypeOfByte_code, fidOfU16_some hfid]
  show Host.Outcome.next (answerFrame (ftxLink s.cfg.sof ((linkTypeCode t).setWidth 8) fid) s.begin) = _
  rw [hftx]
  rfl

/-- Settles O16: what FTX constructs is a whole frame behind no filler, with reserved bits 0. -/
theorem roundTripFraming : Obligations.RoundTripFraming := by
  intro s hm hwf hs
  refine ⟨fun fid m pl hfid h1 h256 => ?data, fun t fid hfid => ?link⟩
  case data => exact ⟨_, exec_ftxData_of_legal hfid h1 h256, execAll_dataFrame hm hwf hs 0 0 (fid.setWidth 11) m h1 h256⟩
  case link => exact ⟨_, exec_ftxLink_of_legal t hfid, execAll_linkFrame hm hwf hs 0 0 t (fid.setWidth 11)⟩

/-! ### Frames on the wire -/

/-- A wire frame reaches a stand-alone FRX as its bytes fed (R62; log 9). -/
theorem receiveFrame_of_frx {s : State} (hm : s.mode = .unit .frx) (i : Instr) :
    receiveFrame i s = feedBytes (encodeWith s.cfg.sof i) s.begin := if_pos hm

/-- A DATA frame that arrives while FRX searches runs its handler, outside a stand-alone FRX (R128, R183). -/
theorem receiveFrame_wireData {s : State} (hwf : s.cfg.wf = true) (hs : s.frx.Searching) (hm : s.mode ≠ .unit .frx)
    (rsv : BitVec 2) (fid : Fid) (m : U24) {pl : List Byte} (h1 : 1 ≤ pl.length) (h256 : pl.length ≤ maxPayload) :
    receiveFrame (.wireData rsv fid m pl) s = onFrame (fid.setWidth 16) m pl
      { s.begin with
        frx := s.frx.afterData pl.length
        dl := { s.dl with rxBytes := s.dl.rxBytes + BitVec.ofNat 32 (frameOverhead + pl.length) } } := by
  obtain ⟨front, last, g, hbytes, hquiet, hlast⟩ :=
    dataFrame_received s.cfg.sof 0 rsv fid m pl s.frx hs (kind_sof_of_wf hwf) h1 h256
  replace hbytes : dataFrame s.cfg.sof rsv fid m pl = front ++ [last] := hbytes
  have hdl : receiveFrame (.wireData rsv fid m pl) s = recvBytes s.now (dataFrame s.cfg.sof rsv fid m pl) s.begin :=
    if_neg hm
  rw [hdl, recvBytes_frame (s := s.begin) s.now hbytes hquiet hlast, dataFrame_length]
  rfl

/-- Settles O44: the handler runs in the state DL_ON_LINK begins in, or its event stands on FRX_OUT. -/
theorem wireLinkRunsHandler : Obligations.WireLinkRunsHandler := by
  intro t rsv fid s hwf hs
  rw [exec_of_isWire (wireLink_isWire t rsv fid)]
  refine ⟨fun hm => ⟨_, exec_dlOnLink _ _ _ _, ?dl⟩, fun hm => ?frx⟩
  case dl =>
    rw [receiveFrame_wireLink hwf hs hm]
    rfl
  case frx =>
    rw [receiveFrame_of_frx hm, encodeWith_wireLink]
    exact congrArg _ (feedBytes_linkFrame (s := s.begin) hwf hs 0 rsv t fid)

/-- Settles O45: as for a link frame, with DL_ON_FRAME as the handler. -/
theorem wireDataRunsHandler : Obligations.WireDataRunsHandler := by
  intro rsv fid m pl s hwf hs h1 h256
  rw [exec_of_isWire (i := .wireData rsv fid m pl) rfl]
  refine ⟨fun hm => ⟨_, rfl, ?dl⟩, fun hm => ?frx⟩
  case dl =>
    rw [receiveFrame_wireData hwf hs hm rsv fid m h1 h256]
    rfl
  case frx =>
    rw [receiveFrame_of_frx hm]
    exact congrArg _ (feedBytes_dataFrame (s := s.begin) hwf hs 0 rsv fid m h1 h256)

end Sys2Proof.Machine
end

/-! ## Framing errors and validated frames (spec/40_framer_rx.md R28, R121, R133) -/

section
namespace Sys2Proof.Machine

/-- 1 while sync is LOST, when FRX signals no further framing error, and 0 otherwise (R121). -/
def lostSync (f : Frx) : Nat := if f.sync = .lost then 1 else 0

theorem lostSync_le_one (f : Frx) : lostSync f ≤ 1 := by
  unfold lostSync
  split <;> decide

/-- `events` go out between f and g so that R133's count holds: each framing error is counted in resync, and two of them
stand apart by a validated frame. -/
structure Resyncs (events : List FrxEvent) (f g : Frx) : Prop where
  errors : framingErrors events + lostSync f ≤ validatedFrames events + lostSync g
  resync : g.resync = f.resync + BitVec.ofNat 32 (framingErrors events)

theorem framingErrors_append (xs ys : List FrxEvent) : framingErrors (xs ++ ys) = framingErrors xs + framingErrors ys := by
  simp [framingErrors]

theorem validatedFrames_append (xs ys : List FrxEvent) :
    validatedFrames (xs ++ ys) = validatedFrames xs + validatedFrames ys := by
  simp [validatedFrames]

theorem Resyncs.trans {xs ys : List FrxEvent} {f g h : Frx} (hfg : Resyncs xs f g) (hgh : Resyncs ys g h) :
    Resyncs (xs ++ ys) f h where
  errors := by
    have h1 := hfg.errors
    have h2 := hgh.errors
    rw [framingErrors_append, validatedFrames_append]
    omega
  resync := by rw [hgh.resync, hfg.resync, framingErrors_append, BitVec.ofNat_add, BitVec.add_assoc]

/-- Nothing goes out, and sync and resync stay. -/
theorem Resyncs.quiet {f g : Frx} (hs : g.sync = f.sync := by rfl) (hr : g.resync = f.resync := by rfl) :
    Resyncs [] f g where
  errors := by simp [lostSync, hs, framingErrors, validatedFrames]
  resync := by simp [hr, framingErrors]

/-- A validated frame goes out, whatever sync was (R127, R128). -/
theorem Resyncs.validated {f g : Frx} {e : FrxEvent} (he : e ≠ .framingError) (hr : g.resync = f.resync := by rfl) :
    Resyncs [e] f g where
  errors := by
    have hlost := lostSync_le_one f
    have hcount : framingErrors [e] = 0 ∧ validatedFrames [e] = 1 := by simp [framingErrors, validatedFrames, he]
    omega
  resync := by simp [hr, framingErrors, he]

/-- `desync()` signals and counts exactly where sync is not LOST (R121). -/
theorem desyncStep_resyncs {f g : Frx} (hs : g.sync = f.sync := by rfl) (hr : g.resync = f.resync := by rfl) :
    Resyncs (desyncStep g).event.toList f (desyncStep g).frx := by
  unfold desyncStep
  obtain ⟨-, h⟩ | ⟨hsync, h⟩ := desync_cases g <;> rw [h]
  · exact .quiet hs hr
  · exact ⟨by simp [lostSync, ← hs, hsync, framingErrors, validatedFrames], by simp [hr, framingErrors]⟩

theorem checkLink_resyncs {t : LinkType} {f g : Frx} (hs : g.sync = f.sync := by rfl) (hr : g.resync = f.resync := by rfl) :
    Resyncs (checkLink t g).event.toList f (checkLink t g).frx := by
  unfold checkLink
  split
  · exact .validated nofun hr
  · exact .quiet hs hr

theorem checkData_resyncs {f g : Frx} (hs : g.sync = f.sync := by rfl) (hr : g.resync = f.resync := by rfl) :
    Resyncs (checkData g).event.toList f (checkData g).frx := by
  simp only [checkData]
  split
  · exact .validated nofun hr
  · exact .quiet hs hr

/-- One step of FRX keeps R133's count: it ends in `desync()`, in a check of a whole frame, or quietly. -/
theorem frxStep_resyncs (sof b : Byte) (f : Frx) : Resyncs (frxStep sof b f).event.toList f (frxStep sof b f).frx := by
  unfold frxStep
  cases f.rxState with
  | searchSof =>
    simp only [stepSearchSof]
    split
    · exact .quiet
    · exact desyncStep_resyncs
  | searchSof2 =>
    simp only [stepSearchSof2]
    split
    · exact .quiet
    · exact desyncStep_resyncs
  | searchFrameType =>
    simp only [stepSearchFrameType]
    split
    · exact .quiet
    · split
      · exact desyncStep_resyncs
      · exact .quiet
      · exact .quiet
  | storeHeader =>
    simp only [stepStoreHeader]
    split
    · exact .quiet
    · split
      · exact .quiet
      · exact checkLink_resyncs
      · exact .quiet
  | storeRemainder =>
    simp only [stepStoreRemainder]
    split
    · exact .quiet
    · exact checkData_resyncs

/-- `t` is `s` after bytes were fed: what FRX_OUT gained keeps R133's count. -/
def FedResyncs (s t : State) : Prop := ∃ events, t.frxOut = s.frxOut ++ events ∧ Resyncs events s.frx t.frx

theorem FedResyncs.refl (s : State) : FedResyncs s s := ⟨[], (List.append_nil _).symm, .quiet⟩

theorem FedResyncs.trans {s t u : State} (h : FedResyncs s t) (k : FedResyncs t u) : FedResyncs s u := by
  obtain ⟨xs, hxs, hst⟩ := h
  obtain ⟨ys, hys, htu⟩ := k
  exact ⟨xs ++ ys, by rw [hys, hxs, List.append_assoc], hst.trans htu⟩

/-- FRX_OUT gains the event a stand-alone FRX delivers, and FRX's own state is untouched (R130, R272). -/
theorem deliverFrx_out_eq (e : Option FrxEvent) (s : State) :
    deliverFrx .out e s = { s with frxOut := s.frxOut ++ e.toList } := by
  cases e with
  | none => simp [deliverFrx]
  | some e => rfl

theorem frxRun_out_resyncs (q : List Byte) (s : State) : FedResyncs s (frxRun .out q s) := by
  refine frxRun_induct .out FedResyncs .refl .trans (fun x s => ?_) q s
  rw [deliverFrx_out_eq]
  exact ⟨_, rfl, frxStep_resyncs s.cfg.sof x s.frx⟩

theorem feedBytes_resyncs (bytes : List Byte) (s : State) : FedResyncs s (feedBytes bytes s) := by
  unfold feedBytes
  induction bytes generalizing s with
  | nil => exact .refl s
  | cons b bs ih => exact (frxRun_out_resyncs [b] s).trans (ih _)

theorem execAll_frxBytes_resyncs {s : State} (hm : s.mode = .unit .frx) (bytes : List Byte) :
    ∃ t, execAll (bytes.map .frxByte) s = .next t ∧ FedResyncs s t := by
  by_cases hne : bytes = []
  · exact ⟨s, by rw [hne]; rfl, .refl s⟩
  · exact ⟨_, execAll_frxBytes_of_ne_nil hm hne, feedBytes_resyncs bytes s.begin⟩

/-- R133's bound: the count leaves at most the one framing error that lost sync unanswered. -/
theorem Resyncs.framingErrors_le {events : List FrxEvent} {f g : Frx} (h : Resyncs events f g) :
    framingErrors events ≤ 1 + validatedFrames events := by
  have herrors := h.errors
  have hlost := lostSync_le_one g
  omega

/-- Settles O17: SOF filler before a whole frame is quiet, and every fed byte keeps the count of framing errors. -/
theorem resyncIdempotence : Obligations.ResyncIdempotence := by
  refine ⟨fun k rsv fid s hm hwf hs => ⟨fun m pl h1 h256 => ?data, fun t => ?link⟩, fun bytes s hm => ?count⟩
  case data => exact execAll_dataFrame hm hwf hs k rsv fid m h1 h256
  case link =>
    rw [encodeWith_wireLink]
    exact execAll_linkFrame hm hwf hs k rsv t fid
  case count =>
    obtain ⟨t, hexec, events, hout, hcount⟩ := execAll_frxBytes_resyncs hm bytes
    exact ⟨t, events, hexec, hout, hcount.framingErrors_le, hcount.resync⟩

end Sys2Proof.Machine
end

/-! ## What the constructors answer (spec/41_framer_tx.md R160, R161) -/

section
namespace Sys2Proof.Machine

/-- FTX_DATA with an id above 2047 or a payload no DATA frame holds gives no bytes (R160). -/
theorem exec_ftxData_of_illegal {fid : U16} (m : U24) {pl : List Byte} (s : State)
    (h : fid.toNat > 2047 ∨ pl.length = 0 ∨ pl.length > 256) :
    exec (.ftxData fid m pl) s = .next { s with ret := .result .invalidParameter } := by
  have hftx : ftxData s.cfg.sof fid m pl = none := by
    unfold ftxData
    split
    · rfl
    · next hlen => rw [fidOfU16_none (h.resolve_right hlen)]
  show Host.Outcome.next (answerFrame (ftxData s.cfg.sof fid m pl) s.begin) = _
  rw [hftx]
  rfl

/-- Settles O18: legal operands give the model's frame, whose bytes are R160's; the others give none. -/
theorem ftxDataBytes : Obligations.FtxDataBytes := by
  intro fid m pl s
  split
  · next h => exact exec_ftxData_of_illegal m s h
  · next h =>
    obtain ⟨hfid, h1, h256⟩ : fid.toNat ≤ 2047 ∧ 1 ≤ pl.length ∧ pl.length ≤ 256 := by omega
    rw [exec_ftxData_of_legal hfid h1 h256, dataFrame_eq, setWidth_fid_toNat hfid]

/-- FTX_LINK with a type that names no link code or an id above 2047 gives no bytes (R161). -/
theorem exec_ftxLink_of_illegal {type : Byte} {fid : U16} (s : State)
    (h : linkTypeOfByte type = none ∨ fid.toNat > 2047) :
    exec (.ftxLink type fid) s = .next { s with ret := .result .invalidParameter } := by
  have hftx : ftxLink s.cfg.sof type fid = none := by
    unfold ftxLink
    split
    · next htype hfid =>
      obtain h | h := h
      · cases htype.symm.trans h
      · cases hfid.symm.trans (fidOfU16_none h)
    · rfl
  show Host.Outcome.next (answerFrame (ftxLink s.cfg.sof type fid) s.begin) = _
  rw [hftx]
  rfl

/-- Settles O19: by whether the type byte is a link type's code, and then as for FTX_DATA. -/
theorem ftxLinkBytes : Obligations.FtxLinkBytes := by
  intro type fid s
  obtain ⟨hbad, hnone⟩ | ⟨hcode, t, -, ht⟩ := linkTypeOfByte_cases type
  · rw [if_pos (.inl hbad), exec_ftxLink_of_illegal s (.inl hnone)]
  · obtain rfl : (linkTypeCode t).setWidth 8 = type :=
      BitVec.eq_of_toNat_eq ((BitVec.toNat_setWidth_of_le (by decide)).trans ht)
    split
    · next h => exact exec_ftxLink_of_illegal s (.inr (h.resolve_left (not_not_intro hcode)))
    · next h =>
      have hfid : fid.toNat ≤ 2047 := by omega
      rw [exec_ftxLink_of_legal t hfid, linkFrame_eq, setWidth_fid_toNat hfid, ht]

end Sys2Proof.Machine
end

/-! ## Frame-id arithmetic over all operands (spec/42_frame_id.md R170, R171) -/

section
namespace Sys2Proof.Machine

/-- FID_SUB by its naive difference c: c wraps by 2048 where it lies more than 1023 from 0 (R170). -/
theorem fidSub_cases {a b : Nat} {c : Int} (hc : c = (a % 2048 : Nat) - (b % 2048 : Nat)) :
    (1023 < c ∧ fidSub a b = c - 2048) ∨ (c < -1023 ∧ fidSub a b = c + 2048) ∨
    (-1023 ≤ c ∧ c ≤ 1023 ∧ fidSub a b = c) := by
  simp only [fidSub, frameIdSpace, ← hc]
  split
  · next hgt => exact .inl ⟨hgt, rfl⟩
  · split
    · next hlt => exact .inr (.inl ⟨hlt, rfl⟩)
    · exact .inr (.inr ⟨by omega, by omega, rfl⟩)

/-- The distance is antisymmetric, the midpoint included (R170): the naive difference changes sign, and the bounds on it are
symmetric. -/
theorem fidSub_antisymm (a b : Nat) : fidSub b a = -fidSub a b := by
  obtain ⟨c, hc⟩ : ∃ c : Int, c = (a % 2048 : Nat) - (b % 2048 : Nat) := ⟨_, rfl⟩
  have hba := fidSub_cases (a := b) (b := a) (c := -c) (by omega)
  obtain ⟨hgt, hab⟩ | ⟨hlt, hab⟩ | ⟨hlo, hhi, hab⟩ := fidSub_cases hc <;> omega

/-- FID_SUB answers the distance of its operands and writes nothing else (R31, R170). -/
theorem exec_fidSub (a b : U16) (s : State) :
    exec (.fidSub a b) s = .next { s with ret := .distance (fidSub a.toNat b.toNat) } := rfl

/-- Settles O20: by where the naive difference lies; each operand being reduced, it is less than 2048 in size. -/
theorem fidSubDistance : Obligations.FidSubDistance := by
  intro a b s
  refine ⟨fidSub a.toNat b.toNat, exec_fidSub a b s, ?swapped, ?value⟩
  case swapped => rw [exec_fidSub, fidSub_antisymm]
  case value =>
    obtain ⟨hgt, hd⟩ | ⟨hlt, hd⟩ | ⟨hlo, hhi, hd⟩ := fidSub_cases (a := a.toNat) (b := b.toNat) rfl <;>
      exact ⟨by omega, by omega, by omega, by omega, rfl⟩

/-- FID_INC's frame id by arithmetic, for an operand of any size (R171). -/
theorem toNat_fidInc (a : Nat) : (fidInc a).toNat = (a + 1) % 2048 := BitVec.toNat_ofNat ..

/-- Settles O21: FID_INC answers the model's successor and writes nothing else. -/
theorem fidIncSuccessor : Obligations.FidIncSuccessor := fun a _ => ⟨fidInc a.toNat, rfl, toNat_fidInc a.toNat⟩

end Sys2Proof.Machine
end

/-! ## The data link's shared procedures as the statements write them (spec/43_data_link.md R181, R193, R198) -/

section
namespace Sys2Proof.Machine

/-- An upward delivery passes its item (R9, R272), once the command that makes it has begun. -/
theorem passes_upwardRecv {s : State} (hr : s.ret = .none) (m : U24) (pl : List Byte) :
    Passes (.recv m pl) s (upwardRecv m pl s) := by
  unfold Passes upwardRecv
  split
  · rfl
  · show Host.Outcome.next (tpOnRecv m pl s.begin) = _
    rw [State.begin_of_ret_none hr]

/-- An upward event passes its item (R9, R272), once the command that makes it has begun. -/
theorem passes_upwardEvent {s : State} (hr : s.ret = .none) (ev : LinkEvent) :
    Passes (.event ev) s (upwardEvent ev s) := by
  unfold Passes upwardEvent
  split
  · rfl
  · simp only [upwardCommand, exec, execTpOnEvent, linkEventOfByte_code, State.begin_of_ret_none hr]

/-- Some entry has been sent again more often than MAX_RETRIES allows (R193). -/
theorem retriesExceeded_iff {maxRetries : Nat} {fs : List InFlight} :
    retriesExceeded maxRetries fs = true ↔ ∃ f ∈ fs, f.attempts.toNat - 1 > maxRetries := by
  simp only [retriesExceeded, List.any_eq_true, decide_eq_true_eq]
  exact exists_congr fun f => and_congr_right fun _ => by omega

/-- The model's retry check is R193's. -/
theorem retryChecked_retryCheck {s : State} (hr : s.ret = .none) : RetryChecked s (retryCheck s) := by
  have hcond : (!s.dl.discReported && retriesExceeded s.cfg.maxRetries s.dl.inflight) = true ↔
      s.dl.discReported = false ∧ ∃ f ∈ s.dl.inflight, f.attempts.toNat - 1 > s.cfg.maxRetries := by
    rw [Bool.and_eq_true, Bool.not_eq_true', retriesExceeded_iff]
  unfold RetryChecked retryCheck
  by_cases h : s.dl.discReported = false ∧ ∃ f ∈ s.dl.inflight, f.attempts.toNat - 1 > s.cfg.maxRetries
  · rw [if_pos h, if_pos (hcond.mpr h)]
    exact passes_upwardEvent (s := { s with dl := { s.dl with discReported := true } }) hr _
  · rw [if_neg h, if_neg (mt hcond.mp h)]

/-- `send_link` puts the eight bytes R81 lists and counts them (R181). -/
theorem sendLink_eq (t : LinkType) (fid : Fid) (s : State) :
    sendLink t fid s =
      { s with
        txOut := s.txOut ++ linkBytes s.cfg.sof (linkTypeCode t).toNat fid.toNat
        dl := { s.dl with txBytes := s.dl.txBytes + 8 } } := by
  rw [← linkFrame_eq]
  rfl

/-- disc_reported is cleared where the acknowledgement covers any entry (R198). -/
theorem discAfterAck_countP (acked : InFlight → Bool) (fs : List InFlight) (d : Bool) :
    discAfterAck (fs.countP acked) d = (d && !fs.any acked) := by
  cases hany : fs.any acked with
  | false => simp [List.countP_eq_zero.mpr (List.any_eq_false.mp hany)]
  | true => simp [discAfterAck, List.countP_pos_iff.mpr (List.any_eq_true.mp hany)]

/-- `ack_remove` in one piece (R198). -/
theorem ackRemove_eq (acked : InFlight → Bool) (s : State) :
    ackRemove acked s =
      { s with
        dl := { s.dl with
          inflight := s.dl.inflight.filter (fun f => !acked f)
          txDataFrames := s.dl.txDataFrames + BitVec.ofNat 32 (s.dl.inflight.countP acked)
          discReported := s.dl.discReported && !s.dl.inflight.any acked } } := by
  simp only [ackRemove, ← List.countP_eq_length_filter, discAfterAck_countP]

end Sys2Proof.Machine
end

/-! ## DL's commands and handlers as whole next states (spec/43_data_link.md R182 to R198) -/

section
namespace Sys2Proof.Machine

/-- DL_SEND by its checks, in their order (R182). -/
theorem dlSend_eq (now : U32) (m : U24) (pl : List Byte) (s : State) :
    dlSend now m pl s =
      if pl.length > maxPayload then raiseResult .tooBig s
      else if pl.length = 0 then raiseResult .invalidParameter s
      else if s.dl.inflight.length ≥ s.cfg.txWindowSize.toNat then raiseResult .notEnoughMemory s
      else if bufferedBytes s.dl.inflight + (frameOverhead + pl.length) > s.cfg.txBufferSize.toNat then
        raiseResult .notEnoughMemory s
      else (sendFrame now m pl s).answer (.result .ok) := by
  unfold dlSend sendCheck
  split_ifs <;> rfl

/-- Settles O22: the checks in their order, and the frame's bytes where all pass. -/
theorem dlSendChecksInOrder : Obligations.DlSendChecksInOrder := by
  intro now m pl s frame
  show Host.Outcome.next (dlSend now m pl (s.beginAt now)) = _
  rw [dlSend_eq, sendFrame_eq, dataFrame_eq]
  rfl

/-- DL_LL_RECV leaves a state in which a further DL_LL_RECV at the same time begins without a change (R45, R180). -/
theorem recvBytes_beginAt (now : U32) (bs : List Byte) (s : State) :
    (recvBytes now bs (s.beginAt now)).beginAt now = recvBytes now bs (s.beginAt now) := by
  have h := recvBytes_received now bs (s.beginAt now)
  exact State.beginAt_of_ready ⟨h.now, h.ret⟩

/-- Settles O23: the model's loop is R183's, and a loop over two sequences is one loop after another. -/
theorem dlLlRecvFeeds : Obligations.DlLlRecvFeeds := by
  refine ⟨fun now bytes s => ⟨_, receives_recvBytes now bytes (s.beginAt now) ⟨rfl, rfl⟩, rfl⟩,
    fun now xs ys s t h => ?_⟩
  cases h
  show Host.Outcome.next (recvBytes now (xs ++ ys) (s.beginAt now)) =
    .next (recvBytes now ys ((recvBytes now xs (s.beginAt now)).beginAt now))
  rw [recvBytes_beginAt]
  simp only [recvBytes, List.foldl_append]

/-- The expected frame: counted, delivered, the expected id advanced, then acknowledged (R184). -/
theorem onFrame_of_expected {fid : U16} {s : State} (h : fid.toNat = s.dl.rxFrameId.toNat) (m : U24) (pl : List Byte) :
    onFrame fid m pl s =
      let u := upwardRecv m pl { s with dl := { s.dl with rxDataFrames := s.dl.rxDataFrames + 1 } }
      sendLink .ackAll s.dl.rxFrameId { u with dl := { u.dl with rxFrameId := s.dl.rxFrameId + 1 } } := by
  simp only [onFrame, if_pos h, fidInc_toNat]

/-- Any other frame draws a NACK with the expected id (R184). -/
theorem onFrame_of_unexpected {fid : U16} {s : State} (h : fid.toNat ≠ s.dl.rxFrameId.toNat) (m : U24) (pl : List Byte) :
    onFrame fid m pl s = sendLink .nackFrameId s.dl.rxFrameId s := if_neg h

/-- Settles O24: the id is the expected one, or it is not. -/
theorem dlOnFrameAcceptsInOrder : Obligations.DlOnFrameAcceptsInOrder := by
  intro now fid m pl s
  refine ⟨fun h => ⟨_, passes_upwardRecv rfl m pl, ?accepted⟩, fun h => ?refused⟩
  case accepted =>
    show Host.Outcome.next (onFrame fid m pl (s.beginAt now)) = _
    have hcfg (u : State) : (upwardRecv m pl u).cfg = u.cfg := (upwardRecv_reacts m pl u).1.cfg
    rw [onFrame_of_expected (s := s.beginAt now) h, sendLink_eq, h]
    simp only [hcfg]
    rfl
  case refused =>
    show Host.Outcome.next (onFrame fid m pl (s.beginAt now)) = _
    rw [onFrame_of_unexpected (s := s.beginAt now) h, sendLink_eq]
    rfl

/-- Settles O25: either acknowledgement is an `ack_remove`. -/
theorem acksRemove : Obligations.AcksRemove := by
  intro now fid s
  exact ⟨(exec_dlOnLink now .ackAll fid s).trans (congrArg _ (ackRemove_eq _ _)),
    (exec_dlOnLink now .ackOne fid s).trans (congrArg _ (ackRemove_eq _ _))⟩

/-- The NACK steps up to the retry check, in one piece (R188): the entries before fid are gone, and each that remains has been
put again. -/
theorem goBack_eq (now : U32) (fid : U16) (s : State) :
    let acked (f : InFlight) : Bool := decide (fidSub f.fid.toNat fid.toNat < 0)
    let kept := s.dl.inflight.filter (fun f => !acked f)
    goBack now fid s = retryCheck
      { s with
        txOut := s.txOut ++ kept.flatMap InFlight.frame
        dl := { s.dl with
          inflight := kept.map (InFlight.resent now)
          txDataFrames := s.dl.txDataFrames + BitVec.ofNat 32 (s.dl.inflight.countP acked)
          txBytes := s.dl.txBytes + BitVec.ofNat 32 (bufferedBytes kept)
          txRetransmissions := s.dl.txRetransmissions + BitVec.ofNat 32 kept.length
          discReported := s.dl.discReported && !s.dl.inflight.any acked } } := by
  simp only [goBack, retransmitWhere_eq, ackRemove_eq, List.filter_true, if_true]

/-- Settles O27: both types run the NACK steps, and these end in the retry check. -/
theorem nackGoesBack : Obligations.NackGoesBack := by
  intro now type fid s htype acked kept
  have hexec : exec (.dlOnLink now type fid) s = .next (goBack now fid (s.beginAt now)) := by
    rcases htype with rfl | rfl
    · exact exec_dlOnLink now .nackFrameId fid s
    · exact exec_dlOnLink now .nackFramingError fid s
  refine ⟨_, hexec, ?_⟩
  rw [goBack_eq]
  exact retryChecked_retryCheck rfl

/-- Settles O28: the clearing and the frame, where one is put, come before the upward RESET. -/
theorem linkResetClears : Obligations.LinkResetClears := by
  intro now fid s cleared
  refine ⟨⟨_, rfl, ?sent⟩, ⟨_, exec_dlOnLink now .reset fid s, ?received⟩⟩
  case sent =>
    have h := passes_upwardEvent (s := cleared 8 (linkBytes s.cfg.sof 6 0)) rfl .reset
    simp only [linkReset, sendLink_eq, if_true]
    exact h
  case received =>
    have h := passes_upwardEvent (s := cleared 0 []) rfl .reset
    simp only [cleared, List.append_nil] at h ⊢
    exact h

/-- Settles O31: retransmission of the due entries, then the retry check. -/
theorem dlProcessResendsDue : Obligations.DlProcessResendsDue := by
  intro now s due sent
  refine ⟨_, rfl, ?_⟩
  rw [processTimeouts, retransmitWhere_eq]
  exact retryChecked_retryCheck rfl

/-- Settles O30: the handler is one `send_link`. -/
theorem dlOnFramingErrorNacks : Obligations.DlOnFramingErrorNacks :=
  fun now s => congrArg _ (sendLink_eq .nackFramingError s.dl.rxFrameId (s.beginAt now))

/-- Settles O34: the answer and the first 24 registers by evaluation; no row of R39 has a number above those. -/
theorem statusAndRegisters : Obligations.StatusAndRegisters := by
  refine fun s => ⟨rfl, rfl, fun n hn => ?_⟩
  obtain ⟨k, rfl⟩ := Nat.exists_eq_add_of_le' hn
  rfl

end Sys2Proof.Machine
end

/-! ## Operands for which an internal command is refused (spec/43_data_link.md R185, spec/44_transport.md R232,
spec/45_reassembly.md R250) -/

section
namespace Sys2Proof.Machine

/-- An event operand above 2 names no link event (R91). -/
theorem linkEventOfByte_none {b : Byte} (h : b.toNat > 2) : linkEventOfByte b = none := by
  have h0 : b ≠ 0 := by rintro rfl; simp at h
  have h1 : b ≠ 1 := by rintro rfl; simp at h
  have h2 : b ≠ 2 := by rintro rfl; simp at h
  simp only [linkEventOfByte, if_neg h0, if_neg h1, if_neg h2]

/-- A seq operand above 3 names no segment tag (R89, R91). -/
theorem seqTagOfByte_none {b : Byte} (h : b.toNat > 3) : seqTagOfByte b = none := if_neg (by omega)

/-- Settles O35: each operand names nothing, or the port named has no sequencer or no handle. -/
theorem internalOperandsRefused : Obligations.InternalOperandsRefused := by
  intro s
  refine ⟨fun now type fid htype => ?_, fun ev hev => ?_, fun p sq pd pl hp => ?_, fun p sq pd pl he => ?_,
    fun p sq pd pl he hport => ?_, fun p sq pd pl h he hport hsq => ?_⟩
  · obtain ⟨-, hnone⟩ | ⟨hcode, -⟩ := linkTypeOfByte_cases type
    · simp only [exec, execDlOnLink, hnone]
    · exact absurd hcode htype
  · simp only [exec, execTpOnEvent, linkEventOfByte_none hev]
  · simp only [exec, execSeqPush, portOfByte_none hp]
  · simp [exec, execSeqPush, he]
  · simp [exec, execSeqPush, he, hport]
  · simp [exec, execSeqPush, he, hport, seqTagOfByte_none hsq]

end Sys2Proof.Machine
end

/-! ## What ACK_ALL removes from consecutive ids (spec/43_data_link.md R186, spec/42_frame_id.md R170) -/

section
namespace Sys2Proof.Machine

/-- An acknowledgement that covers exactly the entries from the k-th on leaves the first k. -/
theorem filter_not_eq_take {α : Type} {acked : α → Bool} {l : List α} {k : Nat}
    (h : ∀ j (hj : j < l.length), acked l[j] = decide (k ≤ j)) : l.filter (fun f => !acked f) = l.take k := by
  have htake : (l.take k).filter (fun f => !acked f) = l.take k := by
    refine List.filter_eq_self.mpr fun f hf => ?_
    obtain ⟨j, hj, rfl⟩ := List.mem_iff_getElem.mp hf
    simp only [List.length_take, Nat.lt_min] at hj
    simp [h j hj.2, hj.1]
  have hdrop : (l.drop k).filter (fun f => !acked f) = [] := by
    refine List.filter_eq_nil_iff.mpr fun f hf => ?_
    obtain ⟨j, hj, rfl⟩ := List.mem_iff_getElem.mp hf
    simp only [List.length_drop] at hj
    simp [h (k + j) (by omega)]
  calc l.filter (fun f => !acked f)
      = (l.take k ++ l.drop k).filter (fun f => !acked f) := by rw [List.take_append_drop]
    _ = l.take k := by rw [List.filter_append, htake, hdrop, List.append_nil]

/-- An acknowledgement covers as many entries as it takes from the list. -/
theorem countP_eq_length_sub {α : Type} (acked : α → Bool) (l : List α) :
    l.countP acked = l.length - (l.filter fun f => !acked f).length := by
  rw [← List.countP_eq_length_filter, List.length_eq_countP_add_countP acked]
  simp

/-- What ACK_ALL leaves of the list, and that it counts as many entries as have gone (R186, R198). -/
theorem exec_dlOnLink_ackAll {now : U32} {fid : Fid} {s t : State} (h : exec (.dlOnLink now 1 (fid.setWidth 16)) s = .next t) :
    t.dl.inflight = s.dl.inflight.filter (fun f => !decide (fidSub f.fid.toNat fid.toNat ≤ 0)) ∧
    t.dl.txDataFrames = s.dl.txDataFrames + BitVec.ofNat 32 (s.dl.inflight.length - t.dl.inflight.length) := by
  obtain ⟨hack, -⟩ := acksRemove now (fid.setWidth 16) s
  rw [toNat_setWidth_fid] at hack
  cases h.symm.trans hack
  refine ⟨rfl, congrArg (fun k => s.dl.txDataFrames + BitVec.ofNat 32 k) ?_⟩
  exact countP_eq_length_sub _ _

/-- FID_SUB's distance is the naive difference mod 2048 (R170). -/
theorem fidSub_emod (a b : Fid) : (b.toNat + fidSub a.toNat b.toNat) % 2048 = a.toNat := by
  have ha := a.isLt
  have hb := b.isLt
  obtain ⟨-, hv⟩ | ⟨-, hv⟩ | ⟨-, -, hv⟩ := fidSub_cases (a := a.toNat) (b := b.toNat) rfl <;> omega

/-- At the midpoint FID_SUB gives 1024 or -1024 (R170, R172). -/
theorem fidSub_of_midpoint {d : Dl} {x y : Fid} {D E : Int} (hx : d.AtPlace x D) (hy : d.AtPlace y E)
    (hmid : D - E = 1024) : fidSub x.toNat y.toNat = 1024 ∨ fidSub x.toNat y.toNat = -1024 := by
  have hmod := fidSub_emod x y
  obtain ⟨hlo, hhi⟩ := fidSub_bounds x.toNat y.toNat
  unfold Dl.AtPlace at hx hy
  omega

/-- A place 2048 further on is the same place. -/
theorem Dl.AtPlace.sub_2048 {d : Dl} {x : Fid} {D : Int} (hx : d.AtPlace x D) : d.AtPlace x (D - 2048) := by
  unfold Dl.AtPlace at hx ⊢
  omega

section
variable {d : Dl} {x : Fid} (h : d.Consecutive) (hn : d.inflight.length ≤ 1023)
include h

/-- An id stands as far along the list as it lies past the oldest id. -/
theorem Dl.Consecutive.atPlace_of_oldest (hpos : 0 < d.inflight.length) :
    d.AtPlace x (x - d.inflight[0].fid).toNat := by
  have hsum := fid_add_sub d.inflight[0].fid x
  have hfirst := h.atPlace hpos
  unfold Dl.AtPlace at hfirst ⊢
  omega

include hn

/-- Where x lies at most 1023 past the oldest id, ACK_ALL covers the entries through x (R186). -/
theorem Dl.Consecutive.fidSub_nonpos_iff_of_past {j : Nat} (hj : j < d.inflight.length)
    (hpast : (x - d.inflight[0].fid).toNat ≤ 1023) :
    fidSub d.inflight[j].fid.toNat x.toNat ≤ 0 ↔ j ≤ (x - d.inflight[0].fid).toNat := by
  have hx := h.atPlace_of_oldest (x := x) (by omega)
  rw [(h.atPlace hj).fidSub hx (by omega) (by omega)]
  omega

/-- Where x lies further past the oldest id, the distance wraps: ACK_ALL covers the entries more than 1024 before x, and at the
midpoint those that FID_SUB puts at -1024 (R170, R186). -/
theorem Dl.Consecutive.fidSub_nonpos_iff_of_far {j : Nat} (hj : j < d.inflight.length)
    (hfar : 1024 ≤ (x - d.inflight[0].fid).toNat) :
    fidSub d.inflight[j].fid.toNat x.toNat ≤ 0 ↔
      1025 ≤ j + 2048 - (x - d.inflight[0].fid).toNat ∨
        j + 2048 - (x - d.inflight[0].fid).toNat = 1024 ∧ fidSub d.inflight[j].fid.toNat x.toNat = -1024 := by
  have hx := h.atPlace_of_oldest (x := x) (by omega)
  have hlt := (x - d.inflight[0].fid).isLt
  rcases Nat.lt_trichotomy (j + 2048 - (x - d.inflight[0].fid).toNat) 1024 with hbelow | hmid | habove
  · have hv := (h.atPlace hj).fidSub hx.sub_2048 (by omega) (by omega)
    omega
  · have hv := fidSub_of_midpoint (h.atPlace hj) hx.sub_2048 (by omega)
    omega
  · have hv := (h.atPlace hj).fidSub hx (by omega) (by omega)
    omega

/-- The distances from the oldest id to x and from x to the newest make up the list, mod 2048. -/
theorem Dl.Consecutive.distances_add (hpos : 0 < d.inflight.length) :
    ((x - d.inflight[0].fid).toNat + (d.txFrameId - 1 - x).toNat + 1) % 2048 = d.inflight.length := by
  have hsum := fid_add_sub d.inflight[0].fid x
  have hsum' := fid_add_sub x (d.txFrameId - 1)
  have hnewest : ((d.txFrameId - 1).toNat + 1) % 2048 = d.txFrameId.toNat := by bv_omega
  have hfirst := h.toNat_fid (k := 0) hpos
  omega

/-- Where x lies behind the oldest id and within 1023 of the newest, ACK_ALL covers nothing (R186). -/
theorem Dl.Consecutive.fidSub_pos_of_behind {j : Nat} (hj : j < d.inflight.length)
    (hfar : 1024 ≤ (x - d.inflight[0].fid).toNat) (hbehind : (d.txFrameId - 1 - x).toNat ≤ 1023) :
    ¬ fidSub d.inflight[j].fid.toNat x.toNat ≤ 0 := by
  have hsum := h.distances_add hn (x := x) (by omega)
  have hlt := (x - d.inflight[0].fid).isLt
  rw [h.fidSub_nonpos_iff_of_far hn hj hfar]
  omega

/-- Where x lies more than 1023 from either end, ACK_ALL covers the newest entries: the midpoint lies in the list, and it is
covered or not (R170, R186). -/
theorem Dl.Consecutive.exists_newest_covered (hpos : 0 < d.inflight.length)
    (hfar : 1024 ≤ (x - d.inflight[0].fid).toNat) (hfar' : 1024 ≤ (d.txFrameId - 1 - x).toNat) :
    ∃ k ≤ d.inflight.length, ∀ j (hj : j < d.inflight.length), fidSub d.inflight[j].fid.toNat x.toNat ≤ 0 ↔ k ≤ j := by
  have hsum := h.distances_add hn (x := x) hpos
  have hlt := (x - d.inflight[0].fid).isLt
  have hlt' := (d.txFrameId - 1 - x).isLt
  obtain ⟨m, hm⟩ : ∃ m, (x - d.inflight[0].fid).toNat = m + 1024 := Nat.exists_eq_add_of_le' hfar
  have hmid : m < d.inflight.length := by omega
  have hcovered (j : Nat) (hj : j < d.inflight.length) := h.fidSub_nonpos_iff_of_far hn hj hfar
  by_cases hv : fidSub d.inflight[m].fid.toNat x.toNat = -1024
  · refine ⟨m, hmid.le, fun j hj => ?_⟩
    by_cases hjm : j = m
    · subst hjm
      omega
    · rw [hcovered j hj]
      omega
  · refine ⟨m + 1, hmid, fun j hj => ?_⟩
    by_cases hjm : j = m
    · subst hjm
      rw [hcovered j hj]
      omega
    · rw [hcovered j hj]
      omega

end

/-- Settles O26: the id lies past the oldest entry, behind the list, or out of range of both ends. -/
theorem ackAllOnConsecutiveList : Obligations.AckAllOnConsecutiveList := by
  intro now fid oldest s t hw hinv hc hhead hexec d
  have hn := hinv.length_le hw
  obtain ⟨hpos, h0⟩ := List.getElem?_eq_some_iff.mp (List.head?_eq_getElem? ▸ hhead)
  subst h0
  obtain ⟨hleft, hcount⟩ := exec_dlOnLink_ackAll hexec
  refine ⟨fun hpast => ?past, fun hfar hbehind => ?behind, fun hfar hfar' => ?neither⟩
  case past =>
    have hdrop : t.dl.inflight = s.dl.inflight.drop (d + 1) := by
      rw [hleft]
      refine filter_not_eq_drop fun j hj => decide_eq_decide.mpr ?_
      rw [hc.fidSub_nonpos_iff_of_past hn hj hpast, Nat.lt_succ_iff]
    refine ⟨hdrop, ?_⟩
    rw [hcount, hdrop, List.length_drop, Nat.sub_sub_eq_min, Nat.min_comm]
  case behind =>
    have hsame : t.dl.inflight = s.dl.inflight := by
      rw [hleft]
      refine filter_not_eq_drop (k := 0) fun j hj => decide_eq_decide.mpr ?_
      exact iff_of_false (hc.fidSub_pos_of_behind hn hj hfar hbehind) (Nat.not_lt_zero j)
    refine ⟨hsame, ?_⟩
    rw [hcount, hsame, Nat.sub_self]
    exact BitVec.add_zero _
  case neither =>
    obtain ⟨k, hk, hcovered⟩ := hc.exists_newest_covered hn hpos hfar hfar'
    refine ⟨k, hk, ?_, fun j hj => ?_⟩
    · rw [hleft]
      exact filter_not_eq_take fun j hj => decide_eq_decide.mpr (hcovered j hj)
    · rw [← hc.fidSub_nonpos_iff_of_far hn hj hfar, hcovered j hj, Nat.not_le]

end Sys2Proof.Machine
end

/-! ## The service interval (spec/43_data_link.md R192, R194, spec/60_exceptions.md R281) -/

section
namespace Sys2Proof.Machine

/-! ### The least wait -/

/-- w is the wait of some entry, and none waits less. -/
def IsLeastWait (wait : InFlight → U32) (fs : List InFlight) (w : U32) : Prop :=
  (∃ f ∈ fs, w = wait f) ∧ ∀ f ∈ fs, w.toNat ≤ (wait f).toNat

theorem leastOf_cases (a b : U32) :
    (leastOf a b = a ∧ a.toNat ≤ b.toNat) ∨ (leastOf a b = b ∧ b.toNat ≤ a.toNat) := by
  unfold leastOf
  split
  · next h => exact .inl ⟨rfl, h⟩
  · next h => exact .inr ⟨rfl, (BitVec.not_le.mp h).le⟩

/-- One entry more: the least of its wait and the least so far. -/
theorem IsLeastWait.concat {wait : InFlight → U32} {fs : List InFlight} {w : U32} (h : IsLeastWait wait fs w)
    (f : InFlight) : IsLeastWait wait (fs ++ [f]) (leastOf w (wait f)) := by
  obtain ⟨⟨g, hg, hw⟩, hall⟩ := h
  obtain ⟨hl, hle⟩ | ⟨hl, hle⟩ := leastOf_cases w (wait f) <;> rw [hl]
  · refine ⟨⟨g, List.mem_append_left _ hg, hw⟩, fun k hk => ?_⟩
    rcases List.mem_append.mp hk with hk | hk
    · exact hall k hk
    · rwa [List.mem_singleton.mp hk]
  · refine ⟨⟨f, by simp, rfl⟩, fun k hk => ?_⟩
    rcases List.mem_append.mp hk with hk | hk
    · exact hle.trans (hall k hk)
    · rw [List.mem_singleton.mp hk]

theorem IsLeastWait.foldl {wait : InFlight → U32} {fs : List InFlight} {w : U32} (h : IsLeastWait wait fs w)
    (gs : List InFlight) : IsLeastWait wait (fs ++ gs) (gs.foldl (fun w g => leastOf w (wait g)) w) := by
  induction gs generalizing fs w with
  | nil => simpa using h
  | cons g gs ih => simpa using ih (h.concat g)

/-- The fold of R194 finds the least wait. -/
theorem serviceInterval_isLeastWait {now : U32} {s : State} (h : s.dl.inflight ≠ []) :
    IsLeastWait (waitFor s.cfg.txTimeoutMs now) s.dl.inflight (serviceInterval now s) := by
  unfold serviceInterval
  split
  · next hnil => exact absurd hnil h
  · next f rest hcons =>
    have hfirst : IsLeastWait (waitFor s.cfg.txTimeoutMs now) [f] (waitFor s.cfg.txTimeoutMs now f) := by
      simp [IsLeastWait]
    rw [hcons]
    exact hfirst.foldl rest

/-- The wait by arithmetic on the numbers (R194; log 15). -/
theorem waitFor_eq (timeout now : U32) (f : InFlight) :
    waitFor timeout now f =
      if (now - f.tSent).toNat > timeout.toNat then 0
      else BitVec.ofNat 32 (timeout.toNat - (now - f.tSent).toNat + 1) := by
  unfold waitFor elapsed
  generalize now - f.tSent = e
  by_cases h : e.toNat > timeout.toNat
  · rw [if_pos h, if_pos (show e > timeout from h)]
  · rw [if_neg h, if_neg (show ¬ e > timeout from h)]
    bv_omega

/-- Settles O32: the interval is the fold's, and each wait is R194's. -/
theorem serviceIntervalIsLeastWait : Obligations.ServiceIntervalIsLeastWait := by
  intro now s
  refine ⟨serviceInterval now s, rfl, fun hnil => ?_, fun hne => ?_⟩
  · rw [serviceInterval, hnil]
  · have hleast := serviceInterval_isLeastWait (now := now) hne
    simp only [IsLeastWait, waitFor_eq] at hleast
    exact hleast

/-! ### Due and not yet due -/

theorem isDue_iff (timeout now : U32) (f : InFlight) :
    isDue timeout now f = true ↔ timeout.toNat < (now - f.tSent).toNat := decide_eq_true_iff

/-- The elapsed time d later, mod 2^32 (R180). -/
theorem toNat_elapsed_add (now d t : U32) : (now + d - t).toNat = ((now - t).toNat + d.toNat) % 2 ^ 32 := by
  bv_omega

/-- The wait as a number, where it fits 32 bits: nothing once the entry is due, else one more than the time left. -/
theorem toNat_waitFor {timeout : U32} (ht : timeout.toNat < 2 ^ 32 - 1) (now : U32) (f : InFlight) :
    (waitFor timeout now f).toNat = timeout.toNat + 1 - (now - f.tSent).toNat := by
  rw [waitFor_eq]
  generalize now - f.tSent = e
  split
  · rw [Nat.sub_eq_zero_of_le (by omega)]
    rfl
  · rw [BitVec.toNat_ofNat]
    omega

/-- Sooner than its wait, an entry is not due (R192, R194). -/
theorem isDue_eq_false_of_lt_waitFor {timeout now d : U32} {f : InFlight} (ht : timeout.toNat < 2 ^ 32 - 1)
    (hd : d.toNat < (waitFor timeout now f).toNat) : isDue timeout (now + d) f = false := by
  rw [toNat_waitFor ht] at hd
  rw [← Bool.not_eq_true, isDue_iff, toNat_elapsed_add]
  omega

/-- When its wait has passed, an entry is due (R192, R194). -/
theorem isDue_add_waitFor {timeout : U32} (ht : timeout.toNat < 2 ^ 32 - 1) (now : U32) (f : InFlight) :
    isDue timeout (now + waitFor timeout now f) f = true := by
  have hlt := (now - f.tSent).isLt
  rw [isDue_iff, toNat_elapsed_add, toNat_waitFor ht]
  omega

/-- What DL_PROCESS puts and stamps, whatever the retry check finds (R191 to R193). -/
theorem exec_dlProcess (now : U32) (s : State) :
    let due := isDue s.cfg.txTimeoutMs now
    ∃ t, exec (.dlProcess now) s = .next t ∧
      t.txOut = s.txOut ++ (s.dl.inflight.filter due).flatMap InFlight.frame ∧
      t.dl.inflight = s.dl.inflight.map (fun f => if due f then f.resent now else f) ∧
      t.dl.txRetransmissions = s.dl.txRetransmissions + BitVec.ofNat 32 (s.dl.inflight.filter due).length := by
  obtain ⟨hdl, hout, -⟩ := retryCheck_keeps (retransmitWhere (isDue s.cfg.txTimeoutMs now) now (s.beginAt now))
  refine ⟨retryCheck (retransmitWhere (isDue s.cfg.txTimeoutMs now) now (s.beginAt now)), rfl, ?_⟩
  rw [hout, hdl, retransmitWhere_eq]
  exact ⟨rfl, rfl, rfl⟩

/-- Settles O33: sooner than the least wait no entry is due, and after it the entry that waits least is. -/
theorem serviceIntervalIsExact : Obligations.ServiceIntervalIsExact := by
  intro now w s s' ht hne hexec hret
  obtain rfl : serviceInterval now s = w := by
    cases hexec
    exact Ret.millis.inj hret
  obtain ⟨⟨f, hf, hw⟩, hall⟩ := serviceInterval_isLeastWait (now := now) hne
  refine ⟨fun d hd => ?sooner, ?passed⟩
  case sooner =>
    have hnone (g : InFlight) (hg : g ∈ s.dl.inflight) : isDue s.cfg.txTimeoutMs (now + d) g = false :=
      isDue_eq_false_of_lt_waitFor ht (hd.trans_le (hall g hg))
    obtain ⟨t, ht, hout, hlist, hcount⟩ := exec_dlProcess (now + d) s
    have hfilter : s.dl.inflight.filter (isDue s.cfg.txTimeoutMs (now + d)) = [] :=
      List.filter_eq_nil_iff.mpr fun g hg => by simp [hnone g hg]
    have hmap : s.dl.inflight.map (fun g => if isDue s.cfg.txTimeoutMs (now + d) g then g.resent (now + d) else g) =
        s.dl.inflight := (List.map_congr_left (g := id) fun g hg => by simp [hnone g hg]).trans (List.map_id _)
    rw [hfilter] at hout hcount
    exact ⟨t, ht, by simpa using hout, hlist.trans hmap, by simpa using hcount⟩
  case passed =>
    obtain ⟨t, hproc, -, -, hcount⟩ := exec_dlProcess (now + serviceInterval now s) s
    have hdue : isDue s.cfg.txTimeoutMs (now + serviceInterval now s) f = true := by
      rw [hw]
      exact isDue_add_waitFor ht now f
    exact ⟨t, _, hproc, List.length_pos_of_mem (List.mem_filter.mpr ⟨hf, hdue⟩), List.length_filter_le _ _, hcount⟩

end Sys2Proof.Machine
end

/-! ## What goes upward, in order (spec/43_data_link.md R183, R184, R190, R199) -/

section
namespace Sys2Proof.Machine

/-! ### What a handler passes upward -/

/-- Between s and t a DL has passed upward what FRX's events call for, DISCONNECTED apart, and its expected id has moved with
what it passed (R184, R190, R199). -/
def Delivers (events : List FrxEvent) (s t : State) : Prop :=
  ∃ items, t.dlUp = s.dlUp ++ items ∧
    items.filter (fun x => x != .event .disconnected) = deliveries s.dl.rxFrameId events ∧
    t.dl.rxFrameId = idAfter s.dl.rxFrameId items

/-- DISCONNECTED moves no expected id. -/
theorem idAfter_filter (items : List DlUpItem) (id : Fid) :
    idAfter id (items.filter fun x => x != .event .disconnected) = idAfter id items := by
  induction items generalizing id with
  | nil => rfl
  | cons x items ih => rcases x with _ | (_ | _ | _) <;> simp [idAfter, ih]

theorem Delivers.trans {xs ys : List FrxEvent} {s t u : State} (h : Delivers xs s t) (k : Delivers ys t u) :
    Delivers (xs ++ ys) s u := by
  obtain ⟨items, hup, hpassed, hid⟩ := h
  obtain ⟨items', hup', hpassed', hid'⟩ := k
  refine ⟨items ++ items', by rw [hup', hup, List.append_assoc], ?_, by rw [hid', hid, idAfter_append]⟩
  rw [List.filter_append, hpassed', hid, deliveries_append, ← hpassed, idAfter_filter]

/-- Nothing passed upward, for no events. -/
theorem Delivers.nothing {s t : State} (hup : t.dlUp = s.dlUp := by rfl)
    (hid : t.dl.rxFrameId = s.dl.rxFrameId := by rfl) : Delivers [] s t :=
  ⟨[], by rw [hup, List.append_nil], rfl, hid⟩

/-- Events that call for nothing may be left out. -/
theorem Delivers.of_nil {events : List FrxEvent} {s t : State} (h : Delivers [] s t)
    (he : deliveries s.dl.rxFrameId events = [] := by rfl) : Delivers events s t := by
  unfold Delivers
  rw [he]
  exact h

/-- What passes from t on passes from s on, where t has the items and the expected id of s. -/
theorem Delivers.of_start {events : List FrxEvent} {s t u : State} (h : Delivers events t u)
    (hup : t.dlUp = s.dlUp := by rfl) (hid : t.dl.rxFrameId = s.dl.rxFrameId := by rfl) : Delivers events s u := by
  unfold Delivers at h ⊢
  rwa [← hup, ← hid]

/-- A frame that is not the expected one passes nothing (R184). -/
theorem onFrame_delivers_of_unexpected {fid : U16} {s : State} (h : fid.toNat ≠ s.dl.rxFrameId.toNat) (m : U24)
    (pl : List Byte) : Delivers [] s (onFrame fid m pl s) := by
  rw [onFrame_of_unexpected h]
  exact .nothing

section
variable {s : State} (hm : s.mode = .unit .dl)
include hm

/-- A DL in unit mode passes an event on DL_UP (R272). -/
theorem upwardEvent_of_dl (ev : LinkEvent) : upwardEvent ev s = emitUp (.event ev) s := if_pos hm

/-- A DL in unit mode delivers on DL_UP (R272). -/
theorem upwardRecv_of_dl (m : U24) (pl : List Byte) : upwardRecv m pl s = emitUp (.recv m pl) s := if_pos hm

theorem retryCheck_delivers : Delivers [] s (retryCheck s) := by
  obtain h | ⟨-, -, h⟩ := retryCheck_cases s <;> rw [h]
  · exact .nothing
  · rw [upwardEvent_of_dl (s := { s with dl := { s.dl with discReported := true } }) hm]
    exact ⟨[.event .disconnected], rfl, rfl, rfl⟩

theorem goBack_delivers (now : U32) (fid : U16) : Delivers [] s (goBack now fid s) := by
  rw [goBack_eq]
  exact .of_start (retryCheck_delivers (s := { s with txOut := _, dl := _ }) hm)

theorem processTimeouts_delivers (now : U32) : Delivers [] s (processTimeouts now s) := by
  rw [processTimeouts, retransmitWhere_eq]
  exact .of_start (retryCheck_delivers (s := { s with txOut := _, dl := _ }) hm)

/-- A link reset passes RESET, and expects 0 after it (R190, R196). -/
theorem linkReset_delivers (send : Bool) (x : Fid) : Delivers [.link .reset x] s (linkReset send s) := by
  have hreset (u : State) (hu : u.mode = .unit .dl) (hup : u.dlUp = s.dlUp) (hid : u.dl.rxFrameId = 0) :
      Delivers [.link .reset x] s (upwardEvent .reset u) := by
    rw [upwardEvent_of_dl hu]
    exact ⟨[.event .reset], by rw [emitUp_dlUp, hup], rfl, hid⟩
  unfold linkReset
  cases send with
  | false => exact hreset _ hm rfl rfl
  | true => exact hreset _ hm rfl rfl

/-- Of the link frames only RESET passes anything but DISCONNECTED. -/
theorem onLink_delivers (now : U32) (t : LinkType) (fid : U16) (x : Fid) :
    Delivers [.link t x] s (onLink now t fid s) := by
  cases t with
  | ackAll | ackOne => exact Delivers.of_nil .nothing
  | nackFrameId | nackFramingError => exact (goBack_delivers hm now fid).of_nil
  | reset => exact linkReset_delivers hm false x

/-- The expected frame is delivered, and the next id expected (R184). -/
theorem onFrame_delivers_of_expected {fid : U16} (h : fid.toNat = s.dl.rxFrameId.toNat) (m : U24) (pl : List Byte) :
    Delivers [.frame s.dl.rxFrameId m pl] s (onFrame fid m pl s) := by
  have hup := upwardRecv_of_dl (s := { s with dl := { s.dl with rxDataFrames := s.dl.rxDataFrames + 1 } }) hm m pl
  simp only [onFrame_of_expected h, hup]
  exact ⟨[.recv m pl], rfl, by simp [deliveries], rfl⟩

theorem onFrame_delivers (fid : U16) (m : U24) (pl : List Byte) : ∃ events, Delivers events s (onFrame fid m pl s) := by
  by_cases h : fid.toNat = s.dl.rxFrameId.toNat
  · exact ⟨_, onFrame_delivers_of_expected hm h m pl⟩
  · exact ⟨_, onFrame_delivers_of_unexpected h m pl⟩

/-- Each of FRX's events passes upward what it calls for (R183). -/
theorem onFrxEvent_delivers (now : U32) (e : FrxEvent) : Delivers [e] s (onFrxEvent now e s) := by
  cases e with
  | framingError => exact Delivers.of_nil .nothing
  | link t fid => exact onLink_delivers hm now t _ fid
  | frame fid m pl =>
    by_cases h : fid = s.dl.rxFrameId
    · rw [h]
      exact onFrame_delivers_of_expected hm (toNat_setWidth_fid _) m pl
    · have hne : (fid.setWidth 16).toNat ≠ s.dl.rxFrameId.toNat := by
        rw [toNat_setWidth_fid]
        exact fun heq => h (BitVec.eq_of_toNat_eq heq)
      exact (onFrame_delivers_of_unexpected hne m pl).of_nil (by simp [deliveries, h])

theorem deliverFrx_delivers (now : U32) (e : Option FrxEvent) : Delivers e.toList s (deliverFrx (.dl now) e s) := by
  cases e with
  | none => exact .nothing
  | some e => exact onFrxEvent_delivers hm now e

end

/-! ### FRX's counters decide nothing (R28) -/

/-- Two FRX alike but for the two counters. -/
def Frx.Alike (f g : Frx) : Prop := g = { f with crcErrors := g.crcErrors, resync := g.resync }

theorem Frx.Alike.refl (f : Frx) : f.Alike f := rfl

theorem Frx.Alike.symm {f g : Frx} (h : f.Alike g) : g.Alike f := by
  unfold Frx.Alike at h ⊢
  rw [h]

theorem Frx.Alike.trans {f g k : Frx} (h : f.Alike g) (h' : g.Alike k) : f.Alike k := by
  unfold Frx.Alike at h h' ⊢
  rw [h', h]

/-- Two steps with the same event and replay, to FRX that are alike. -/
structure FrxStep.Alike (p q : FrxStep) : Prop where
  frx : p.frx.Alike q.frx
  event : q.event = p.event
  replay : q.replay = p.replay

theorem desyncStep_alike {f g : Frx} (h : f.Alike g) : (desyncStep f).Alike (desyncStep g) := by
  unfold Frx.Alike at h
  rw [h]
  unfold desyncStep desync
  split <;> exact ⟨rfl, rfl, rfl⟩

theorem checkLink_alike (t : LinkType) {f g : Frx} (h : f.Alike g) : (checkLink t f).Alike (checkLink t g) := by
  unfold Frx.Alike at h
  rw [h]
  unfold checkLink
  split <;> exact ⟨rfl, rfl, rfl⟩

theorem checkData_alike {f g : Frx} (h : f.Alike g) : (checkData f).Alike (checkData g) := by
  unfold Frx.Alike at h
  rw [h]
  simp only [checkData]
  split <;> exact ⟨rfl, rfl, rfl⟩

/-- One step of FRX does not read the counters. -/
theorem frxStep_alike (sof b : Byte) {f g : Frx} (h : f.Alike g) : (frxStep sof b f).Alike (frxStep sof b g) := by
  unfold Frx.Alike at h
  rw [h]
  obtain ⟨rxState, buf, expected, syncState, crcErrors, resync⟩ := f
  unfold frxStep
  cases rxState with
  | searchSof =>
    simp only [stepSearchSof]
    split
    · exact ⟨rfl, rfl, rfl⟩
    · exact desyncStep_alike rfl
  | searchSof2 =>
    simp only [stepSearchSof2]
    split
    · exact ⟨rfl, rfl, rfl⟩
    · exact desyncStep_alike rfl
  | searchFrameType =>
    simp only [stepSearchFrameType]
    split
    · exact ⟨rfl, rfl, rfl⟩
    · split
      · exact desyncStep_alike rfl
      · exact ⟨rfl, rfl, rfl⟩
      · exact ⟨rfl, rfl, rfl⟩
  | storeHeader =>
    simp only [stepStoreHeader]
    split
    · exact ⟨rfl, rfl, rfl⟩
    · split
      · exact ⟨rfl, rfl, rfl⟩
      · exact checkLink_alike _ rfl
      · exact ⟨rfl, rfl, rfl⟩
  | storeRemainder =>
    simp only [stepStoreRemainder]
    split
    · exact ⟨rfl, rfl, rfl⟩
    · exact checkData_alike rfl

/-! ### A DL beside a stand-alone FRX -/

/-- s is a DL in unit mode, and r has an FRX like its own. -/
structure Beside (s r : State) : Prop where
  mode : s.mode = .unit .dl
  sof : r.cfg.sof = s.cfg.sof
  frx : s.frx.Alike r.frx

/-- Between s and t the DL has passed upward what the events that r's FRX put on FRX_OUT call for, and t still stands beside
what r has become. -/
def Follows (s r t r' : State) : Prop :=
  ∃ events, r'.frxOut = r.frxOut ++ events ∧ Delivers events s t ∧ Beside t r'

theorem Follows.refl {s r : State} (h : Beside s r) : Follows s r s r :=
  ⟨[], (List.append_nil _).symm, .nothing, h⟩

theorem Follows.beside {s r t r' : State} (h : Follows s r t r') : Beside t r' := by
  obtain ⟨-, -, -, hbeside⟩ := h
  exact hbeside

theorem Follows.trans {s r t r' u r'' : State} (h : Follows s r t r') (k : Follows t r' u r'') : Follows s r u r'' := by
  obtain ⟨xs, hxs, hst, -⟩ := h
  obtain ⟨ys, hys, htu, hbeside⟩ := k
  exact ⟨xs ++ ys, by rw [hys, hxs, List.append_assoc], hst.trans htu, hbeside⟩

/-- One step of the loop, its event delivered on either side (R130, R183). -/
theorem deliverFrx_follows {s r : State} (h : Beside s r) (now : U32) (x : Byte) :
    Follows s r
      (deliverFrx (.dl now) (frxStep s.cfg.sof x s.frx).event { s with frx := (frxStep s.cfg.sof x s.frx).frx })
      (deliverFrx .out (frxStep r.cfg.sof x r.frx).event { r with frx := (frxStep r.cfg.sof x r.frx).frx }) := by
  have hstep := frxStep_alike s.cfg.sof x h.frx
  rw [h.sof, hstep.event, deliverFrx_out_eq]
  generalize frxStep s.cfg.sof x s.frx = p at hstep ⊢
  have hreacts := deliverFrx_reacts (.dl now) p.event { s with frx := p.frx }
  have hdelivers : Delivers _ s _ := deliverFrx_delivers (s := { s with frx := p.frx }) h.mode now p.event
  refine ⟨_, rfl, hdelivers, hreacts.mode.trans h.mode, ?_, ?_⟩
  · rw [hreacts.cfg]
    exact h.sof
  · exact Frx.Alike.trans (Frx.Alike.symm hreacts.frx) hstep.frx

theorem frxLoop_follows (now : U32) (n : Nat) (q : List Byte) {s r : State} (h : Beside s r) :
    Follows s r (frxLoop (.dl now) n q s) (frxLoop .out n q r) := by
  induction n generalizing q s r with
  | zero => exact .refl h
  | succ n ih =>
    cases q with
    | nil => exact .refl h
    | cons x q =>
      have hfirst := deliverFrx_follows h now x
      have hreplay : (frxStep r.cfg.sof x r.frx).replay = (frxStep s.cfg.sof x s.frx).replay := by
        rw [h.sof, (frxStep_alike s.cfg.sof x h.frx).replay]
      have hrest := ih ((frxStep s.cfg.sof x s.frx).replay ++ q) hfirst.beside
      simp only [frxLoop, hreplay]
      exact hfirst.trans hrest

theorem frxRun_follows (now : U32) (q : List Byte) {s r : State} (h : Beside s r) :
    Follows s r (frxRun (.dl now) q s) (frxRun .out q r) := by
  have hlen : r.frx.len = s.frx.len := by rw [h.frx]
  unfold frxRun
  rw [hlen]
  exact frxLoop_follows now _ q h

/-- DL_LL_RECV's loop beside FRX_FEED of the same bytes (R183). -/
theorem recvBytes_follows (now : U32) (bytes : List Byte) {s r : State} (h : Beside s r) :
    Follows s r (recvBytes now bytes s) (feedBytes bytes r) := by
  unfold recvBytes feedBytes
  induction bytes generalizing s r with
  | nil => exact .refl h
  | cons b bs ih =>
    have hfirst : Follows s r (recvByte now s b) (frxByte .out b r) :=
      frxRun_follows now [b] (s := { s with dl := { s.dl with rxBytes := s.dl.rxBytes + 1 } }) ⟨h.mode, h.sof, h.frx⟩
    exact hfirst.trans (ih hfirst.beside)

/-- Bytes received by a DL in unit mode pass upward what some events call for. -/
theorem recvBytes_delivers {s : State} (hm : s.mode = .unit .dl) (now : U32) (bytes : List Byte) :
    ∃ events, Delivers events s (recvBytes now bytes s) := by
  obtain ⟨events, -, h, -⟩ := recvBytes_follows now bytes (r := s) ⟨hm, rfl, rfl⟩
  exact ⟨events, h⟩

/-! ### Whatever instruction runs -/

/-- TP's and SEQ's commands pass nothing on DL_UP (R272). -/
theorem exec_delivers_of_servesPorts {i : Instr} {s t : State} (hi : servesPorts i = true) (h : exec i s = .next t) :
    Delivers [] s t := by
  cases i with
  | tpOnRecv m pl =>
    cases h
    obtain ⟨q, items, ht⟩ := tpOnRecv_eq m pl s.begin
    rw [ht]
    exact .nothing
  | tpOnEvent b =>
    simp only [exec, execTpOnEvent] at h
    split at h
    · next ev _ =>
      cases h
      obtain ⟨q, items, ht⟩ := tpOnEvent_eq ev s.begin
      rw [ht]
      exact .nothing
    · cases h
  | tpPortRegister b handle =>
    simp only [exec, execTpPortRegister] at h
    split at h
    · cases h
      exact .nothing
    · next p _ =>
      split at h
      · cases h
        exact .nothing
      · cases h
        obtain ⟨q, ht⟩ := registerPort_eq p handle s.begin
        rw [ht]
        exact .nothing
  | seqPush b sq pd pl =>
    simp only [exec, execSeqPush] at h
    split at h
    · cases h
    · split at h
      · split at h
        · cases h
        · cases h
        · cases h
          rw [seqPush_eq]
          exact .nothing
      · cases h
  | seqReset b =>
    simp only [exec, execSeqReset] at h
    split at h
    · cases h
      exact .nothing
    · cases h
      rw [seqReset_eq]
      exact .nothing
  | _ => cases hi

theorem dlSend_delivers (now : U32) (m : U24) (pl : List Byte) (s : State) : Delivers [] s (dlSend now m pl s) := by
  obtain ⟨-, h⟩ | ⟨-, h⟩ := dlSend_cases now m pl s <;> rw [h]
  · exact .nothing
  · rw [sendFrame_eq]
    exact .nothing

theorem answerFrame_delivers (bytes : Option (List Byte)) (s : State) : Delivers [] s (answerFrame bytes s.begin) := by
  cases bytes <;> exact .nothing

/-- Every instruction passes upward what some events call for, and moves the expected id with it. -/
theorem exec_delivers {i : Instr} {s t : State} (hm : s.mode = .unit .dl) (h : exec i s = .next t) :
    ∃ events, Delivers events s t := by
  have hfrx : s.mode ≠ .unit .frx := by simp [hm]
  cases i with
  | tpPortRegister | tpOnRecv | tpOnEvent | seqPush | seqReset => exact ⟨_, exec_delivers_of_servesPorts rfl h⟩
  | frxReset | fidSub | fidInc | dlServiceInterval | dlStatus | dlOnFramingError =>
    cases h
    exact ⟨[], .nothing⟩
  | ftxData | ftxLink =>
    cases h
    exact ⟨_, answerFrame_delivers _ s⟩
  | wireData | wireAckAll | wireAckOne | wireNackFrameId | wireNackFramingError | wireReset =>
    rw [exec_of_isWire rfl] at h
    cases h
    rw [receiveFrame, receiveWire, if_neg (show s.begin.mode ≠ .unit .frx from hfrx)]
    exact recvBytes_delivers (s := s.begin) hm _ _
  | frxByte b =>
    cases h
    rw [frxSink, if_neg hfrx]
    obtain ⟨events, -, h, -⟩ := frxRun_follows s.now [b] (s := s.begin) (r := s.begin) ⟨hm, rfl, rfl⟩
    exact ⟨events, h⟩
  | dlLlRecv now bytes =>
    cases h
    exact recvBytes_delivers (s := s.beginAt now) hm now bytes
  | dlSend now m pl =>
    cases h
    exact ⟨_, dlSend_delivers now m pl (s.beginAt now)⟩
  | tpSend now p sq pd pl =>
    simp only [exec, execTpSend] at h
    split at h
    · cases h
      exact ⟨_, dlSend_delivers now _ pl (s.beginAt now)⟩
    · cases h
      exact ⟨[], .nothing⟩
  | dlProcess now =>
    cases h
    exact ⟨_, processTimeouts_delivers (s := s.beginAt now) hm now⟩
  | dlReset now =>
    cases h
    exact ⟨_, linkReset_delivers (s := s.beginAt now) hm true 0⟩
  | dlOnFrame now fid m pl =>
    cases h
    exact onFrame_delivers (s := s.beginAt now) hm fid m pl
  | dlOnLink now type fid =>
    simp only [exec, execDlOnLink] at h
    split at h
    · next lt _ =>
      cases h
      exact ⟨_, onLink_delivers (s := s.beginAt now) hm now lt fid 0⟩
    · cases h

/-- Settles O50: byte by byte the DL follows the stand-alone FRX, and every instruction moves the id with what it passes. -/
theorem inOrderDelivery : Obligations.InOrderDelivery := by
  refine ⟨fun now bytes s r hs hr hfrx hsof => ?received, fun i s t hs h => ?moved⟩
  case received =>
    have halike : s.frx.Alike r.frx := by
      rw [hfrx]
      exact .refl s.frx
    have hbeside : Beside (s.beginAt now) r.begin := ⟨hs, hsof, halike⟩
    obtain ⟨events, hout, ⟨items, hup, hpassed, -⟩, -⟩ := recvBytes_follows now bytes hbeside
    by_cases hbytes : bytes = []
    · subst hbytes
      exact ⟨_, r, items, events, rfl, hup, rfl, hout, hpassed⟩
    · exact ⟨_, _, items, events, rfl, hup, execAll_frxBytes_of_ne_nil hr hbytes, hout, hpassed⟩
  case moved =>
    obtain ⟨events, items, hup, -, hid⟩ := exec_delivers hs h
    exact ⟨items, hup, hid⟩

end Sys2Proof.Machine
end

/-! ## A frame, its delivery and its acknowledgement (spec/43_data_link.md R182, R184, R186, spec/44_transport.md R231) -/

section
namespace Sys2Proof.Machine

/-! ### The transport metadata by arithmetic (R89) -/

theorem metadataPort_eq (m : U24) : metadataPort m = BitVec.ofNat 6 (m.toNat % 64) := by
  apply BitVec.eq_of_toNat_eq
  simp [metadataPort]

theorem metadataPortData_eq (m : U24) : metadataPortData m = BitVec.ofNat 16 (m.toNat / 256) := by
  apply BitVec.eq_of_toNat_eq
  simp [metadataPortData, Nat.shiftRight_eq_div_pow]

theorem metadataSeq_eq {m : U24} {tag : SeqTag} (h : (seqTagCode tag).toNat = m.toNat / 64 % 4) : metadataSeq m = tag := by
  have hcode : m.extractLsb' 6 2 = seqTagCode tag := by
    apply BitVec.eq_of_toNat_eq
    simp [h, Nat.shiftRight_eq_div_pow]
  rw [metadataSeq, hcode, seqTagOfCode_seqTagCode]

/-! ### TP's delivery (R231) -/

/-- A delivery to a port that is not registered is dropped. -/
theorem tpOnRecv_of_empty {m : U24} {s : State} (h : s.port (metadataPort m) = .empty) (pl : List Byte) :
    tpOnRecv m pl s = s := by
  simp only [tpOnRecv, h]

/-- A delivery to a registered port is one PORT_RECV and at most messages of that port's sequencer. -/
theorem tpOnRecv_portOut_of_reg {m : U24} {s : State} {handle : U32} (h : s.port (metadataPort m) = .reg handle)
    (pl : List Byte) : ∃ msgs,
      (tpOnRecv m pl s).portOut = s.portOut ++
        .recv (metadataPort m) handle (metadataSeq m) (metadataPortData m) pl :: msgs ∧
      (∀ x ∈ msgs, ∃ pd msg, x = .msg (metadataPort m) handle pd msg) ∧
      (s.reasmEnabled (metadataPort m) = false → msgs = []) := by
  simp only [tpOnRecv, h]
  split
  · next he =>
    rw [seqPush_eq]
    simp only [emitPort_portOut, List.append_assoc, List.singleton_append]
    refine ⟨_, rfl, fun x hx => ?_, fun hn => ?_⟩
    · obtain ⟨msg, -, rfl⟩ := Option.map_eq_some_iff.mp (Option.mem_toList.mp hx)
      exact ⟨_, _, rfl⟩
    · replace he : s.reasmEnabled (metadataPort m) = true := he
      simp [hn] at he
  · exact ⟨[], rfl, nofun, fun _ => rfl⟩

/-! ### Whole frames in DL_LL_RECV -/

/-- DL_LL_RECV of a DATA frame while FRX searches runs DL_ON_FRAME (R128, R183). -/
theorem exec_dlLlRecv_dataFrame {s : State} (hwf : s.cfg.wf = true) (hs : s.frx.Searching) (now : U32) (fid : Fid) (m : U24)
    {pl : List Byte} (h1 : 1 ≤ pl.length) (h256 : pl.length ≤ maxPayload) :
    exec (.dlLlRecv now (dataFrame s.cfg.sof 0 fid m pl)) s = .next (onFrame (fid.setWidth 16) m pl
      { s.beginAt now with
        frx := s.frx.afterData pl.length
        dl := { s.dl with rxBytes := s.dl.rxBytes + BitVec.ofNat 32 (frameOverhead + pl.length) } }) := by
  obtain ⟨front, last, g, hbytes, hquiet, hlast⟩ :=
    dataFrame_received s.cfg.sof 0 0 fid m pl s.frx hs (kind_sof_of_wf hwf) h1 h256
  replace hbytes : dataFrame s.cfg.sof 0 fid m pl = front ++ [last] := hbytes
  show Host.Outcome.next (recvBytes now _ (s.beginAt now)) = _
  rw [recvBytes_frame (s := s.beginAt now) now hbytes hquiet hlast, dataFrame_length]
  rfl

/-- DL_LL_RECV of a link frame while FRX searches runs DL_ON_LINK (R127, R183). -/
theorem exec_dlLlRecv_linkFrame {s : State} (hwf : s.cfg.wf = true) (hs : s.frx.Searching) (now : U32) (t : LinkType)
    (fid : Fid) :
    exec (.dlLlRecv now (linkFrame s.cfg.sof 0 t fid)) s = .next (onLink now t (fid.setWidth 16)
      { s.beginAt now with frx := s.frx.afterLink, dl := { s.dl with rxBytes := s.dl.rxBytes + 8 } }) := by
  obtain ⟨front, last, g, hbytes, hquiet, hlast⟩ := linkFrame_received s.cfg.sof 0 0 t fid s.frx hs (kind_sof_of_wf hwf)
  replace hbytes : linkFrame s.cfg.sof 0 t fid = front ++ [last] := hbytes
  show Host.Outcome.next (recvBytes now _ (s.beginAt now)) = _
  rw [recvBytes_frame (s := s.beginAt now) now hbytes hquiet hlast]
  rfl

/-! ### The exchange -/

/-- A frame that fits is sent where nothing is in flight, and is then the only one in flight (R182): a legal window holds at
least one (R6). -/
theorem exec_dlSend_of_idle {s : State} (hwf : s.cfg.wf = true) (hidle : s.dl.inflight = []) (now : U32) (m : U24)
    {pl : List Byte} (h1 : 1 ≤ pl.length) (h256 : pl.length ≤ maxPayload)
    (hfit : frameOverhead + pl.length ≤ s.cfg.txBufferSize.toNat) :
    ∃ t f, exec (.dlSend now m pl) s = .next t ∧ t.ret = .result .ok ∧
      t.txOut = s.txOut ++ dataFrame s.cfg.sof 0 s.dl.txFrameId m pl ∧ t.cfg = s.cfg ∧ t.frx = s.frx ∧
      t.dl.inflight = [f] ∧ f.fid = s.dl.txFrameId ∧ t.dl.txDataFrames = s.dl.txDataFrames ∧
      t.dl.txRetransmissions = s.dl.txRetransmissions := by
  have hwindow : 1 ≤ s.cfg.txWindowSize.toNat := by
    simp only [Config.wf, Bool.and_eq_true, decide_eq_true_eq] at hwf
    omega
  have hcheck : sendCheck pl (s.beginAt now) = .ok := by
    simpa [sendCheck_ok_iff, hidle, bufferedBytes] using ⟨h1, h256, hwindow, hfit⟩
  have hexec : exec (.dlSend now m pl) s = .next ((sendFrame now m pl (s.beginAt now)).answer (.result .ok)) := by
    show Host.Outcome.next (dlSend now m pl (s.beginAt now)) = _
    rw [dlSend, hcheck]
  rw [sendFrame_eq] at hexec
  exact ⟨_, _, hexec, rfl, rfl, rfl, rfl, congrArg (· ++ [_]) hidle, rfl, rfl, rfl⟩

/-- Between s and t the frame's payload has gone upward once: on DL_UP in unit mode of DL; otherwise through TP, to the port's
handle and before what the port's sequencer makes of it, or nowhere where the port is not registered (R231, R272). -/
def DeliveredOnce (m : U24) (pl : List Byte) (s t : State) : Prop :=
  (s.mode = .unit .dl → t.dlUp = s.dlUp ++ [.recv m pl] ∧ t.portOut = s.portOut) ∧
  (s.mode ≠ .unit .dl → t.dlUp = s.dlUp ∧
    let p : PortId := BitVec.ofNat 6 (m.toNat % 64)
    (s.port p = .empty → t.portOut = s.portOut) ∧
    (∀ h tag, s.port p = .reg h → (seqTagCode tag).toNat = m.toNat / 64 % 4 → ∃ msgs,
      t.portOut = s.portOut ++ .recv p h tag (BitVec.ofNat 16 (m.toNat / 256)) pl :: msgs ∧
      (∀ x ∈ msgs, ∃ pd msg, x = .msg p h pd msg) ∧ (s.reasmEnabled p = false → msgs = [])))

theorem upwardRecv_deliveredOnce (m : U24) (pl : List Byte) (s : State) : DeliveredOnce m pl s (upwardRecv m pl s) := by
  unfold upwardRecv
  split
  · next hm => exact ⟨fun _ => ⟨rfl, rfl⟩, fun hn => absurd hm hn⟩
  · next hm =>
    refine ⟨fun hm' => absurd hm' hm, fun _ => ⟨?_, fun hempty => ?_, fun handle tag hreg htag => ?_⟩⟩
    · obtain ⟨q, items, h⟩ := tpOnRecv_eq m pl s
      rw [h]
    · rw [tpOnRecv_of_empty (by rwa [metadataPort_eq])]
    · rw [← metadataPort_eq] at hreg ⊢
      rw [← metadataPortData_eq, ← metadataSeq_eq htag]
      exact tpOnRecv_portOut_of_reg hreg pl

/-- The expected frame is delivered once, the next one expected, and this one acknowledged (R184). -/
theorem onFrame_accepts {fid : U16} {s : State} (h : fid.toNat = s.dl.rxFrameId.toNat) (m : U24) (pl : List Byte) :
    DeliveredOnce m pl s (onFrame fid m pl s) ∧ (onFrame fid m pl s).dl.rxFrameId = s.dl.rxFrameId + 1 ∧
      (onFrame fid m pl s).txOut = s.txOut ++ linkFrame s.cfg.sof 0 .ackAll s.dl.rxFrameId := by
  have hup := upwardRecv_deliveredOnce m pl { s with dl := { s.dl with rxDataFrames := s.dl.rxDataFrames + 1 } }
  obtain ⟨hreacts, -, hout⟩ := upwardRecv_reacts m pl { s with dl := { s.dl with rxDataFrames := s.dl.rxDataFrames + 1 } }
  rw [onFrame_of_expected h]
  refine ⟨hup, rfl, ?_⟩
  simp only [sendLink, txPut_txOut, hout, hreacts.cfg]

/-- The expected frame, received whole while FRX searches. -/
theorem exec_dlLlRecv_accepts {s : State} (hwf : s.cfg.wf = true) (hs : s.frx.Searching) (now : U32) (m : U24)
    {pl : List Byte} (h1 : 1 ≤ pl.length) (h256 : pl.length ≤ maxPayload) :
    ∃ t, exec (.dlLlRecv now (dataFrame s.cfg.sof 0 s.dl.rxFrameId m pl)) s = .next t ∧ DeliveredOnce m pl s t ∧
      t.dl.rxFrameId = s.dl.rxFrameId + 1 ∧ t.txOut = s.txOut ++ linkFrame s.cfg.sof 0 .ackAll s.dl.rxFrameId := by
  have haccepts := onFrame_accepts (s := { s.beginAt now with
      frx := s.frx.afterData pl.length
      dl := { s.dl with rxBytes := s.dl.rxBytes + BitVec.ofNat 32 (frameOverhead + pl.length) } })
    (toNat_setWidth_fid s.dl.rxFrameId) m pl
  exact ⟨_, exec_dlLlRecv_dataFrame hwf hs now s.dl.rxFrameId m h1 h256, haccepts⟩

/-- ACK_ALL of the only frame in flight, received whole while FRX searches, empties the list and counts one frame (R186,
R198). -/
theorem exec_dlLlRecv_acknowledges {s : State} (hwf : s.cfg.wf = true) (hs : s.frx.Searching) (now : U32) {f : InFlight}
    (hf : s.dl.inflight = [f]) :
    ∃ t, exec (.dlLlRecv now (linkFrame s.cfg.sof 0 .ackAll f.fid)) s = .next t ∧ t.dl.inflight = [] ∧
      t.dl.txDataFrames = s.dl.txDataFrames + 1 ∧ t.dl.txRetransmissions = s.dl.txRetransmissions := by
  refine ⟨_, exec_dlLlRecv_linkFrame hwf hs now .ackAll f.fid, ?_⟩
  have hzero : fidSub f.fid.toNat f.fid.toNat = 0 := by simp [fidSub]
  simp [onLink, onAckAll, ackRemove_eq, hf, toNat_setWidth_fid, hzero, -BitVec.toNat_setWidth]

/-- Settles O56: A's frame is received whole by B, and B's acknowledgement whole by A. -/
theorem oneFrameExchanged : Obligations.OneFrameExchanged := by
  intro a b now nowB nowA m pl hwfa hwfb hsof hsa hsb hid hidle htxa htxb h1 h256 hfit
  obtain ⟨a1, f, hsend, hret, hframe, hcfg, hfrx, hflight, hfid, hacked, hresent⟩ :=
    exec_dlSend_of_idle hwfa hidle now m h1 h256 hfit
  obtain ⟨b1, hrecv, ⟨hunit, hother⟩, hnext, hack⟩ := exec_dlLlRecv_accepts hwfb hsb nowB m h1 h256
  rw [← hcfg] at hwfa
  rw [← hfrx] at hsa
  obtain ⟨a2, hdone, hempty, hcount, hsame⟩ := exec_dlLlRecv_acknowledges hwfa hsa nowA hflight
  have hframe' : a1.txOut = dataFrame b.cfg.sof 0 b.dl.rxFrameId m pl := by
    rw [hframe, htxa, hsof, hid, List.nil_append]
  have hack' : b1.txOut = linkFrame a1.cfg.sof 0 .ackAll f.fid := by
    rw [hack, htxb, hsof, hid, hcfg, hfid, List.nil_append]
  rw [← hframe'] at hrecv
  rw [← hack'] at hdone
  exact ⟨a1, b1, a2, hsend, hret, hrecv, hdone, hnext, hunit, hother, hempty, by rw [hcount, hacked], by rw [hsame, hresent]⟩

end Sys2Proof.Machine
end

/-! ## The transport's commands (spec/44_transport.md R230 to R233) -/

section
namespace Sys2Proof.Machine

/-! ### TP_SEND (R230) -/

/-- The packed metadata by arithmetic (R89). -/
theorem packMetadata_toNat (p : PortId) (tag : SeqTag) (pd : U16) :
    (packMetadata p tag pd).toNat = p.toNat + 64 * (seqTagCode tag).toNat + 256 * pd.toNat := by
  have hport := p.isLt
  have hcode := (seqTagCode tag).isLt
  simp only [packMetadata, BitVec.toNat_append]
  rw [← Nat.shiftLeft_add_eq_or_of_lt hcode, ← Nat.shiftLeft_add_eq_or_of_lt hport, Nat.shiftLeft_eq, Nat.shiftLeft_eq]
  omega

/-- A port operand of at most 63 names the port of its number (R93). -/
theorem portOfByte_of_le {b : Byte} (h : b.toNat ≤ 63) : ∃ p, portOfByte b = some p ∧ p.toNat = b.toNat := by
  refine ⟨b.setWidth 6, if_pos h, ?_⟩
  rw [BitVec.toNat_setWidth]
  omega

/-- A seq operand of at most 3 names the segment tag of its code (R89, R93). -/
theorem seqTagOfByte_of_le {b : Byte} (h : b.toNat ≤ 3) :
    ∃ tag, seqTagOfByte b = some tag ∧ (seqTagCode tag).toNat = b.toNat := by
  refine ⟨_, if_pos h, ?_⟩
  rw [seqTagCode_seqTagOfCode, BitVec.toNat_setWidth]
  omega

/-- TP_SEND with an operand that names nothing is INVALID_PARAMETER. -/
theorem exec_tpSend_of_unnamed {p sq : Byte} (h : portOfByte p = none ∨ seqTagOfByte sq = none) (now : U32) (pd : U16)
    (pl : List Byte) (s : State) :
    exec (.tpSend now p sq pd pl) s = .next (raiseResult .invalidParameter (s.beginAt now)) := by
  simp only [exec, execTpSend]
  split
  · next hp hsq => simp [hp, hsq] at h
  · rfl

/-- TP_SEND with operands that name a port and a tag is DL_SEND with the packed metadata. -/
theorem exec_tpSend_of_named {p sq : Byte} {port : PortId} {tag : SeqTag} (hp : portOfByte p = some port)
    (hsq : seqTagOfByte sq = some tag) (now : U32) (pd : U16) (pl : List Byte) (s : State) :
    exec (.tpSend now p sq pd pl) s = exec (.dlSend now (packMetadata port tag pd) pl) s := by
  simp only [exec, execTpSend, hp, hsq, execDlSend]

/-- Settles O36: an operand out of range names nothing; operands in range are packed as the sum. -/
theorem tpSendPacks : Obligations.TpSendPacks := by
  intro now p sq pd pl s
  refine ⟨fun h => exec_tpSend_of_unnamed (h.imp portOfByte_none seqTagOfByte_none) now pd pl s, fun hp hsq => ?_⟩
  obtain ⟨port, hport, hpn⟩ := portOfByte_of_le hp
  obtain ⟨tag, htag, htn⟩ := seqTagOfByte_of_le hsq
  have hm : BitVec.ofNat 24 (p.toNat + 64 * sq.toNat + 256 * pd.toNat) = packMetadata port tag pd := by
    rw [← hpn, ← htn, ← packMetadata_toNat, BitVec.ofNat_toNat, BitVec.setWidth_eq]
  rw [hm]
  exact ⟨_, rfl, exec_tpSend_of_named hport htag now pd pl s⟩

/-! ### TP_ON_RECV (R231) -/

/-- A delivery to a registered port: PORT_RECV, then the segment to the port's sequencer where it has one. -/
theorem tpOnRecv_of_reg {m : U24} {s : State} {handle : U32} (h : s.port (metadataPort m) = .reg handle) (pl : List Byte) :
    tpOnRecv m pl s =
      let p := metadataPort m
      let u := emitPort [.recv p handle (metadataSeq m) (metadataPortData m) pl] s
      if u.reasmEnabled p then seqPush p handle (metadataSeq m) (metadataPortData m) pl u else u := by
  simp only [tpOnRecv, h]

/-- SEQ_PUSH to a registered port with a sequencer pushes the segment (R250). -/
theorem exec_seqPush_of_reg {p : PortId} {s : State} {handle : U32} (he : s.reasmEnabled p = true)
    (h : s.port p = .reg handle) (tag : SeqTag) (pd : U16) (pl : List Byte) :
    exec (.seqPush (p.setWidth 8) ((seqTagCode tag).setWidth 8) pd pl) s =
      .next (seqPush p handle tag pd pl s.begin) := by
  simp only [exec, execSeqPush, portOfByte_setWidth, seqTagOfByte_code, he, h, if_true]

/-- Settles O37: the metadata's fields are those the arithmetic gives, and the port is unregistered, registered without a
sequencer, or registered with one. -/
theorem tpOnRecvDelivers : Obligations.TpOnRecvDelivers := by
  intro m pl s
  simp only [← metadataPort_eq, ← metadataPortData_eq]
  refine ⟨fun hempty => congrArg _ (tpOnRecv_of_empty (s := s.begin) hempty pl), fun handle tag hreg htag => ?_⟩
  rw [← metadataSeq_eq htag]
  have hrecv := tpOnRecv_of_reg (s := s.begin) hreg pl
  refine ⟨fun hoff => ?delivered, fun hon => ?pushed⟩
  case delivered => exact congrArg _ (hrecv.trans (if_neg (Bool.eq_false_iff.mp hoff)))
  case pushed =>
    have hpush := exec_seqPush_of_reg
      (s := emitPort [.recv (metadataPort m) handle (metadataSeq m) (metadataPortData m) pl] s.begin)
      hon hreg (metadataSeq m) (metadataPortData m) pl
    exact ⟨_, hpush, congrArg _ (hrecv.trans (if_pos hon))⟩

/-! ### TP_ON_EVENT (R232) -/

/-- Each registered port gets the event, in the order of the ports. -/
theorem tpOnEvent_portOut (ev : LinkEvent) (s : State) :
    (tpOnEvent ev s).portOut = s.portOut ++ allPorts.filterMap (portEvent ev s) := by
  unfold tpOnEvent
  split
  · obtain ⟨q, hq⟩ := seqResetAll_eq s
    rw [hq]
    rfl
  · rfl

/-- RESET clears each enabled sequencer; no other event touches one. -/
theorem tpOnEvent_sequencer (ev : LinkEvent) (s : State) (p : PortId) :
    (tpOnEvent ev s).sequencer p =
      if ev = .reset ∧ s.reasmEnabled p = true then (s.sequencer p).clear else s.sequencer p := by
  unfold tpOnEvent
  by_cases hev : ev = .reset
  · simp only [hev, if_true, true_and, ← seqResetAll_sequencer]
    exact State.sequencer_congr (emitPort_seqs _ _) p
  · simp only [hev, if_false, false_and]
    exact State.sequencer_congr (emitPort_seqs _ _) p

/-- Settles O38: an event above 2 names none; any other reaches the ports in their order, after RESET's clearing. -/
theorem tpOnEventFansOut : Obligations.TpOnEventFansOut := by
  refine ⟨fun ev s hev => ?refused, fun ev s => ⟨tpOnEvent ev s.begin, ?runs, ?frame, ?events, ?sequencers⟩⟩
  case refused =>
    obtain ⟨-, hrefused, -⟩ := internalOperandsRefused s
    exact hrefused ev hev
  case runs => simp only [exec, execTpOnEvent, linkEventOfByte_code]
  case frame =>
    obtain ⟨q, items, h⟩ := tpOnEvent_eq ev s.begin
    rw [h]
    rfl
  case events =>
    rw [tpOnEvent_portOut, allPorts, List.filterMap_map]
    rfl
  case sequencers => exact tpOnEvent_sequencer ev s.begin

/-! ### TP_PORT_REGISTER (R233) -/

/-- TP_PORT_REGISTER of a port above 63, or with the null handle, is INVALID_PARAMETER. -/
theorem exec_tpPortRegister_of_illegal {p : Byte} {handle : U32} (h : p.toNat > 63 ∨ handle = 0) (s : State) :
    exec (.tpPortRegister p handle) s = .next (raiseResult .invalidParameter s.begin) := by
  simp only [exec, execTpPortRegister]
  obtain hp | rfl := h
  · rw [portOfByte_none hp]
  · split <;> rfl

/-- A registration writes its own port's entry only. -/
theorem registerPort_port (p q : PortId) (handle : U32) (s : State) :
    (registerPort p handle s).port q = if q = p then .reg handle else s.port q := by
  have hports : (registerPort p handle s).ports = (s.setPort p (.reg handle)).ports := by rw [registerPort, seqReset_eq]
  rw [State.port_congr hports, State.port_setPort]
  simp only [eq_comm]

/-- A registration clears its own port's sequencer, where it has one, and no other. -/
theorem registerPort_sequencer (p q : PortId) (handle : U32) (s : State) :
    (registerPort p handle s).sequencer q =
      if q = p ∧ s.reasmEnabled p = true then (s.sequencer p).clear else s.sequencer q := by
  rw [registerPort, seqReset_sequencer]
  by_cases hq : q = p
  · subst hq; rfl
  · simp only [hq, Ne.symm hq, false_and, if_false]
    rfl

/-- Settles O39: an illegal operand is refused; a legal registration writes one entry and one sequencer. -/
theorem tpPortRegisterBinds : Obligations.TpPortRegisterBinds := by
  refine fun handle s => ⟨fun p h => exec_tpPortRegister_of_illegal h s, fun p hh =>
    ⟨(registerPort p handle s.begin).answer (.result .ok), ?runs, ?frame, ?ports, ?sequencers⟩⟩
  case runs => simp only [exec, execTpPortRegister, portOfByte_setWidth, if_neg hh]
  case frame =>
    obtain ⟨q, h⟩ := registerPort_eq p handle s.begin
    rw [h]
    rfl
  case ports => exact fun q => registerPort_port p q handle s.begin
  case sequencers => exact fun q => registerPort_sequencer p q handle s.begin

end Sys2Proof.Machine
end

/-! ## The segment reassembly sequencer (spec/45_reassembly.md R250, R255, R257) -/

section
namespace Sys2Proof.Machine

/-! ### One segment pushed (R250) -/

section
variable {max : Nat} {pl : List Byte} {q : Sequencer}

/-- An orphan MIDDLE or STOP segment is counted and dropped. -/
theorem seqAppend_of_inactive (ha : q.active = false) : seqAppend max pl q = (q.countError, none) := by
  simp [seqAppend, ha]

/-- A segment that would pass REASM_MAX abandons the message and is counted. -/
theorem seqAppend_of_overflow (ha : q.active = true) (hlen : q.abuf.length + pl.length > max) :
    seqAppend max pl q = (q.clear.countError, none) := by
  simp only [seqAppend, ha, if_true, if_pos hlen]

/-- A segment that fits joins the message under way. -/
theorem seqAppend_of_fits (ha : q.active = true) (hlen : q.abuf.length + pl.length ≤ max) :
    seqAppend max pl q = ({ q with abuf := q.abuf ++ pl }, some (q.abuf ++ pl)) := by
  simp only [seqAppend, ha, if_true, if_neg (Nat.not_lt.mpr hlen)]

/-- START begins a message whatever stood before: an abandoned partial message and a segment that cannot fit are counted. -/
theorem seqSegment_start (pd : U16) :
    seqSegment max .start pd pl q =
      (let errors := if q.active then q.seqErrors + 1 else q.seqErrors
       if pl.length > max then { active := false, abuf := [], apd := 0, seqErrors := errors + 1 }
       else { active := true, abuf := pl, apd := pd, seqErrors := errors }, none) := by
  simp only [seqSegment]
  split <;> cases q.active <;> rfl

/-- Where the segment is not joined, MIDDLE and STOP do the same, and no message is complete. -/
theorem seqSegment_of_rejected {q' : Sequencer} (h : seqAppend max pl q = (q', none)) (pd : U16) :
    seqSegment max .middle pd pl q = (q', none) ∧ seqSegment max .stop pd pl q = (q', none) := by
  simp only [seqSegment, h, and_self]

/-- Where the segment is joined, MIDDLE waits for more and STOP completes the message, with the port data of its START. -/
theorem seqSegment_of_joined {q' : Sequencer} {message : List Byte} (h : seqAppend max pl q = (q', some message)) (pd : U16) :
    seqSegment max .middle pd pl q = (q', none) ∧
    seqSegment max .stop pd pl q = (q'.clear, some (q.apd, message)) := by
  simp only [seqSegment, h, and_self]

end

/-- `s` after SEQ_PUSH commands that leave `q` in port p's sequencer and put `out` on PORT_OUT. -/
def State.afterPush (p : PortId) (q : Sequencer) (out : List PortItem) (s : State) : State :=
  { s with ret := .none, seqs := s.seqs.set p.toNat q p.isLt, portOut := s.portOut ++ out }

@[simp] theorem State.sequencer_afterPush (p r : PortId) (q : Sequencer) (out : List PortItem) (s : State) :
    (s.afterPush p q out).sequencer r = if p = r then q else s.sequencer r :=
  s.sequencer_setSequencer p r q

@[simp] theorem State.reasmMax_afterPush (p r : PortId) (q : Sequencer) (out : List PortItem) (s : State) :
    (s.afterPush p q out).reasmMax r = s.reasmMax r := rfl

/-- Of two pushes to one port the later one's sequencer stays, and both outputs. -/
theorem State.afterPush_afterPush (p : PortId) (q q' : Sequencer) (out out' : List PortItem) (s : State) :
    (s.afterPush p q out).afterPush p q' out' = s.afterPush p q' (out ++ out') := by
  simp [State.afterPush]

/-- SEQ_PUSH of one tagged segment to port p. -/
def segmentPush (p : PortId) (pd : U16) (seg : SeqTag × List Byte) : Instr :=
  .seqPush (p.setWidth 8) ((seqTagCode seg.1).setWidth 8) pd seg.2

/-- SEQ_PUSH to a registered port with a sequencer is `seqSegment` on that sequencer, and a PORT_MSG where this completes a
message. -/
theorem exec_segmentPush {p : PortId} {handle : U32} {s : State} (he : s.reasmEnabled p = true) (hr : s.port p = .reg handle)
    {tag : SeqTag} {pd : U16} {pl : List Byte} {q : Sequencer} {message : Option (U16 × List Byte)}
    (h : seqSegment (s.reasmMax p) tag pd pl (s.sequencer p) = (q, message)) :
    exec (segmentPush p pd (tag, pl)) s =
      .next (s.afterPush p q (message.map fun m => PortItem.msg p handle m.1 m.2).toList) := by
  replace h : seqSegment (s.begin.reasmMax p) tag pd pl (s.begin.sequencer p) = (q, message) := h
  rw [segmentPush, exec_seqPush_of_reg he hr, seqPush_eq, h]
  rfl

/-- Settles O40: SINGLE and START have one outcome each; a MIDDLE or STOP segment is an orphan, too long, or joined. -/
theorem seqPushCases : Obligations.SeqPushCases := by
  refine ⟨fun p sq pd pl s hp => ?refused, fun p handle pd pl s he hr => ⟨?single, ?start, fun ha => ?orphan,
    fun ha hlen => ?overflow, fun ha hlen => ?fits⟩⟩
  case refused =>
    obtain ⟨-, -, hport, hdisabled, hempty, -⟩ := internalOperandsRefused s
    obtain hp | ⟨q, rfl, hq⟩ := hp
    · exact ⟨_, hport p sq pd pl hp⟩
    · cases he : s.reasmEnabled q with
      | false => exact ⟨_, hdisabled q sq pd pl he⟩
      | true => exact ⟨_, hempty q sq pd pl he (hq.resolve_left (by simp [he]))⟩
  case single => exact exec_segmentPush (tag := .single) he hr rfl
  case start => exact exec_segmentPush he hr (seqSegment_start pd)
  case orphan =>
    obtain ⟨hmiddle, hstop⟩ := seqSegment_of_rejected (seqAppend_of_inactive ha) pd
    exact ⟨exec_segmentPush he hr hmiddle, exec_segmentPush he hr hstop⟩
  case overflow =>
    obtain ⟨hmiddle, hstop⟩ := seqSegment_of_rejected (seqAppend_of_overflow ha hlen) pd
    exact ⟨exec_segmentPush he hr hmiddle, exec_segmentPush he hr hstop⟩
  case fits =>
    obtain ⟨hmiddle, hstop⟩ := seqSegment_of_joined (seqAppend_of_fits ha hlen) pd
    exact ⟨exec_segmentPush he hr hmiddle, exec_segmentPush he hr hstop⟩

/-! ### A message pushed segment by segment (R257, spec/30_encoding.md R95) -/

/-- The chunks of a payload, joined, are the payload. -/
theorem flatten_chunksOf {c : Nat} (hc : 1 ≤ c) (fuel : Nat) (bytes : List Byte) (h : bytes.length ≤ fuel) :
    (chunksOf c fuel bytes).flatten = bytes := by
  induction fuel generalizing bytes with
  | zero => simp [chunksOf, List.length_eq_zero_iff.mp (Nat.le_zero.mp h)]
  | succ fuel ih =>
    rw [chunksOf]
    split
    · next hnil => simp [hnil]
    · rw [List.flatten_cons, ih (bytes.drop c) (by rw [List.length_drop]; omega), List.take_append_drop]

/-- A run goes on from where its first instruction leads (R67). -/
theorem execAll_cons_of_next {i : Instr} {s t : State} (h : exec i s = .next t) (rest : List Instr) :
    execAll (i :: rest) s = execAll rest t := by
  simp only [execAll, h]

/-- A message under way, completed: the later segments join what the sequencer holds, and STOP delivers the whole. -/
theorem execAll_laterSegments {p : PortId} {handle : U32} (pd : U16) {rest : List (List Byte)} (hne : rest ≠ []) {s : State}
    (he : s.reasmEnabled p = true) (hr : s.port p = .reg handle) (ha : (s.sequencer p).active = true)
    (hfit : (s.sequencer p).abuf.length + rest.flatten.length ≤ s.reasmMax p) : ∃ q : Sequencer, q.active = false ∧
    execAll ((laterSegments rest).map (segmentPush p pd)) s =
      .next (s.afterPush p q
        [.msg p handle (s.sequencer p).apd ((s.sequencer p).abuf ++ rest.flatten)]) := by
  induction rest generalizing s with
  | nil => exact absurd rfl hne
  | cons c rest ih =>
    have hc : (s.sequencer p).abuf.length + c.length ≤ s.reasmMax p := by
      rw [List.flatten_cons, List.length_append] at hfit
      omega
    obtain ⟨hmiddle, hstop⟩ := seqSegment_of_joined (seqAppend_of_fits ha hc) pd
    cases rest with
    | nil =>
      rw [List.flatten_singleton]
      exact ⟨_, Sequencer.clear_active _, execAll_cons_of_next (exec_segmentPush he hr hstop) []⟩
    | cons c' rest =>
      obtain ⟨q, hq, hrun⟩ := ih (List.cons_ne_nil c' rest)
        (s := s.afterPush p { s.sequencer p with abuf := (s.sequencer p).abuf ++ c } []) he hr (by simpa using ha)
        (by simpa [Nat.add_assoc] using hfit)
      refine ⟨q, hq, (execAll_cons_of_next (exec_segmentPush he hr hmiddle) _).trans (hrun.trans ?_)⟩
      simp [State.afterPush_afterPush]

/-- The segments of a message that fits give one PORT_MSG with their bytes, whatever the sequencer held before. -/
theorem execAll_segments {p : PortId} {handle : U32} (pd : U16) {chunks : List (List Byte)} (hne : chunks ≠ []) {s : State}
    (he : s.reasmEnabled p = true) (hr : s.port p = .reg handle) (hfit : chunks.flatten.length ≤ s.reasmMax p) :
    ∃ q : Sequencer, q.active = false ∧
      execAll ((segments chunks).map (segmentPush p pd)) s =
        .next (s.afterPush p q [.msg p handle pd chunks.flatten]) := by
  match chunks, hne with
  | [only], _ =>
    refine ⟨if (s.sequencer p).active then (s.sequencer p).clear.countError else s.sequencer p, ?_, ?_⟩
    · split
      · rfl
      · next ha => simpa using ha
    · rw [List.flatten_singleton]
      exact execAll_cons_of_next (exec_segmentPush (tag := .single) he hr rfl) []
  | first :: c :: rest, _ =>
    rw [List.flatten_cons, List.length_append] at hfit
    have hstart := seqSegment_start (max := s.reasmMax p) (pl := first) (q := s.sequencer p) pd
    rw [if_neg (by omega : ¬ first.length > s.reasmMax p)] at hstart
    generalize (if (s.sequencer p).active then _ else _) = errors at hstart
    obtain ⟨q, hq, hrun⟩ := execAll_laterSegments pd (List.cons_ne_nil c rest)
      (s := s.afterPush p ⟨true, first, pd, errors⟩ []) he hr (by simp) (by simpa using hfit)
    refine ⟨q, hq, (execAll_cons_of_next (exec_segmentPush he hr hstart) _).trans (hrun.trans ?_)⟩
    simp [State.afterPush_afterPush]

/-- Settles O42: the chunks joined are the payload, and their segments give one message. -/
theorem messageReassembled : Obligations.MessageReassembled := by
  intro p handle pd payload chunk s he hr hchunk hne hlen
  have hjoin := flatten_chunksOf hchunk payload.length payload le_rfl
  have hchunks : chunksOf chunk payload.length payload ≠ [] := fun h => hne (by rw [← hjoin, h, List.flatten_nil])
  obtain ⟨q, hq, hrun⟩ := execAll_segments pd hchunks he hr (by rwa [hjoin])
  rw [hjoin] at hrun
  refine ⟨_, hrun, rfl, ?_, fun r hrp => ?_⟩
  · rw [State.sequencer_afterPush, if_pos rfl, hq]
  · rw [State.sequencer_afterPush, if_neg (Ne.symm hrp)]

/-! ### SEQ_RESET (R255) -/

/-- Settles O41: a port above 63 names no sequencer; otherwise SEQ_RESET writes that port's one. -/
theorem seqResetAbandons : Obligations.SeqResetAbandons := by
  refine fun s => ⟨fun p hp => ?none, fun p => ?port⟩
  case none => simp only [exec, execSeqReset, portOfByte_none hp, State.begin]
  case port =>
    simp only [exec, execSeqReset, portOfByte_setWidth]
    exact congrArg _ (seqReset_eq p s.begin)

end Sys2Proof.Machine
end

/-! ## A failed command has no effect (spec/60_exceptions.md R270) -/

section
namespace Sys2Proof.Machine

/-- The three ways an instruction can answer: with no more change than the answer itself and the record of `now` (log 4), with no
value, or with OK. -/
inductive Answered (s : State) : State → Prop
  | only (now : U32) (r : Ret) : Answered s { s with now := now, ret := r }
  | silent {t : State} (h : t.ret = .none) : Answered s t
  | ok {t : State} (h : t.ret = .result .ok) : Answered s t

/-- A result other than OK leaves only the first way. -/
theorem Answered.eq_of_failure {s t : State} (h : Answered s t) {r : Result} (hret : t.ret = .result r) (hr : r ≠ .ok) :
    t = { s with ret := .result r, now := t.now } := by
  cases h with
  | only now r' =>
    rw [show r' = .result r from hret]
  | silent hnone => simp [hnone] at hret
  | ok hok =>
    rw [hok] at hret
    cases hret
    exact absurd rfl hr

/-- DL_SEND fails before it changes anything, or answers OK (R182). -/
theorem answered_dlSend (now : U32) (m : U24) (pl : List Byte) (s : State) : Answered s (dlSend now m pl (s.beginAt now)) := by
  obtain ⟨-, h⟩ | ⟨-, h⟩ := dlSend_cases now m pl (s.beginAt now) <;> rw [h]
  · exact .only now _
  · exact .ok rfl

/-- A constructor answers its bytes or INVALID_PARAMETER, and no more (R160, R161). -/
theorem answered_answerFrame (bytes : Option (List Byte)) (s : State) : Answered s (answerFrame bytes s.begin) := by
  cases bytes with
  | none => exact .only s.now _
  | some bs => exact .only s.now _

/-- TP_SEND refuses its operands before anything, or answers as DL_SEND does (R230). -/
theorem answered_tpSend {now : U32} {p sq : Byte} {pd : U16} {pl : List Byte} {s t : State}
    (h : exec (.tpSend now p sq pd pl) s = .next t) : Answered s t := by
  simp only [exec, execTpSend] at h
  split at h
  · cases h
    exact answered_dlSend now _ pl s
  · cases h
    exact .only now _

/-- TP_PORT_REGISTER refuses its operands before anything, or answers OK (R233). -/
theorem answered_tpPortRegister {p : Byte} {handle : U32} {s t : State} (h : exec (.tpPortRegister p handle) s = .next t) :
    Answered s t := by
  simp only [exec, execTpPortRegister] at h
  split at h
  · cases h
    exact .only s.now _
  · split at h
    · cases h
      exact .only s.now _
    · cases h
      exact .ok rfl

/-- A wire frame is no command, and answers no value (R62). -/
theorem receiveFrame_ret (i : Instr) (s : State) : (receiveFrame i s).ret = .none := by
  unfold receiveFrame receiveWire
  split
  · exact (feedBytes_received _ s.begin).ret
  · exact (recvBytes_received _ _ s.begin).ret

/-- Every instruction that answers a next state answers in one of the three ways. -/
theorem exec_answered {i : Instr} {s t : State} (h : exec i s = .next t) : Answered s t := by
  cases i with
  | wireData | wireAckAll | wireAckOne | wireNackFrameId | wireNackFramingError | wireReset =>
    rw [exec_of_isWire rfl] at h
    cases h
    exact .silent (receiveFrame_ret _ s)
  | frxByte b =>
    cases h
    exact .silent (frxRun_received _ [b] s.begin).ret
  | frxReset | dlOnFramingError =>
    cases h
    exact .silent rfl
  | ftxData | ftxLink =>
    cases h
    exact answered_answerFrame _ s
  | fidSub | fidInc | dlStatus =>
    cases h
    exact .only s.now _
  | dlServiceInterval now =>
    cases h
    exact .only now _
  | dlSend now m pl =>
    cases h
    exact answered_dlSend now m pl s
  | tpSend => exact answered_tpSend h
  | tpPortRegister => exact answered_tpPortRegister h
  | dlLlRecv now bs =>
    cases h
    exact .silent (recvBytes_received now bs (s.beginAt now)).ret
  | dlProcess now =>
    cases h
    exact .silent (processTimeouts_handled now (s.beginAt now)).ret
  | dlReset now =>
    cases h
    exact .silent (linkReset_reacts true (s.beginAt now)).ret
  | dlOnFrame now fid m pl =>
    cases h
    exact .silent (onFrame_reacts fid m pl (s.beginAt now)).ret
  | dlOnLink now type fid =>
    simp only [exec, execDlOnLink] at h
    split at h
    · cases h
      exact .silent (onLink_reacts now _ fid (s.beginAt now)).ret
    · cases h
  | tpOnRecv m pl =>
    cases h
    exact .silent (tpOnRecv_handled m pl s.begin).ret
  | tpOnEvent b =>
    simp only [exec, execTpOnEvent] at h
    split at h
    · cases h
      exact .silent (tpOnEvent_handled _ s.begin).ret
    · cases h
  | seqPush b sq pd pl =>
    simp only [exec, execSeqPush] at h
    split at h
    · cases h
    · split at h
      · split at h
        · cases h
        · cases h
        · cases h
          exact .silent (by rw [seqPush_eq]; rfl)
      · cases h
  | seqReset b =>
    simp only [exec, execSeqReset] at h
    split at h
    · cases h
      exact .silent rfl
    · cases h
      exact .silent (by rw [seqReset_eq]; rfl)

/-- Settles O52: of the three ways to answer, a failure is the one that changes no more than the answer. -/
theorem failureChangesNothing : Obligations.FailureChangesNothing :=
  fun _ _ _ _ h hret hr => (exec_answered h).eq_of_failure hret hr

end Sys2Proof.Machine
end

/-! ## The power-on reset (spec/70_reset_and_hazards.md R300, spec/00_scope.md R6) -/

section
namespace Sys2Proof.Machine

theorem ne_zero_of_one_le_toNat {v : U32} (h : 1 ≤ v.toNat) : v ≠ 0 := by
  rintro rfl
  exact absurd h (by decide)

/-- The ranges R6 gives the six values of a legal configuration. -/
theorem ranges_of_wf {c : Config} (h : c.wf = true) :
    c.txWindowSize ≠ 0 ∧ c.txWindowSize.toNat ≤ 1023 ∧ c.txBufferSize ≠ 0 ∧ c.rxWindowSize ≠ 0 ∧ c.rxBufferSize ≠ 0 ∧
      c.txLinkBufferSize ≠ 0 ∧ c.txTimeoutMs ≠ 0 := by
  simp only [Config.wf, Bool.and_eq_true, decide_eq_true_eq] at h
  obtain ⟨⟨⟨⟨⟨⟨⟨⟨⟨hwindow, hmax⟩, hbuffer⟩, hrxWindow⟩, hrxBuffer⟩, hlink⟩, htimeout⟩, -⟩, -⟩, -⟩ := h
  exact ⟨ne_zero_of_one_le_toNat hwindow, hmax, ne_zero_of_one_le_toNat hbuffer, ne_zero_of_one_le_toNat hrxWindow,
    ne_zero_of_one_le_toNat hrxBuffer, ne_zero_of_one_le_toNat hlink, ne_zero_of_one_le_toNat htimeout⟩

@[simp] theorem State.port_initial (mode : Mode) (cfg : Config) (p : PortId) : (State.initial mode cfg).port p = .empty := by
  simp [State.port, State.initial]

@[simp] theorem State.sequencer_initial (mode : Mode) (cfg : Config) (p : PortId) :
    (State.initial mode cfg).sequencer p = Sequencer.reset := by
  simp [State.sequencer, State.initial]

/-- Settles O46: a value out of R6's ranges makes the configuration illegal, and a legal one gives the initial state. -/
theorem powerOnReset : Obligations.PowerOnReset := by
  refine fun mode cfg => ⟨fun hbad => if_neg fun hwf => ?illegal, fun hwf => ⟨State.initial mode cfg, if_pos hwf, ?legal⟩⟩
  case illegal =>
    obtain ⟨hwindow, hmax, hbuffer, hrxWindow, hrxBuffer, hlink, htimeout⟩ := ranges_of_wf hwf
    rcases hbad with h | h | h | h | h | h | h
    · exact hwindow h
    · exact absurd hmax (Nat.not_le.mpr h)
    · exact hbuffer h
    · exact hrxWindow h
    · exact hrxBuffer h
    · exact hlink h
    · exact htimeout h
  case legal =>
    exact ⟨rfl, rfl, rfl, rfl, rfl, rfl, rfl, rfl, rfl, rfl, rfl, rfl, rfl, rfl, rfl, rfl, rfl,
      fun p => ⟨State.port_initial mode cfg p, State.sequencer_initial mode cfg p⟩⟩

end Sys2Proof.Machine
end

/-! ## The run-time resets (spec/70_reset_and_hazards.md R301) -/

section
namespace Sys2Proof.Machine

/-- What a link reset clears and puts before it sends RESET upward: DL, but for the bytes just put, and FRX's counters (R196). -/
def State.linkCleared (put : List Byte) (s : State) : State :=
  { s with
    frx := { s.frx with crcErrors := 0, resync := 0 }
    dl := { Dl.reset with txBytes := BitVec.ofNat 32 put.length }
    txOut := s.txOut ++ put }

/-- DL_RESET's link reset puts the RESET frame (R196). -/
theorem linkReset_true (s : State) :
    linkReset true s = upwardEvent .reset (s.linkCleared (linkBytes s.cfg.sof 6 0)) := by
  simp only [linkReset, sendLink_eq, if_true]
  rfl

/-- A received RESET's link reset puts nothing (R190). -/
theorem linkReset_false (s : State) : linkReset false s = upwardEvent .reset (s.linkCleared []) := by
  simp only [linkReset, State.linkCleared, List.append_nil]
  rfl

/-- Outside unit mode of DL an event goes to TP (R272). -/
theorem upwardEvent_of_not_dl {s : State} (hm : s.mode ≠ .unit .dl) (ev : LinkEvent) : upwardEvent ev s = tpOnEvent ev s :=
  if_neg hm

/-- Either link reset, with a TP above DL: the clearing, then TP's RESET (R196, R232). -/
theorem exec_linkReset {s : State} (hm : s.mode ≠ .unit .dl) {now : U32} {fid : U16} {i : Instr} {put : List Byte}
    (h : i = .dlReset now ∧ put = linkBytes s.cfg.sof 6 0 ∨ i = .dlOnLink now 6 fid ∧ put = []) :
    exec i s = .next (tpOnEvent .reset ((s.beginAt now).linkCleared put)) := by
  rw [← upwardEvent_of_not_dl (s := (s.beginAt now).linkCleared put) hm]
  rcases h with ⟨rfl, rfl⟩ | ⟨rfl, rfl⟩
  · show Host.Outcome.next (linkReset true (s.beginAt now)) = _
    rw [linkReset_true, State.beginAt_cfg]
  · exact (exec_dlOnLink now .reset fid s).trans (congrArg _ (linkReset_false (s.beginAt now)))

/-- Settles O29: FRX_RESET is R131's update, and a link reset is its clearing and then TP's RESET, which adds the events and
clears the sequencers. -/
theorem runtimeResets : Obligations.RuntimeResets := by
  refine fun now fid s hm => ⟨⟨_, rfl, rfl, rfl⟩, fun i put h => ⟨_, exec_linkReset hm h, ?_⟩⟩
  generalize hu : (s.beginAt now).linkCleared put = u
  have hports := tpOnEvent_portOut .reset u
  have hseqs := tpOnEvent_sequencer .reset u
  obtain ⟨q, items, ht⟩ := tpOnEvent_eq .reset u
  rw [ht] at hports hseqs ⊢
  subst hu
  refine ⟨rfl, rfl, rfl, rfl, rfl, rfl, rfl, rfl, rfl, rfl, rfl, ?events, fun p => ?sequencers⟩
  case events =>
    rw [hports, allPorts, List.filterMap_map]
    rfl
  case sequencers =>
    rw [hseqs]
    simp only [true_and]
    rfl

end Sys2Proof.Machine
end

/-! ## Work bounds (spec/70_reset_and_hazards.md R321) -/

section
namespace Sys2Proof.Machine

/-- A NACK of either kind runs the NACK steps (R188, R189). -/
theorem exec_dlOnLink_of_nack {type : Byte} (h : type = 4 ∨ type = 5) (now : U32) (fid : U16) (s : State) :
    exec (.dlOnLink now type fid) s = .next (goBack now fid (s.beginAt now)) := by
  rcases h with rfl | rfl
  · exact exec_dlOnLink now .nackFrameId fid s
  · exact exec_dlOnLink now .nackFramingError fid s

/-- The NACK steps count as sent again the entries not before the id, whatever the retry check finds (R188, R191). -/
theorem goBack_txRetransmissions (now : U32) (fid : U16) (s : State) :
    let acked (f : InFlight) : Bool := decide (fidSub f.fid.toNat fid.toNat < 0)
    (goBack now fid s).dl.txRetransmissions =
      s.dl.txRetransmissions + BitVec.ofNat 32 (s.dl.inflight.filter (fun f => !acked f)).length := by
  rw [goBack_eq, (retryCheck_keeps _).1]

/-- No selection of the in-flight entries is longer than the window (R36). -/
theorem Dl.Inv.length_filter_le {cfg : Config} {d : Dl} (h : d.Inv cfg) (p : InFlight → Bool) :
    (d.inflight.filter p).length ≤ cfg.txWindowSize.toNat :=
  (List.length_filter_le p d.inflight).trans h.1

/-- DL_PROCESS and the NACKs send no more frames again than the window holds (R321). -/
theorem resends_le_window {s : State} (hinv : s.dl.Inv s.cfg) {i : Instr} {now : U32} {fid : U16}
    (h : i = .dlProcess now ∨ i = .dlOnLink now 4 fid ∨ i = .dlOnLink now 5 fid) :
    ∃ t n, exec i s = .next t ∧ n ≤ s.cfg.txWindowSize.toNat ∧
      t.dl.txRetransmissions = s.dl.txRetransmissions + BitVec.ofNat 32 n := by
  have hnack {type : Byte} (htype : type = 4 ∨ type = 5) : ∃ t n, exec (.dlOnLink now type fid) s = .next t ∧
      n ≤ s.cfg.txWindowSize.toNat ∧ t.dl.txRetransmissions = s.dl.txRetransmissions + BitVec.ofNat 32 n :=
    ⟨_, _, exec_dlOnLink_of_nack htype now fid s, hinv.length_filter_le _, goBack_txRetransmissions now fid (s.beginAt now)⟩
  rcases h with rfl | rfl | rfl
  · obtain ⟨t, hexec, -, -, hcount⟩ := exec_dlProcess now s
    exact ⟨t, _, hexec, hinv.length_filter_le _, hcount⟩
  · exact hnack (.inl rfl)
  · exact hnack (.inr rfl)

/-- One TP_ON_EVENT emits at most one item for each port (R232, R321). -/
theorem tpOnEvent_portOut_length_le (ev : LinkEvent) (s : State) :
    (tpOnEvent ev s).portOut.length ≤ s.portOut.length + 64 := by
  rw [tpOnEvent_portOut, List.length_append]
  exact Nat.add_le_add_left (List.length_filterMap_le _ allPorts) _

/-- A TP_ON_EVENT that answers has run the handler of a link event (R232). -/
theorem exec_tpOnEvent_next {ev : Byte} {s t : State} (h : exec (.tpOnEvent ev) s = .next t) :
    ∃ e, t = tpOnEvent e s.begin := by
  simp only [exec, execTpOnEvent] at h
  split at h
  · cases h
    exact ⟨_, rfl⟩
  · cases h

/-- No command faults (R274). -/
theorem exec_next_or_refused (i : Instr) (s : State) : (∃ t, exec i s = .next t) ∨ ∃ r, exec i s = .refused r := by
  cases h : exec i s with
  | next t => exact .inl ⟨t, rfl⟩
  | fault r => nomatch r
  | refused r => exact .inr ⟨r, rfl⟩

/-- Settles O53: FRX's measure, the window, the 64 ports, and the outcomes a command can have. -/
theorem workBounds : Obligations.WorkBounds := by
  refine fun s hinv => ⟨fun b => ?steps, fun i now fid h => resends_le_window hinv.dl h, fun ev t h => ?items,
    fun i => exec_next_or_refused i s⟩
  case steps =>
    obtain ⟨n, t, hrun, hexec, hn⟩ := frxByteRunsToEnd b s
    exact ⟨n, t, hrun, hexec, hn hinv.frx⟩
  case items =>
    obtain ⟨e, rfl⟩ := exec_tpOnEvent_next h
    exact tpOnEvent_portOut_length_le e s.begin

end Sys2Proof.Machine
end
